-- ==== Sys2Proof/Word.lean ====
section
/-! DEFINITION. What the register files hold.

The rules write every value as a mathematical non-negative integer (00_scope.md R10, R11) whose width is a build
parameter, so a word and a multi-word value are numbers. That they fit their widths is an invariant (`State.wf`), which
every write to a register restores (log entry 19). The two names say which kind of register a field is; operations take
and give plain numbers. -/

namespace Sys2Proof

/-- The contents of an S register: an unsigned integer in `[0, 2^W)` (00_scope.md R10, R14). -/
abbrev Word := Nat

/-- The contents of a V register, a BigUnsigned(N): an unsigned integer in `[0, 2^M)`, word 0 least significant
(00_scope.md R10, R14). -/
abbrev Big := Nat

end Sys2Proof
end

