-- ==== Sys2Proof/Config.lean ====
section
/-! DEFINITION. What an instance fixes: the parameters `W`, `N`, `KT` (00_scope.md R6 to R9), and the free value. -/

namespace Sys2Proof

/-- `W ∈ {32, 64}` (00_scope.md R6). -/
inductive WordWidth
  | w32
  | w64
deriving DecidableEq, Repr

/-- The number of bits of a word. -/
def WordWidth.bits : WordWidth → Nat
  | .w32 => 32
  | .w64 => 64

/-- `KT ∈ {3, 4, 5}`, the Karatsuba size threshold in words (00_scope.md R8). -/
inductive KaratsubaThreshold
  | kt3
  | kt4
  | kt5
deriving DecidableEq, Repr

/-- The threshold as a number of words. -/
def KaratsubaThreshold.words : KaratsubaThreshold → Nat
  | .kt3 => 3
  | .kt4 => 4
  | .kt5 => 5

/-- The build parameters of one instance; nothing else parameterises the block (00_scope.md R9). -/
structure Params where
  width : WordWidth
  words : Nat
  threshold : KaratsubaThreshold
deriving DecidableEq, Repr

namespace Params

/-- `W`, the word width in bits (R6). -/
def W (p : Params) : Nat := p.width.bits

/-- `N`, the words of a multi-word operand (R7). -/
def N (p : Params) : Nat := p.words

/-- `M = N·W`, the width in bits of a multi-word operand (R7). -/
def M (p : Params) : Nat := p.N * p.W

/-- `KT` (R8). -/
def KT (p : Params) : Nat := p.threshold.words

/-- The legal instances: `1 ≤ N ≤ 65535` (R7); the types already say `W ∈ {32, 64}` and `KT ∈ {3, 4, 5}`. -/
abbrev legal (p : Params) : Prop := 1 ≤ p.words ∧ p.words ≤ 65535

end Params

namespace Config

/-- The instance that `State.reset` is of: `W = 32`, `N = 2`, `KT = 3`.
DESIGN CHOICE (log entry 1), unsafe for a claim about `State.reset` alone: the spec leaves the three values open
(92_eei_decisions.md D2 to D4); claims about every state are about every instance. -/
def resetParams : Params := { width := .w32, words := 2, threshold := .kt3 }

/-- The free value: what the spec calls unspecified and a model draws (93_implementation_defined.md section 2).
It is applied to the number of the draw, a counter of State (`draws`) that each issue and each reset advances, and to a
place, so that two draws and two places of one draw need not agree; it is cut to the width of the field it fills.
It has no body, so nothing can be proved of a value of it (log entries 5 to 7), safe. -/
opaque freeValue : Nat → Nat → Nat

end Config

end Sys2Proof
end

