-- ==== Sys2Proof/Syntax.lean ====
section
/-! DEFINITION. The thirty commands (30_encoding.md R68), one constructor per row of spec/opcode_table.json.

Operands stand in the order of the "operands" column of R68; a carry-in select comes last (R64), and so does an
algorithm select (R65, R66). -/

namespace Sys2Proof

/-- The number of a V register, `V0` to `V7` (10_state.md R20, 30_encoding.md R61). -/
abbrev VReg := Fin 8

/-- The number of an S register, `S0` to `S7` (10_state.md R21, 30_encoding.md R61). -/
abbrev SReg := Fin 8

/-- The carry-in select CI (30_encoding.md R64). -/
inductive CarryIn
  /-- `CI = 0b00`: the carry-in is 0. -/
  | zero
  /-- `CI = 0b01`: the carry-in is 1. -/
  | one
  /-- `CI = 0b10`: the carry-in is the ST bit the previous completed command left. -/
  | status
deriving DecidableEq, Repr

/-- The multiply algorithm select ALG of VMULD and VMUL (30_encoding.md R65). -/
inductive MulAlg
  | auto
  | schoolbook
  | karatsuba
deriving DecidableEq, Repr

/-- The division algorithm select ALG of VDIV (30_encoding.md R66). -/
inductive DivAlg
  | knuth
  | restoring
  | align
deriving DecidableEq, Repr

/-- A command (30_encoding.md R68). -/
inductive Instr
  /-- `VSET vD, sA` (R80). -/
  | vset (d : VReg) (a : SReg)
  /-- `VLDW vD, sA, sB` (R81). -/
  | vldw (d : VReg) (a b : SReg)
  /-- `VSTW sD, vA, sB` (R82). -/
  | vstw (d : SReg) (a : VReg) (b : SReg)
  /-- `VMOV vD, vA` (R83). -/
  | vmov (d a : VReg)
  /-- `CLRST` (R84). -/
  | clrst
  /-- `WADD[.ci] sD, sA, sB` (R90). -/
  | wadd (d a b : SReg) (ci : CarryIn)
  /-- `WSUB[.ci] sD, sA, sB` (R91). -/
  | wsub (d a b : SReg) (ci : CarryIn)
  /-- `WMUL sD, sC, sA, sB` (R92): high word to `sD`, low word to `sC`. -/
  | wmul (d c a b : SReg)
  /-- `WDIV sD, sC, sA, sB, sE` (R93): quotient to `sD`, remainder to `sC`. -/
  | wdiv (d c a b e : SReg)
  /-- `VADD[.ci] vD, vB` (R100). -/
  | vadd (d b : VReg) (ci : CarryIn)
  /-- `VSUB[.ci] vD, vB` (R101). -/
  | vsub (d b : VReg) (ci : CarryIn)
  /-- `VADDO vD, sA, sB` (R102). -/
  | vaddo (d : VReg) (a b : SReg)
  /-- `VSUBO vD, sA, sB` (R103). -/
  | vsubo (d : VReg) (a b : SReg)
  /-- `VSHL[.ci] vD, sB` (R111). -/
  | vshl (d : VReg) (b : SReg) (ci : CarryIn)
  /-- `VSHR[.ci] vD, sB` (R112). -/
  | vshr (d : VReg) (b : SReg) (ci : CarryIn)
  /-- `VFLB sD, sC, vA` (R115): word index to `sD`, bit index to `sC`. -/
  | vflb (d c : SReg) (a : VReg)
  /-- `VFTB sD, sC, vA` (R116): word index to `sD`, bit index to `sC`. -/
  | vftb (d c : SReg) (a : VReg)
  /-- `VGETB vA, sB` (R117). -/
  | vgetb (a : VReg) (b : SReg)
  /-- `VSETB vD, sB` (R118). -/
  | vsetb (d : VReg) (b : SReg)
  /-- `VNORM vD, sC` (R119): the shift amount to `sC`. -/
  | vnorm (d : VReg) (c : SReg)
  /-- `VAND vD, vB` (R120). -/
  | vand (d b : VReg)
  /-- `VOR vD, vB` (R121). -/
  | vor (d b : VReg)
  /-- `VXOR vD, vB` (R122). -/
  | vxor (d b : VReg)
  /-- `VNOT vD` (R123). -/
  | vnot (d : VReg)
  /-- `VNOTM vD` (R124). -/
  | vnotm (d : VReg)
  /-- `VMULW vD, sB` (R130). -/
  | vmulw (d : VReg) (b : SReg)
  /-- `VMULD[.alg] vD, vA, vB` (R132): the product to the pair `vD`, `vD+1`. -/
  | vmuld (d a b : VReg) (alg : MulAlg)
  /-- `VMUL[.alg] vD, vB` (R133). -/
  | vmul (d b : VReg) (alg : MulAlg)
  /-- `VDIVW vD, sB, sC` (R140): the remainder word to `sC`. -/
  | vdivw (d : VReg) (b c : SReg)
  /-- `VDIV[.alg] vD, vB, vC` (R142): the remainder to `vC`. -/
  | vdiv (d b c : VReg) (alg : DivAlg)
deriving DecidableEq, Repr

end Sys2Proof
end

