-- ==== Sys2Proof/WellFormed.lean ====
section
/-! DEFINITION. Which commands are well formed: the operand constraints of 30_encoding.md R67 (e) to (g).

The other conditions of R67 are about words and belong to the decoder: no ill-formed field, select or opcode can be
written down as an `Instr`. -/

namespace Sys2Proof

/-- Why a command is ill formed. -/
inductive IllFormed
  /-- VMULD with D odd: the destination pair is `(V[D], V[D+1])` with D even (R67 (e)). -/
  | oddPair
  /-- WMUL, WDIV, VFLB, VFTB or VDIV with D = C: two results to one register (R67 (f), (g)). -/
  | sameDestination
deriving DecidableEq, Repr

namespace Instr

/-- The operand constraint a command breaks, if it breaks one (R67 (e) to (g)). -/
def flaw : Instr → Option IllFormed
  | .vset _ _ => none
  | .vldw _ _ _ => none
  | .vstw _ _ _ => none
  | .vmov _ _ => none
  | .clrst => none
  | .wadd _ _ _ _ => none
  | .wsub _ _ _ _ => none
  | .wmul d c _ _ => if d = c then some .sameDestination else none
  | .wdiv d c _ _ _ => if d = c then some .sameDestination else none
  | .vadd _ _ _ => none
  | .vsub _ _ _ => none
  | .vaddo _ _ _ => none
  | .vsubo _ _ _ => none
  | .vshl _ _ _ => none
  | .vshr _ _ _ => none
  | .vflb d c _ => if d = c then some .sameDestination else none
  | .vftb d c _ => if d = c then some .sameDestination else none
  | .vgetb _ _ => none
  | .vsetb _ _ => none
  | .vnorm _ _ => none
  | .vand _ _ => none
  | .vor _ _ => none
  | .vxor _ _ => none
  | .vnot _ => none
  | .vnotm _ => none
  | .vmulw _ _ => none
  | .vmuld d _ _ _ => if d.val % 2 = 1 then some .oddPair else none
  | .vmul _ _ _ => none
  | .vdivw _ _ _ => none
  | .vdiv d _ c _ => if d = c then some .sameDestination else none

/-- A command whose operands R67 (e) to (g) allow. -/
abbrev wellFormed (i : Instr) : Prop := i.flaw = none

end Instr

end Sys2Proof
end

