-- ==== Sys2Proof/Decode.lean ====
section
/-! DEFINITION. The command word: its fields, the decoder and the encoder (30_encoding.md R60 to R69).

The decoder is total on every 32-bit word and names what is wrong with a word it refuses (R67). -/

namespace Sys2Proof

/-! ### The fields of a command word (R60) -/

/-- The fields of a command word (R60). -/
structure Fields where
  /-- OP, bits 31:26. -/
  op : Fin 64
  /-- D, bits 25:23. -/
  d : Fin 8
  /-- A, bits 22:20. -/
  a : Fin 8
  /-- B, bits 19:17. -/
  b : Fin 8
  /-- C, bits 16:14. -/
  c : Fin 8
  /-- E, bits 13:11. -/
  e : Fin 8
  /-- CI, bits 10:9. -/
  ci : Fin 4
  /-- ALG, bits 8:7. -/
  alg : Fin 4
  /-- RSV, bits 6:0. -/
  rsv : Fin 128
deriving DecidableEq, Repr

/-- The bits `lo` and above of `x`, cut to a field of `n` values: `x[hi:lo]` of 00_scope.md R10. -/
def bitField (n : Nat) [NeZero n] (x lo : Nat) : Fin n := Fin.ofNat n (x / 2 ^ lo)

/-- The fields of a word (R60). -/
def Fields.ofNat (x : Nat) : Fields :=
  { op := bitField 64 x 26, d := bitField 8 x 23, a := bitField 8 x 20, b := bitField 8 x 17, c := bitField 8 x 14
    e := bitField 8 x 11, ci := bitField 4 x 9, alg := bitField 4 x 7, rsv := bitField 128 x 0 }

/-- The word assembled from its fields (R69); the fields do not overlap, so the rule's `|` is a sum. -/
def Fields.toNat (f : Fields) : Nat :=
  f.op * 2 ^ 26 + f.d * 2 ^ 23 + f.a * 2 ^ 20 + f.b * 2 ^ 17 + f.c * 2 ^ 14 + f.e * 2 ^ 11 + f.ci * 2 ^ 9
    + f.alg * 2 ^ 7 + f.rsv

/-- The command word as R69 writes it, a disjunction of shifted fields. -/
def assemble (op d a b c e ci alg : Nat) : BitVec 32 :=
  BitVec.ofNat 32 ((op <<< 26) ||| (d <<< 23) ||| (a <<< 20) ||| (b <<< 17) ||| (c <<< 14) ||| (e <<< 11) ||| (ci <<< 9)
    ||| (alg <<< 7))

/-- The fields of a word with this opcode and every other field zero. -/
def Fields.blank (op : Fin 64) : Fields :=
  { op := op, d := 0, a := 0, b := 0, c := 0, e := 0, ci := 0, alg := 0, rsv := 0 }

/-- The names of the operand fields, as the "fields used" column of R68 writes them (`i` is CI, `g` is ALG). -/
inductive Field
  | d
  | a
  | b
  | c
  | e
  | i
  | g
deriving DecidableEq, Repr

/-- The number an operand field holds. -/
def Fields.value (f : Fields) : Field → Nat
  | .d => f.d
  | .a => f.a
  | .b => f.b
  | .c => f.c
  | .e => f.e
  | .i => f.ci
  | .g => f.alg

/-- RSV and every operand field not among `used` are zero (R63). -/
def Fields.cleanOutside (f : Fields) (used : List Field) : Bool :=
  ([Field.d, .a, .b, .c, .e, .i, .g].all fun k => used.contains k || f.value k == 0) && f.rsv == 0

/-! ### The opcode map (R68) -/

/-- The "fields used" column of R68; `none` for a reserved opcode. -/
def usedFields (op : Nat) : Option (List Field) :=
  match op with
  | 0x01 => some [.d, .a]
  | 0x02 => some [.d, .a, .b]
  | 0x03 => some [.d, .a, .b]
  | 0x04 => some [.d, .a]
  | 0x05 => some []
  | 0x08 => some [.d, .a, .b, .i]
  | 0x09 => some [.d, .a, .b, .i]
  | 0x0A => some [.d, .c, .a, .b]
  | 0x0B => some [.d, .c, .a, .b, .e]
  | 0x10 => some [.d, .b, .i]
  | 0x11 => some [.d, .b, .i]
  | 0x12 => some [.d, .a, .b]
  | 0x13 => some [.d, .a, .b]
  | 0x18 => some [.d, .b, .i]
  | 0x19 => some [.d, .b, .i]
  | 0x1A => some [.d, .c, .a]
  | 0x1B => some [.d, .c, .a]
  | 0x1C => some [.a, .b]
  | 0x1D => some [.d, .b]
  | 0x1E => some [.d, .c]
  | 0x20 => some [.d, .b]
  | 0x21 => some [.d, .b]
  | 0x22 => some [.d, .b]
  | 0x23 => some [.d]
  | 0x24 => some [.d]
  | 0x28 => some [.d, .b]
  | 0x29 => some [.d, .a, .b, .g]
  | 0x2A => some [.d, .b, .g]
  | 0x30 => some [.d, .b, .c]
  | 0x31 => some [.d, .b, .c, .g]
  | _ => none

/-- One row of the opcode map: the opcode with the "match" and "mask" columns of R68. -/
structure OpcodeRow where
  op : Nat
  pattern : BitVec 32
  mask : BitVec 32
deriving DecidableEq, Repr

/-- The opcode map as R68 prints it. The decoder works from "fields used"; that the two columns say the same is a
statement about it. -/
def opcodeTable : List OpcodeRow :=
  [⟨0x01, 0x04000000, 0xFC0FFFFF⟩, ⟨0x02, 0x08000000, 0xFC01FFFF⟩, ⟨0x03, 0x0C000000, 0xFC01FFFF⟩,
   ⟨0x04, 0x10000000, 0xFC0FFFFF⟩, ⟨0x05, 0x14000000, 0xFFFFFFFF⟩] ++
  [⟨0x08, 0x20000000, 0xFC01F9FF⟩, ⟨0x09, 0x24000000, 0xFC01F9FF⟩, ⟨0x0A, 0x28000000, 0xFC003FFF⟩,
   ⟨0x0B, 0x2C000000, 0xFC0007FF⟩] ++
  [⟨0x10, 0x40000000, 0xFC71F9FF⟩, ⟨0x11, 0x44000000, 0xFC71F9FF⟩, ⟨0x12, 0x48000000, 0xFC01FFFF⟩,
   ⟨0x13, 0x4C000000, 0xFC01FFFF⟩] ++
  [⟨0x18, 0x60000000, 0xFC71F9FF⟩, ⟨0x19, 0x64000000, 0xFC71F9FF⟩, ⟨0x1A, 0x68000000, 0xFC0E3FFF⟩,
   ⟨0x1B, 0x6C000000, 0xFC0E3FFF⟩, ⟨0x1C, 0x70000000, 0xFF81FFFF⟩, ⟨0x1D, 0x74000000, 0xFC71FFFF⟩,
   ⟨0x1E, 0x78000000, 0xFC7E3FFF⟩] ++
  [⟨0x20, 0x80000000, 0xFC71FFFF⟩, ⟨0x21, 0x84000000, 0xFC71FFFF⟩, ⟨0x22, 0x88000000, 0xFC71FFFF⟩,
   ⟨0x23, 0x8C000000, 0xFC7FFFFF⟩, ⟨0x24, 0x90000000, 0xFC7FFFFF⟩] ++
  [⟨0x28, 0xA0000000, 0xFC71FFFF⟩, ⟨0x29, 0xA4000000, 0xFC01FE7F⟩, ⟨0x2A, 0xA8000000, 0xFC71FE7F⟩,
   ⟨0x30, 0xC0000000, 0xFC703FFF⟩, ⟨0x31, 0xC4000000, 0xFC703E7F⟩]

/-! ### The decoder -/

/-- Why a word is ILLEGAL_COMMAND (R67). The block reports one code for all of them; the names are the model's. -/
inductive IllegalWord
  /-- The opcode is reserved (R67 (a)). -/
  | reservedOpcode
  /-- A field the command does not use, or RSV, is non-zero (R67 (b)). -/
  | unusedFieldNonZero
  /-- The command uses CI and `CI = 0b11` (R67 (c)). -/
  | carryInSelect
  /-- The command uses ALG and `ALG = 0b11` (R67 (d)). -/
  | algorithmSelect
  /-- An operand constraint is broken (R67 (e) to (g)). -/
  | illFormed (why : IllFormed)
  /-- `W = 64` and bits 63:32 of the CMD write are non-zero (R67 (h)). -/
  | upperBitsNonZero
deriving DecidableEq, Repr

/-- The carry-in select (R64, R67 (c)). -/
def decodeCarryIn : Fin 4 → Except IllegalWord CarryIn
  | 0 => .ok .zero
  | 1 => .ok .one
  | 2 => .ok .status
  | 3 => .error .carryInSelect

/-- The multiply algorithm select (R65, R67 (d)). -/
def decodeMulAlg : Fin 4 → Except IllegalWord MulAlg
  | 0 => .ok .auto
  | 1 => .ok .schoolbook
  | 2 => .ok .karatsuba
  | 3 => .error .algorithmSelect

/-- The division algorithm select (R66, R67 (d)). -/
def decodeDivAlg : Fin 4 → Except IllegalWord DivAlg
  | 0 => .ok .knuth
  | 1 => .ok .restoring
  | 2 => .ok .align
  | 3 => .error .algorithmSelect

/-- The command that the fields of a row name (R68), its operand constraints not yet checked. -/
def buildInstr (f : Fields) : Except IllegalWord Instr :=
  match f.op.val with
  | 0x01 => .ok (.vset f.d f.a)
  | 0x02 => .ok (.vldw f.d f.a f.b)
  | 0x03 => .ok (.vstw f.d f.a f.b)
  | 0x04 => .ok (.vmov f.d f.a)
  | 0x05 => .ok .clrst
  | 0x08 => (decodeCarryIn f.ci).map (.wadd f.d f.a f.b)
  | 0x09 => (decodeCarryIn f.ci).map (.wsub f.d f.a f.b)
  | 0x0A => .ok (.wmul f.d f.c f.a f.b)
  | 0x0B => .ok (.wdiv f.d f.c f.a f.b f.e)
  | 0x10 => (decodeCarryIn f.ci).map (.vadd f.d f.b)
  | 0x11 => (decodeCarryIn f.ci).map (.vsub f.d f.b)
  | 0x12 => .ok (.vaddo f.d f.a f.b)
  | 0x13 => .ok (.vsubo f.d f.a f.b)
  | 0x18 => (decodeCarryIn f.ci).map (.vshl f.d f.b)
  | 0x19 => (decodeCarryIn f.ci).map (.vshr f.d f.b)
  | 0x1A => .ok (.vflb f.d f.c f.a)
  | 0x1B => .ok (.vftb f.d f.c f.a)
  | 0x1C => .ok (.vgetb f.a f.b)
  | 0x1D => .ok (.vsetb f.d f.b)
  | 0x1E => .ok (.vnorm f.d f.c)
  | 0x20 => .ok (.vand f.d f.b)
  | 0x21 => .ok (.vor f.d f.b)
  | 0x22 => .ok (.vxor f.d f.b)
  | 0x23 => .ok (.vnot f.d)
  | 0x24 => .ok (.vnotm f.d)
  | 0x28 => .ok (.vmulw f.d f.b)
  | 0x29 => (decodeMulAlg f.alg).map (.vmuld f.d f.a f.b)
  | 0x2A => (decodeMulAlg f.alg).map (.vmul f.d f.b)
  | 0x30 => .ok (.vdivw f.d f.b f.c)
  | 0x31 => (decodeDivAlg f.alg).map (.vdiv f.d f.b f.c)
  | _ => .error .reservedOpcode

/-- The operand constraints of a command (R67 (e) to (g)). -/
def checkInstr (i : Instr) : Except IllegalWord Instr :=
  match i.flaw with
  | none => .ok i
  | some why => .error (.illFormed why)

/-- The command with these fields (R67 (a) to (g), R68). -/
def decodeFields (f : Fields) : Except IllegalWord Instr :=
  match usedFields f.op with
  | none => .error .reservedOpcode
  | some used => if f.cleanOutside used then (buildInstr f).bind checkInstr else .error .unusedFieldNonZero

/-- The command a 32-bit command word stands for (R67 (a) to (g), R68). -/
def decode (x : BitVec 32) : Except IllegalWord Instr := decodeFields (Fields.ofNat x.toNat)

/-- The command that a CMD write of the word `x` issues on an instance of this width: the low 32 bits, and with
`W = 64` the rest must be zero (10_state.md R28, 30_encoding.md R67 (h)). -/
def decodeCommand (width : WordWidth) (x : Nat) : Except IllegalWord Instr :=
  if width = .w64 ∧ x / 2 ^ 32 ≠ 0 then .error .upperBitsNonZero else decode (BitVec.ofNat 32 x)

/-- The instruction the decoder reads from an instruction of `nbits` bits `w`, numbered as spec/opcode_table.json
numbers them: one 32-bit word (R71), the bits above `nbits` zero. -/
def decodeTableWord (nbits w : Nat) : Option Instr := (decode (BitVec.ofNat 32 (w % 2 ^ nbits))).toOption

/-! ### The encoder -/

/-- The CI field of a carry-in select (R64). -/
def encodeCarryIn : CarryIn → Fin 4
  | .zero => 0
  | .one => 1
  | .status => 2

/-- The ALG field of a multiply algorithm (R65). -/
def encodeMulAlg : MulAlg → Fin 4
  | .auto => 0
  | .schoolbook => 1
  | .karatsuba => 2

/-- The ALG field of a division algorithm (R66). -/
def encodeDivAlg : DivAlg → Fin 4
  | .knuth => 0
  | .restoring => 1
  | .align => 2

/-- The fields of a command, every field it does not use zero (R63, R68, R69). -/
def encodeFields : Instr → Fields
  | .vset d a => { Fields.blank 0x01 with d := d, a := a }
  | .vldw d a b => { Fields.blank 0x02 with d := d, a := a, b := b }
  | .vstw d a b => { Fields.blank 0x03 with d := d, a := a, b := b }
  | .vmov d a => { Fields.blank 0x04 with d := d, a := a }
  | .clrst => Fields.blank 0x05
  | .wadd d a b ci => { Fields.blank 0x08 with d := d, a := a, b := b, ci := encodeCarryIn ci }
  | .wsub d a b ci => { Fields.blank 0x09 with d := d, a := a, b := b, ci := encodeCarryIn ci }
  | .wmul d c a b => { Fields.blank 0x0A with d := d, c := c, a := a, b := b }
  | .wdiv d c a b e => { Fields.blank 0x0B with d := d, c := c, a := a, b := b, e := e }
  | .vadd d b ci => { Fields.blank 0x10 with d := d, b := b, ci := encodeCarryIn ci }
  | .vsub d b ci => { Fields.blank 0x11 with d := d, b := b, ci := encodeCarryIn ci }
  | .vaddo d a b => { Fields.blank 0x12 with d := d, a := a, b := b }
  | .vsubo d a b => { Fields.blank 0x13 with d := d, a := a, b := b }
  | .vshl d b ci => { Fields.blank 0x18 with d := d, b := b, ci := encodeCarryIn ci }
  | .vshr d b ci => { Fields.blank 0x19 with d := d, b := b, ci := encodeCarryIn ci }
  | .vflb d c a => { Fields.blank 0x1A with d := d, c := c, a := a }
  | .vftb d c a => { Fields.blank 0x1B with d := d, c := c, a := a }
  | .vgetb a b => { Fields.blank 0x1C with a := a, b := b }
  | .vsetb d b => { Fields.blank 0x1D with d := d, b := b }
  | .vnorm d c => { Fields.blank 0x1E with d := d, c := c }
  | .vand d b => { Fields.blank 0x20 with d := d, b := b }
  | .vor d b => { Fields.blank 0x21 with d := d, b := b }
  | .vxor d b => { Fields.blank 0x22 with d := d, b := b }
  | .vnot d => { Fields.blank 0x23 with d := d }
  | .vnotm d => { Fields.blank 0x24 with d := d }
  | .vmulw d b => { Fields.blank 0x28 with d := d, b := b }
  | .vmuld d a b alg => { Fields.blank 0x29 with d := d, a := a, b := b, alg := encodeMulAlg alg }
  | .vmul d b alg => { Fields.blank 0x2A with d := d, b := b, alg := encodeMulAlg alg }
  | .vdivw d b c => { Fields.blank 0x30 with d := d, b := b, c := c }
  | .vdiv d b c alg => { Fields.blank 0x31 with d := d, b := b, c := c, alg := encodeDivAlg alg }

/-- The command word of a command (R69). -/
def encode (i : Instr) : BitVec 32 := BitVec.ofNat 32 (encodeFields i).toNat

end Sys2Proof
end

