-- ==== Sys2Proof/Machine/State.lean ====
section
/-! DEFINITION. The state of the block (10_state.md), the reasons a step can stop, and the state after reset.

10_state.md: "The complete list of state is: V0–V7, S0–S7, STATUS, CONFIG, the CMD register and the in-flight
command". CMD holds no readable value (R28); CONFIG is computed from the instance's parameters, which stand here. -/

namespace Sys2Proof.Machine

/-- Eight like things numbered 0 to 7: a register file. -/
structure Regs8 (α : Type) where
  r0 : α
  r1 : α
  r2 : α
  r3 : α
  r4 : α
  r5 : α
  r6 : α
  r7 : α
deriving DecidableEq, Repr

/-- The ERR codes 0 to 5; codes 6 and 7 are never produced (10_state.md R26). -/
inductive ErrCode
  /-- 0 NONE: the command completed with no condition. -/
  | none
  /-- 1 OVERFLOW: a command of the arithmetic class completed with ST = 1; not a fault. -/
  | overflow
  /-- 2 DIV_BY_ZERO: the divisor is zero. -/
  | divByZero
  /-- 3 IMPROPER_ARGUMENT: a word index `≥ N` or a bit index `≥ M`. -/
  | improperArgument
  /-- 4 ILLEGAL_COMMAND: a reserved or malformed command word. -/
  | illegalCommand
  /-- 5 DIVIDE_FAULT: WDIV with `S[A] ≥ S[E] > 0`. -/
  | divideFault
deriving DecidableEq, Repr

/-- The fields of STATUS but BUSY, which is 1 exactly while a command is in flight (10_state.md R25, R31). -/
structure Status where
  /-- Bit 0: the status bit of the last completed command. -/
  st : Bool
  /-- Bit 1: the "zero" sentinel of VFLB, VFTB and VNORM. -/
  zf : Bool
  /-- Bits 4:2: the cause code of the last completed command. -/
  err : ErrCode
  /-- Bit 5: some command completed with `ERR ≠ 0` since the last reset or CLRST. -/
  sticky : Bool
  /-- Bit 6: the host wrote CMD or an S register while `BUSY = 1` since the last reset or CLRST. -/
  ovr : Bool
deriving DecidableEq, Repr

/-- A host transaction; there are three kinds and nothing else reaches the block (20_memory.md R44). -/
inductive PortOp
  /-- Read the port register at an address. -/
  | read (addr : Nat)
  /-- Write a value to the port register at an address. -/
  | write (addr : Nat) (value : Nat)
  /-- Assert reset (70_reset_and_hazards.md R170). -/
  | reset
deriving DecidableEq, Repr

/-- What happens next: a host transaction, or the engine completes the command in flight.
The block fixes no latency (R173, R176), so when a completion falls among the host's transactions is part of the input
(log entry 8). -/
inductive Turn
  | host (op : PortOp)
  | engine
deriving DecidableEq, Repr

/-- A value the port returned to the host. -/
structure PortRead where
  addr : Nat
  value : Nat
deriving DecidableEq, Repr

/-- The state of one instance and of the port's two sides. -/
structure State where
  /-- The instance's build parameters, reported in CONFIG and constant for its life (10_state.md R27, R32). -/
  params : Params
  /-- V0 to V7 (R20). -/
  vregs : Regs8 Big
  /-- S0 to S7 (R21). -/
  sregs : Regs8 Word
  /-- Which words of each V register have been written since reset: entry `i` is word `i` (R22). -/
  vmarks : Regs8 (List Bool)
  /-- Which S registers have been written since reset (R22). -/
  smarks : Regs8 Bool
  /-- STATUS but BUSY (R25). -/
  status : Status
  /-- The in-flight command: the `W`-bit value of the accepted CMD write, `none` when idle (R28, R31). -/
  inFlight : Option Nat
  /-- The model's own: what happens next, in order (log entry 8). -/
  turns : List Turn
  /-- The model's own: what the port has returned to the host, newest first (log entry 9). -/
  reads : List PortRead
  /-- The model's own: the number of the current draw of free values, which each issue and each reset advances (log entry
  6). -/
  draws : Nat
deriving DecidableEq, Repr

/-- Why the machine stops with a fault: never. The block reports every condition in STATUS and takes the next command
(60_exceptions.md R150, R154), so this type has no constructor and no step can answer with a fault. -/
inductive Fault
deriving DecidableEq, Repr

/-- Why a step is refused. -/
inductive Refusal
  /-- Raised by `exec` for a command that has no meaning yet, named by its mnemonic; safe. No command is left so. -/
  | notModelled (mnemonic : String)
deriving DecidableEq, Repr

/-- A register file that holds the same everywhere. -/
def Regs8.const {α : Type} (x : α) : Regs8 α := ⟨x, x, x, x, x, x, x, x⟩

/-- STATUS after reset: every field 0 (10_state.md R30). -/
def Status.reset : Status := { st := false, zf := false, err := .none, sticky := false, ovr := false }

/-- An instance right after reset (10_state.md R30): STATUS 0, no command in flight, no register set.
DESIGN CHOICE, unsafe: the spec states no value for V0 to V7 (log entry 2) and S0 to S7 (log entry 3); they hold 0 here. -/
def State.resetOf (p : Params) : State :=
  { params := p
    vregs := Regs8.const 0
    sregs := Regs8.const 0
    vmarks := Regs8.const (List.replicate p.words false)
    smarks := Regs8.const false
    status := Status.reset
    inFlight := none
    turns := []
    reads := []
    draws := 0 }

/-- The machine right after reset: the instance `Config.resetParams` (DESIGN CHOICE, log entry 1). -/
def State.reset : State := State.resetOf Config.resetParams

end Sys2Proof.Machine
end

