-- ==== Sys2Proof/Machine/Flags.lean ====
section
/-! DEFINITION. STATUS: the bits commands compute, what a completion and a fault write, and the word the port reads. -/

namespace Sys2Proof.Machine

/-! ### The bits commands compute -/

/-- The carry out of a `k`-bit unsigned sum, product included: the exact result needs more than `k` bits
(41_wordops.md R90, 42_vector_arith.md R100, 44_multiply.md R130). -/
def carryOut (k exact : Nat) : Bool := decide (2 ^ k ≤ exact)

/-- The borrow out of a subtraction: the exact difference is negative (41_wordops.md R91, 42_vector_arith.md R101). -/
def borrowOut (exact : Int) : Bool := decide (exact < 0)

/-! ### What a command writes to STATUS -/

/-- Whether a completion with ST = 1 is reported as OVERFLOW (the "arithmetic class" column of 10_state.md R29). -/
inductive CommandClass
  | arithmetic
  | plain
deriving DecidableEq, Repr

/-- ERR of a command that completes without a fault (R29). -/
def completionErr : CommandClass → Bool → ErrCode
  | .arithmetic, true => .overflow
  | .arithmetic, false => .none
  | .plain, _ => .none

/-- STATUS after a command that completes without a fault (R29). -/
def Status.completed (old : Status) (cls : CommandClass) (st zf : Bool) : Status :=
  { st := st, zf := zf, err := completionErr cls st
    sticky := old.sticky || decide (completionErr cls st ≠ .none), ovr := old.ovr }

/-- STATUS after a fault (60_exceptions.md R152). -/
def Status.faulted (old : Status) (code : ErrCode) : Status :=
  { st := true, zf := false, err := code, sticky := true, ovr := old.ovr }

/-- STATUS after CLRST (40_transfer.md R84). -/
def Status.cleared : Status := { st := false, zf := false, err := .none, sticky := false, ovr := false }

/-- Whether a code is one of a fault (10_state.md R26). -/
def ErrCode.isFault : ErrCode → Bool
  | .none => false
  | .overflow => false
  | .divByZero => true
  | .improperArgument => true
  | .illegalCommand => true
  | .divideFault => true

/-! ### STATUS and CONFIG as the port reads them -/

/-- The number of an ERR code (10_state.md R26). -/
def ErrCode.code : ErrCode → Nat
  | .none => 0
  | .overflow => 1
  | .divByZero => 2
  | .improperArgument => 3
  | .illegalCommand => 4
  | .divideFault => 5

/-- STATUS as a word (10_state.md R25): ST bit 0, ZF bit 1, ERR bits 4:2, STICKY bit 5, OVR bit 6, BUSY bit 7. -/
def Status.word (x : Status) (busy : Bool) : Nat :=
  x.st.toNat + x.zf.toNat * 2 + x.err.code * 4 + x.sticky.toNat * 32 + x.ovr.toNat * 64 + busy.toNat * 128

/-- STATUS as read while `BUSY = 1`: ST, ZF, ERR and STICKY (bits 5:0) are the free value `free`, BUSY and OVR are exact
(10_state.md R25, 70_reset_and_hazards.md R175). -/
def Status.busyWord (x : Status) (free : Nat) : Nat := free % 64 + x.ovr.toNat * 64 + 128

/-- CONFIG as a word (10_state.md R27): WSEL bit 0, KT bits 3:1, BACKEND bits 7:4 (0, portable), NWORDS bits 31:16. -/
def configWord (p : Params) : Nat :=
  (match p.width with | .w32 => 0 | .w64 => 1) + p.KT * 2 + 0 * 16 + p.N * 65536

end Sys2Proof.Machine
end

