-- ==== Sys2Proof/Machine/Ops.lean ====
section
/-! DEFINITION. The named operations on registers and the two ways a command ends: completion and fault.

The block has no memory (20_memory.md R40): the V word space is the V registers seen word by word, and every access to it
goes through `State.word` and `State.setWord`. -/

namespace Sys2Proof.Machine

/-! ### Register files -/

/-- Register `i` of a file. -/
def Regs8.get {α : Type} (x : Regs8 α) : Fin 8 → α
  | 0 => x.r0
  | 1 => x.r1
  | 2 => x.r2
  | 3 => x.r3
  | 4 => x.r4
  | 5 => x.r5
  | 6 => x.r6
  | 7 => x.r7

/-- The file with register `i` written. -/
def Regs8.set {α : Type} (x : Regs8 α) (i : Fin 8) (y : α) : Regs8 α :=
  match i with
  | 0 => { x with r0 := y }
  | 1 => { x with r1 := y }
  | 2 => { x with r2 := y }
  | 3 => { x with r3 := y }
  | 4 => { x with r4 := y }
  | 5 => { x with r5 := y }
  | 6 => { x with r6 := y }
  | 7 => { x with r7 := y }

/-- The file whose register `i` holds `f i`. -/
def Regs8.tabulate {α : Type} (f : Fin 8 → α) : Regs8 α := ⟨f 0, f 1, f 2, f 3, f 4, f 5, f 6, f 7⟩

/-! ### Words of a multi-word value (00_scope.md R10, 20_memory.md R41) -/

/-- Word `i` of a value: `v[W·i+W−1 : W·i]` (R10). -/
def wordAt (W : Nat) (v : Nat) (i : Nat) : Nat := v / 2 ^ (W * i) % 2 ^ W

/-- The value with word `i` replaced by `x` and every other word kept. -/
def insertWord (W : Nat) (v : Nat) (i : Nat) (x : Nat) : Nat :=
  v / 2 ^ (W * (i + 1)) * 2 ^ (W * (i + 1)) + x % 2 ^ W * 2 ^ (W * i) + v % 2 ^ (W * i)

/-- A mathematical integer modulo `2^k`, as the subtractions write it (41_wordops.md R91, 42_vector_arith.md R101). -/
def wrap (k : Nat) (t : Int) : Nat := (t % 2 ^ k).toNat

namespace State

/-! ### Reading -/

/-- `W` of this instance. -/
def W (s : State) : Nat := s.params.W

/-- `N` of this instance. -/
def N (s : State) : Nat := s.params.N

/-- `M` of this instance. -/
def M (s : State) : Nat := s.params.M

/-- `V[r]` (00_scope.md R11). -/
def V (s : State) (r : VReg) : Nat := s.vregs.get r

/-- `S[r]` (R11). -/
def S (s : State) (r : SReg) : Nat := s.sregs.get r

/-- `MemRead((r, i), W)`: word `i` of `Vr` (R11, 20_memory.md R40). -/
def word (s : State) (r : VReg) (i : Nat) : Nat := wordAt s.W (s.V r) i

/-- Whether word `i` of `Vr` has been written since reset (10_state.md R22). -/
def wordIsSet (s : State) (r : VReg) (i : Nat) : Bool := (s.vmarks.get r).getD i false

/-- Whether `Sr` has been written since reset (10_state.md R22). -/
def sIsSet (s : State) (r : SReg) : Bool := s.smarks.get r

/-- Every word of `Vr` has been written since reset (10_state.md R22). -/
def vIsSet (s : State) (r : VReg) : Bool := (List.range s.N).all fun i => s.wordIsSet r i

/-- Every one of these operands has been written since reset: what a command computes from them is then fixed, and its
destinations are set (10_state.md R22, 70_reset_and_hazards.md R172). -/
def allSet (s : State) (vs : List VReg) (ss : List SReg) : Bool := vs.all s.vIsSet && ss.all s.sIsSet

/-- STATUS.BUSY: a command is in flight (10_state.md R25, R31). -/
def busy (s : State) : Bool := s.inFlight.isSome

/-! ### Writing

`known` says whether the value written is a fixed one: a host's, or one computed from set operands. A destination of any
other value is not set by the write (70_reset_and_hazards.md R172; log entry 23). -/

/-- `V[r] <- x`: all words of the register, which are set by it if `x` is known (R11, R22, R172). -/
def setV (s : State) (r : VReg) (x : Nat) (known : Bool) : State :=
  { s with vregs := s.vregs.set r (x % 2 ^ s.M), vmarks := s.vmarks.set r (List.replicate s.N known) }

/-- `S[r] <- x`, which is set by it if `x` is known (R11, R22, R172). -/
def setS (s : State) (r : SReg) (x : Nat) (known : Bool) : State :=
  { s with sregs := s.sregs.set r (x % 2 ^ s.W), smarks := s.smarks.set r known }

/-- `MemWrite((r, i), W, x)`: word `i` of `Vr`, every other word kept; it sets that word only, if `x` is known (R11, R22,
R172). -/
def setWord (s : State) (r : VReg) (i : Nat) (x : Nat) (known : Bool) : State :=
  { s with vregs := s.vregs.set r (insertWord s.W (s.V r) i x % 2 ^ s.M)
           vmarks := s.vmarks.set r ((s.vmarks.get r).set i known) }

/-! ### How a command ends -/

/-- A command completes without a fault: STATUS is written and `BUSY <- 0` (10_state.md R29). -/
def complete (s : State) (cls : CommandClass) (st zf : Bool) : State :=
  { s with status := s.status.completed cls st zf, inFlight := none }

/-- A command ends as a fault: no V or S register is written, STATUS is, and `BUSY <- 0` (60_exceptions.md R152).
This is all the block has in place of exception entry: no trap is taken and nothing is saved (R150), so there is no
return from it either (R156). -/
def takeFault (s : State) (code : ErrCode) : State :=
  { s with status := s.status.faulted code, inFlight := none }

/-- CLRST: every field of STATUS is cleared, and `BUSY <- 0` (40_transfer.md R84). -/
def clearStatus (s : State) : State := { s with status := Status.cleared, inFlight := none }

end State

/-- A meaning's answer when the command completes or faults: always a next state (60_exceptions.md R150). -/
abbrev Result := Host.Outcome State Fault Refusal

end Sys2Proof.Machine
end

