-- ==== Sys2Proof/Machine/Operands.lean ====
section
/-! DEFINITION. The operand forms that are not a register: the carry-in, and the bits of a value that the scans and the
single-bit commands name.

Every one-word operand is an S register read whole, with no extension, scaling or shift (30_encoding.md R62), so the
register operands need nothing beyond `State.V` and `State.S`. -/

namespace Sys2Proof.Machine

/-- `cin`: the carry-in bit the CI field selects (30_encoding.md R64). -/
def State.carryIn (s : State) : CarryIn → Bool
  | .zero => false
  | .one => true
  | .status => s.status.st

/-- A word index operand is out of range (20_memory.md R46, 60_exceptions.md R151). -/
def State.wordIndexBad (s : State) (b : SReg) : Bool := decide (s.N ≤ s.S b)

/-- A bit index operand is out of range (60_exceptions.md R151). -/
def State.bitIndexBad (s : State) (b : SReg) : Bool := decide (s.M ≤ s.S b)

/-- The leading bit: the largest `j` with `v[j] = 1`, for `v ≠ 0` (00_scope.md R14). -/
def leadingBit (v : Nat) : Nat := Nat.log2 v

/-- The lowest bit: the smallest `j < M` with `v[j] = 1`, for `v ≠ 0` (00_scope.md R14). -/
def lowestBit (M : Nat) (v : Nat) : Nat := ((List.range M).find? fun j => v.testBit j).getD 0

end Sys2Proof.Machine
end

