-- ==== Sys2Proof/Machine/Divide.lean ====
section
/-! DEFINITION. The divider commands (45_divide.md). Division is unsigned and truncating; ALG changes no result (R143), and
the algorithms themselves are in `Sys2Proof.Machine.Reference`. -/

namespace Sys2Proof.Machine

/-- `VDIVW vD, sB, sC` (R140): quotient in place, remainder word to `S[C]`. -/
def execVdivw (d : VReg) (b c : SReg) (s : State) : Result :=
  if s.S b = 0 then .next (s.takeFault .divByZero)
  else
    let known := s.allSet [d] [b]
    .next (((s.setV d (s.V d / s.S b) known).setS c (s.V d % s.S b) known).complete .plain false false)

/-- `VDIV[.alg] vD, vB, vC` (R142): quotient in place, remainder to `V[C]`; C = D is ILLEGAL_COMMAND
(30_encoding.md R67 (g)), checked before the divisor (60_exceptions.md R153). -/
def execVdiv (d b c : VReg) (_alg : DivAlg) (s : State) : Result :=
  if d = c then .next (s.takeFault .illegalCommand)
  else if s.V b = 0 then .next (s.takeFault .divByZero)
  else
    let known := s.allSet [d, b] []
    .next (((s.setV d (s.V d / s.V b) known).setV c (s.V d % s.V b) known).complete .plain false false)

end Sys2Proof.Machine
end

