-- ==== Sys2Proof/Machine/Logic.lean ====
section
/-! DEFINITION. The bitwise logic (43_shift_scan_logic.md section 5). -/

namespace Sys2Proof.Machine

/-- The result of a logic command: `V[D]` written, ST = 0, ZF = 0 (R120 to R124). -/
def State.finishLogic (s : State) (d : VReg) (x : Nat) (known : Bool) : State :=
  (s.setV d x known).complete .plain false false

/-- `VAND vD, vB` (R120). -/
def execVand (d b : VReg) (s : State) : Result := .next (s.finishLogic d (s.V d &&& s.V b) (s.allSet [d, b] []))

/-- `VOR vD, vB` (R121). -/
def execVor (d b : VReg) (s : State) : Result := .next (s.finishLogic d (s.V d ||| s.V b) (s.allSet [d, b] []))

/-- `VXOR vD, vB` (R122). -/
def execVxor (d b : VReg) (s : State) : Result := .next (s.finishLogic d (s.V d ^^^ s.V b) (s.allSet [d, b] []))

/-- `VNOT vD` (R123): every one of the M bits complemented. -/
def execVnot (d : VReg) (s : State) : Result := .next (s.finishLogic d (2 ^ s.M - 1 - s.V d) (s.allSet [d] []))

/-- The minimal complement: the bits at or below the leading bit complemented, 0 for 0 (R124). -/
def minimalComplement (v : Nat) : Nat := if v = 0 then 0 else v ^^^ (2 ^ (leadingBit v + 1) - 1)

/-- `VNOTM vD` (R124). -/
def execVnotm (d : VReg) (s : State) : Result := .next (s.finishLogic d (minimalComplement (s.V d)) (s.allSet [d] []))

end Sys2Proof.Machine
end

