-- ==== Sys2Proof/Machine/Multiply.lean ====
section
/-! DEFINITION. The multiplier commands (44_multiply.md). Every product is the exact integer product (R131); ALG and KT
choose how the block computes it and change no result (R134), so the meanings take the product, and the algorithms
themselves are in `Sys2Proof.Machine.Reference`. -/

namespace Sys2Proof.Machine

/-- A product narrowed to `V[D]`: ST = 1 iff its part above bit M−1 is non-zero (R130, R133). -/
def State.finishNarrow (s : State) (d : VReg) (p : Nat) (known : Bool) : State :=
  (s.setV d p known).complete .arithmetic (carryOut s.M p) false

/-- `VMULW vD, sB` (R130). -/
def execVmulw (d : VReg) (b : SReg) (s : State) : Result := .next (s.finishNarrow d (s.V d * s.S b) (s.allSet [d] [b]))

/-- `VMULD[.alg] vD, vA, vB` (R132): the low half to `V[D]`, the high half to `V[D+1]`; D odd is ILLEGAL_COMMAND
(30_encoding.md R67 (e)). -/
def execVmuld (d a b : VReg) (_alg : MulAlg) (s : State) : Result :=
  if d.val % 2 = 1 then .next (s.takeFault .illegalCommand)
  else
    let p := s.V a * s.V b
    let known := s.allSet [a, b] []
    .next (((s.setV d p known).setV (d + 1) (p / 2 ^ s.M) known).complete .plain false false)

/-- `VMUL[.alg] vD, vB` (R133). -/
def execVmul (d b : VReg) (_alg : MulAlg) (s : State) : Result := .next (s.finishNarrow d (s.V d * s.V b) (s.allSet [d, b] []))

end Sys2Proof.Machine
end

