-- ==== Sys2Proof/Machine/Scan.lean ====
section
/-! DEFINITION. The bit scans, the single-bit commands and the normalisation (43_shift_scan_logic.md sections 2 to 4). -/

namespace Sys2Proof.Machine

/-- The two results of a scan that found bit `j`: the word index to `S[D]`, the bit index in that word to `S[C]` (R115). -/
def State.finishScan (s : State) (d c : SReg) (j : Nat) (known : Bool) : State :=
  ((s.setS d (j / s.W) known).setS c (j % s.W) known).complete .plain false false

/-- `VFLB sD, sC, vA` (R115): on a zero operand only STATUS is written, with ZF = 1. -/
def execVflb (d c : SReg) (a : VReg) (s : State) : Result :=
  if d = c then .next (s.takeFault .illegalCommand)
  else if s.V a = 0 then .next (s.complete .plain false true)
  else .next (s.finishScan d c (leadingBit (s.V a)) (s.allSet [a] []))

/-- `VFTB sD, sC, vA` (R116). -/
def execVftb (d c : SReg) (a : VReg) (s : State) : Result :=
  if d = c then .next (s.takeFault .illegalCommand)
  else if s.V a = 0 then .next (s.complete .plain false true)
  else .next (s.finishScan d c (lowestBit s.M (s.V a)) (s.allSet [a] []))

/-- `VGETB vA, sB` (R117): ST is the bit read; no register is written. -/
def execVgetb (a : VReg) (b : SReg) (s : State) : Result :=
  if s.bitIndexBad b then .next (s.takeFault .improperArgument)
  else .next (s.complete .plain ((s.V a).testBit (s.S b)) false)

/-- `VSETB vD, sB` (R118): ST is the bit's previous value. -/
def execVsetb (d : VReg) (b : SReg) (s : State) : Result :=
  if s.bitIndexBad b then .next (s.takeFault .improperArgument)
  else .next ((s.setV d (s.V d ||| 2 ^ s.S b) (s.allSet [d] [b])).complete .plain ((s.V d).testBit (s.S b)) false)

/-- `VNORM vD, sC` (R119): a zero operand stays 0 with shift amount 0 and ZF = 1. -/
def execVnorm (d : VReg) (c : SReg) (s : State) : Result :=
  if s.V d = 0 then .next ((s.setS c 0 (s.allSet [d] [])).complete .plain false true)
  else
    let amount := s.M - 1 - leadingBit (s.V d)
    let known := s.allSet [d] []
    .next (((s.setV d (s.V d <<< amount) known).setS c amount known).complete .plain false false)

end Sys2Proof.Machine
end

