-- ==== Sys2Proof/Machine/Shift.lean ====
section
/-! DEFINITION. The shifts with a constant fill (43_shift_scan_logic.md section 1), in the closed forms of R111 and R112;
the naive repetition of R110, which defines them, is in `Sys2Proof.Machine.Reference`. -/

namespace Sys2Proof.Machine

/-- `ShiftLeftC(v, k, c)`: result and the last bit shifted out (R111). -/
def shiftLeftC (M : Nat) (v : Nat) (k : Nat) (c : Bool) : Nat × Bool :=
  if k = 0 then (v, false)
  else if k ≤ M then ((v <<< k) % 2 ^ M ||| c.toNat * (2 ^ k - 1), v.testBit (M - k))
  else (c.toNat * (2 ^ M - 1), c)

/-- `ShiftRightC(v, k, c)`: result and the last bit shifted out (R112). -/
def shiftRightC (M : Nat) (v : Nat) (k : Nat) (c : Bool) : Nat × Bool :=
  if k = 0 then (v, false)
  else if k ≤ M then ((v >>> k) ||| c.toNat * (2 ^ k - 1) * 2 ^ (M - k), v.testBit (k - 1))
  else (c.toNat * (2 ^ M - 1), c)

/-- `VSHL[.ci] vD, sB` (R111): ST is the last bit shifted out, and never an error. -/
def execVshl (d : VReg) (b : SReg) (ci : CarryIn) (s : State) : Result :=
  let r := shiftLeftC s.M (s.V d) (s.S b) (s.carryIn ci)
  .next ((s.setV d r.1 (s.allSet [d] [b])).complete .plain r.2 false)

/-- `VSHR[.ci] vD, sB` (R112). -/
def execVshr (d : VReg) (b : SReg) (ci : CarryIn) (s : State) : Result :=
  let r := shiftRightC s.M (s.V d) (s.S b) (s.carryIn ci)
  .next ((s.setV d r.1 (s.allSet [d] [b])).complete .plain r.2 false)

end Sys2Proof.Machine
end

