-- ==== Sys2Proof/Machine/Transfer.lean ====
section
/-! DEFINITION. The transfer and status commands (40_transfer.md). -/

namespace Sys2Proof.Machine

/-- `VSET vD, sA` (R80): `V[D] <- zext_M(S[A])`. -/
def execVset (d : VReg) (a : SReg) (s : State) : Result :=
  .next ((s.setV d (s.S a) (s.allSet [] [a])).complete .plain false false)

/-- `VLDW vD, sA, sB` (R81): word `S[B]` of `V[D]` becomes `S[A]`. -/
def execVldw (d : VReg) (a b : SReg) (s : State) : Result :=
  if s.wordIndexBad b then .next (s.takeFault .improperArgument)
  else .next ((s.setWord d (s.S b) (s.S a) (s.allSet [] [a, b])).complete .plain false false)

/-- `VSTW sD, vA, sB` (R82): `S[D]` becomes word `S[B]` of `V[A]`. -/
def execVstw (d : SReg) (a : VReg) (b : SReg) (s : State) : Result :=
  if s.wordIndexBad b then .next (s.takeFault .improperArgument)
  else .next ((s.setS d (s.word a (s.S b)) (s.allSet [a] [b])).complete .plain false false)

/-- `VMOV vD, vA` (R83): `V[D] <- V[A]`. -/
def execVmov (d a : VReg) (s : State) : Result :=
  .next ((s.setV d (s.V a) (s.allSet [a] [])).complete .plain false false)

/-- `CLRST` (R84): ST, ZF, ERR, STICKY and OVR become 0. -/
def execClrst (s : State) : Result := .next s.clearStatus

end Sys2Proof.Machine
end

