-- ==== Sys2Proof/Machine/VectorArith.lean ====
section
/-! DEFINITION. Multi-word add and subtract (42_vector_arith.md), as the rules state them on integers; the word-serial
form of R104 is in `Sys2Proof.Machine.Reference`. -/

namespace Sys2Proof.Machine

/-- The sum written to `V[D]` with its carry (R100, R102). -/
def State.finishAdd (s : State) (d : VReg) (t : Nat) (known : Bool) : State :=
  (s.setV d t known).complete .arithmetic (carryOut s.M t) false

/-- The difference written to `V[D]` with its borrow (R101, R103). -/
def State.finishSub (s : State) (d : VReg) (t : Int) (known : Bool) : State :=
  (s.setV d (wrap s.M t) known).complete .arithmetic (borrowOut t) false

/-- `VADD[.ci] vD, vB` (R100). -/
def execVadd (d b : VReg) (ci : CarryIn) (s : State) : Result :=
  .next (s.finishAdd d (s.V d + s.V b + (s.carryIn ci).toNat) (s.allSet [d, b] []))

/-- `VSUB[.ci] vD, vB` (R101). -/
def execVsub (d b : VReg) (ci : CarryIn) (s : State) : Result :=
  .next (s.finishSub d ((s.V d : Int) - s.V b - (s.carryIn ci).toNat) (s.allSet [d, b] []))

/-- `VADDO vD, sA, sB` (R102). -/
def execVaddo (d : VReg) (a b : SReg) (s : State) : Result :=
  if s.wordIndexBad b then .next (s.takeFault .improperArgument)
  else .next (s.finishAdd d (s.V d + s.S a * 2 ^ (s.W * s.S b)) (s.allSet [d] [a, b]))

/-- `VSUBO vD, sA, sB` (R103). -/
def execVsubo (d : VReg) (a b : SReg) (s : State) : Result :=
  if s.wordIndexBad b then .next (s.takeFault .improperArgument)
  else .next (s.finishSub d ((s.V d : Int) - (s.S a * 2 ^ (s.W * s.S b) : Nat)) (s.allSet [d] [a, b]))

end Sys2Proof.Machine
end

