-- ==== Sys2Proof/Machine/WordOps.lean ====
section
/-! DEFINITION. The WordOps (41_wordops.md R94) and the commands on S registers that expose them. -/

namespace Sys2Proof.Machine

/-! ### The word ALU (R94) -/

/-- `AddWords(a, b, c)`: sum and carry. -/
def addWords (W : Nat) (a b : Nat) (c : Bool) : Nat × Bool :=
  ((a + b + c.toNat) % 2 ^ W, carryOut W (a + b + c.toNat))

/-- `SubWords(a, b, c)`: difference and borrow. -/
def subWords (W : Nat) (a b : Nat) (c : Bool) : Nat × Bool :=
  (wrap W ((a : Int) - b - c.toNat), borrowOut ((a : Int) - b - c.toNat))

/-- `MulWords(a, b)`: high and low word of the exact product. -/
def mulWords (W : Nat) (a b : Nat) : Nat × Nat := (a * b / 2 ^ W, a * b % 2 ^ W)

/-- `DivDoubleWord(hi, lo, d)`: quotient and remainder, for `hi < d`. -/
def divDoubleWord (W : Nat) (hi lo d : Nat) : Nat × Nat := ((hi * 2 ^ W + lo) / d, (hi * 2 ^ W + lo) % d)

/-! ### The commands -/

/-- `WADD[.ci] sD, sA, sB` (R90). -/
def execWadd (d a b : SReg) (ci : CarryIn) (s : State) : Result :=
  let r := addWords s.W (s.S a) (s.S b) (s.carryIn ci)
  .next ((s.setS d r.1 (s.allSet [] [a, b])).complete .arithmetic r.2 false)

/-- `WSUB[.ci] sD, sA, sB` (R91). -/
def execWsub (d a b : SReg) (ci : CarryIn) (s : State) : Result :=
  let r := subWords s.W (s.S a) (s.S b) (s.carryIn ci)
  .next ((s.setS d r.1 (s.allSet [] [a, b])).complete .arithmetic r.2 false)

/-- `WMUL sD, sC, sA, sB` (R92); D = C is ILLEGAL_COMMAND (30_encoding.md R67 (f)). -/
def execWmul (d c a b : SReg) (s : State) : Result :=
  if d = c then .next (s.takeFault .illegalCommand)
  else
    let p := mulWords s.W (s.S a) (s.S b)
    let known := s.allSet [] [a, b]
    .next (((s.setS d p.1 known).setS c p.2 known).complete .plain false false)

/-- `WDIV sD, sC, sA, sB, sE` (R93); the checks stand in the order of 30_encoding.md R70. -/
def execWdiv (d c a b e : SReg) (s : State) : Result :=
  if d = c then .next (s.takeFault .illegalCommand)
  else if s.S e = 0 then .next (s.takeFault .divByZero)
  else if s.S e ≤ s.S a then .next (s.takeFault .divideFault)
  else
    let q := divDoubleWord s.W (s.S a) (s.S b) (s.S e)
    let known := s.allSet [] [a, b, e]
    .next (((s.setS d q.1 known).setS c q.2 known).complete .plain false false)

end Sys2Proof.Machine
end

