-- ==== Sys2Proof/Machine/Dispatch.lean ====
section
/-! DEFINITION. One arm per command: each calls its meaning. -/

namespace Sys2Proof.Machine

/-- The effect of a command, from its operands to its completion or fault (30_encoding.md R70). -/
def exec (i : Instr) (s : State) : Host.Outcome State Fault Refusal :=
  match i with
  | .vset d a => Sys2Proof.Machine.execVset d a s
  | .vldw d a b => Sys2Proof.Machine.execVldw d a b s
  | .vstw d a b => Sys2Proof.Machine.execVstw d a b s
  | .vmov d a => Sys2Proof.Machine.execVmov d a s
  | .clrst => Sys2Proof.Machine.execClrst s
  | .wadd d a b ci => Sys2Proof.Machine.execWadd d a b ci s
  | .wsub d a b ci => Sys2Proof.Machine.execWsub d a b ci s
  | .wmul d c a b => Sys2Proof.Machine.execWmul d c a b s
  | .wdiv d c a b e => Sys2Proof.Machine.execWdiv d c a b e s
  | .vadd d b ci => Sys2Proof.Machine.execVadd d b ci s
  | .vsub d b ci => Sys2Proof.Machine.execVsub d b ci s
  | .vaddo d a b => Sys2Proof.Machine.execVaddo d a b s
  | .vsubo d a b => Sys2Proof.Machine.execVsubo d a b s
  | .vshl d b ci => Sys2Proof.Machine.execVshl d b ci s
  | .vshr d b ci => Sys2Proof.Machine.execVshr d b ci s
  | .vflb d c a => Sys2Proof.Machine.execVflb d c a s
  | .vftb d c a => Sys2Proof.Machine.execVftb d c a s
  | .vgetb a b => Sys2Proof.Machine.execVgetb a b s
  | .vsetb d b => Sys2Proof.Machine.execVsetb d b s
  | .vnorm d c => Sys2Proof.Machine.execVnorm d c s
  | .vand d b => Sys2Proof.Machine.execVand d b s
  | .vor d b => Sys2Proof.Machine.execVor d b s
  | .vxor d b => Sys2Proof.Machine.execVxor d b s
  | .vnot d => Sys2Proof.Machine.execVnot d s
  | .vnotm d => Sys2Proof.Machine.execVnotm d s
  | .vmulw d b => Sys2Proof.Machine.execVmulw d b s
  | .vmuld d a b alg => Sys2Proof.Machine.execVmuld d a b alg s
  | .vmul d b alg => Sys2Proof.Machine.execVmul d b alg s
  | .vdivw d b c => Sys2Proof.Machine.execVdivw d b c s
  | .vdiv d b c alg => Sys2Proof.Machine.execVdiv d b c alg s

end Sys2Proof.Machine
end

