-- ==== Sys2Proof/Machine/Port.lean ====
section
/-! DEFINITION. The host port (20_memory.md R44, 10_state.md R28) and the engine's turn (30_encoding.md R70). -/

namespace Sys2Proof.Machine

/-! ### The port's registers -/

/-- What stands at a port address (20_memory.md R44, R45). -/
inductive PortReg
  | cmd
  | status
  | config
  | sreg (r : SReg)
  | reserved
deriving DecidableEq, Repr

/-- The port address map (20_memory.md R44); 0x3 to 0x7 and 0x10 and above are reserved (R45). -/
def portReg (addr : Nat) : PortReg :=
  match addr with
  | 0x0 => .cmd
  | 0x1 => .status
  | 0x2 => .config
  | 0x8 => .sreg 0
  | 0x9 => .sreg 1
  | 0xA => .sreg 2
  | 0xB => .sreg 3
  | 0xC => .sreg 4
  | 0xD => .sreg 5
  | 0xE => .sreg 6
  | 0xF => .sreg 7
  | _ => .reserved

namespace State

/-- The value a host read of a port register returns (20_memory.md R44).
While `BUSY = 1` an S register, and ST, ZF, ERR and STICKY of STATUS, read as a free value (70_reset_and_hazards.md R175),
one for each place and each issued command, so that a repeated read returns it again until the command completes
(20_memory.md R48). -/
def portValue (s : State) (addr : Nat) : Nat :=
  match portReg addr with
  | .cmd => 0
  | .status => if s.busy then s.status.busyWord (Config.freeValue s.draws 24) else s.status.word false
  | .config => configWord s.params
  | .sreg r => if s.busy then Config.freeValue s.draws (16 + r.val) % 2 ^ s.W else s.S r
  | .reserved => 0

/-- A host read: the port returns a value and the block's state does not change (20_memory.md R48). -/
def hostRead (s : State) (addr : Nat) : State :=
  { s with reads := { addr := addr, value := s.portValue addr } :: s.reads }

/-- A host write that is discarded because `BUSY = 1` (70_reset_and_hazards.md R174). -/
def discardWrite (s : State) : State := { s with status := { s.status with ovr := true } }

/-- A CMD write accepted while `BUSY = 0`: the command is in flight and `BUSY = 1` in the same transaction
(10_state.md R28). What reads as unspecified while it is in flight is a new draw (log entry 7). -/
def issue (s : State) (x : Nat) : State := { s with inFlight := some (x % 2 ^ s.W), draws := s.draws + 1 }

/-- A host write (20_memory.md R44): CMD issues a command, an S register takes the value, both are discarded while
`BUSY = 1`, and every other address ignores it. -/
def hostWrite (s : State) (addr : Nat) (x : Nat) : State :=
  match portReg addr with
  | .cmd => if s.busy then s.discardWrite else s.issue x
  | .sreg r => if s.busy then s.discardWrite else s.setS r x true
  | .status => s
  | .config => s
  | .reserved => s

/-- The host asserts reset (70_reset_and_hazards.md R170, R171): STATUS becomes 0, the command in flight is abandoned, and
every V and S register is unspecified and unset. Their values are a new draw of free values (log entry 5). -/
def hostReset (s : State) : State :=
  { s with vregs := Regs8.tabulate fun r => Config.freeValue (s.draws + 1) r.val % 2 ^ s.M
           sregs := Regs8.tabulate fun r => Config.freeValue (s.draws + 1) (8 + r.val) % 2 ^ s.W
           vmarks := Regs8.const (List.replicate s.N false)
           smarks := Regs8.const false
           status := Status.reset
           inFlight := none
           draws := s.draws + 1 }

/-- One host transaction (20_memory.md R44). -/
def hostTurn (s : State) : PortOp → State
  | .read addr => s.hostRead addr
  | .write addr x => s.hostWrite addr x
  | .reset => s.hostReset

end State

/-! ### The engine -/

/-- The command word `x` runs to its end: an illegal word is a fault with ERR = 4 (30_encoding.md R67, R70). -/
def runCommand (x : Nat) (s : State) : Result :=
  match decodeCommand s.params.width x with
  | .error _ => .next (s.takeFault .illegalCommand)
  | .ok i => exec i s

/-- The engine's turn: the command in flight completes; an idle block keeps every register (60_exceptions.md R163). -/
def engineTurn (s : State) : Result :=
  match s.inFlight with
  | none => .next s
  | some x => runCommand x s

end Sys2Proof.Machine
end

