-- ==== Sys2Proof/Machine/Step.lean ====
section
/-! DEFINITION. One step of the host and the block together (20_memory.md R51, 70_reset_and_hazards.md R173). -/

namespace Sys2Proof.Machine

/-- One step: the next turn is taken. When no turn is left the host does nothing more, and the engine completes the
command in flight: every issued command completes (70_reset_and_hazards.md R176). -/
def step (s : State) : Host.Outcome State Fault Refusal :=
  match s.turns with
  | [] => engineTurn s
  | .engine :: rest => engineTurn { s with turns := rest }
  | .host op :: rest => .next (State.hostTurn { s with turns := rest } op)

/-- The state with the command word `w` (of `nbits` bits) in flight and the engine's turn next: `step` fetches and runs
exactly it. This stands for the host's accepted CMD write of the word (log entries 8 and 20). -/
def State.withFetchWord (s : State) (nbits w : Nat) : State :=
  { s with inFlight := some (w % 2 ^ nbits), turns := .engine :: s.turns }

end Sys2Proof.Machine
end

