-- ==== Sys2Proof/Machine/Reference.lean ====
section
/-! DEFINITION. The reference algorithms of the spec: the word-serial and bit-serial forms, schoolbook and Karatsuba
multiplication, and the three divisions.

They fix no result beyond the closed forms the meanings compute (44_multiply.md R134, 45_divide.md R143); that each agrees
with its closed form is a statement about the model. -/

namespace Sys2Proof.Machine

/-! ### Shifts (43_shift_scan_logic.md R110, R113) -/

/-- One step of `ShiftLeftC`: the value and the bit shifted out (R110). -/
def shiftLeftBit (M : Nat) (c : Bool) (x : Nat × Bool) : Nat × Bool :=
  ((x.1 <<< 1) % 2 ^ M ||| c.toNat, x.1.testBit (M - 1))

/-- One step of `ShiftRightC` (R110). -/
def shiftRightBit (M : Nat) (c : Bool) (x : Nat × Bool) : Nat × Bool :=
  ((x.1 >>> 1) ||| (c.toNat <<< (M - 1)), x.1.testBit 0)

/-- `ShiftLeftC(v, k, c)` by its definition, `k` one-bit steps (R110). -/
def shiftLeftNaive (M : Nat) (v : Nat) (k : Nat) (c : Bool) : Nat × Bool := (shiftLeftBit M c)^[k] (v, false)

/-- `ShiftRightC(v, k, c)` by its definition, `k` one-bit steps (R110). -/
def shiftRightNaive (M : Nat) (v : Nat) (k : Nat) (c : Bool) : Nat × Bool := (shiftRightBit M c)^[k] (v, false)

/-- Every word moved up one place, word 0 filled (R113). -/
def shiftLeftWord (W M : Nat) (c : Bool) (x : Nat × Bool) : Nat × Bool :=
  ((x.1 <<< W) % 2 ^ M ||| c.toNat * (2 ^ W - 1), x.1.testBit (M - W))

/-- Every word moved down one place, word N−1 filled (R113). -/
def shiftRightWord (W M : Nat) (c : Bool) (x : Nat × Bool) : Nat × Bool :=
  ((x.1 >>> W) ||| c.toNat * (2 ^ W - 1) * 2 ^ (M - W), x.1.testBit (W - 1))

/-- The left shift as whole-word moves and a sub-word shift for the remainder (R113). -/
def shiftLeftByWords (W M : Nat) (v : Nat) (k : Nat) (c : Bool) : Nat × Bool :=
  (shiftLeftBit M c)^[k % W] ((shiftLeftWord W M c)^[k / W] (v, false))

/-- The right shift as whole-word moves and a sub-word shift for the remainder (R113). -/
def shiftRightByWords (W M : Nat) (v : Nat) (k : Nat) (c : Bool) : Nat × Bool :=
  (shiftRightBit M c)^[k % W] ((shiftRightWord W M c)^[k / W] (v, false))

/-! ### Ripple add and subtract (42_vector_arith.md R104)

Each ripple takes `count` words from word `k` up, with carry `c`; it gives those words in their places, and the carry. -/

/-- The ripple of AddWords. -/
def rippleAdd (W : Nat) (x y : Nat) : (count k : Nat) → Bool → Nat × Bool
  | 0, _, c => (0, c)
  | count + 1, k, c =>
    let low := addWords W (wordAt W x k) (wordAt W y k) c
    let rest := rippleAdd W x y count (k + 1) low.2
    (low.1 * 2 ^ (W * k) + rest.1, rest.2)

/-- The ripple of SubWords. -/
def rippleSub (W : Nat) (x y : Nat) : (count k : Nat) → Bool → Nat × Bool
  | 0, _, c => (0, c)
  | count + 1, k, c =>
    let low := subWords W (wordAt W x k) (wordAt W y k) c
    let rest := rippleSub W x y count (k + 1) low.2
    (low.1 * 2 ^ (W * k) + rest.1, rest.2)

/-- AddAtOffset: the delta enters at word `i` and the carry ripples upward; the words below `i` are copied. -/
def rippleAddAt (W N : Nat) (x : Nat) (delta : Nat) (i : Nat) : Nat × Bool :=
  let low := addWords W (wordAt W x i) delta false
  let rest := rippleAdd W x 0 (N - 1 - i) (i + 1) low.2
  (x % 2 ^ (W * i) + low.1 * 2 ^ (W * i) + rest.1, rest.2)

/-- SubAtOffset: the delta leaves at word `i` and the borrow ripples upward; the words below `i` are copied. -/
def rippleSubAt (W N : Nat) (x : Nat) (delta : Nat) (i : Nat) : Nat × Bool :=
  let low := subWords W (wordAt W x i) delta false
  let rest := rippleSub W x 0 (N - 1 - i) (i + 1) low.2
  (x % 2 ^ (W * i) + low.1 * 2 ^ (W * i) + rest.1, rest.2)

/-! ### One-word multiply and divide, word by word (44_multiply.md R130, 45_divide.md R140) -/

/-- MulSingleWord over `count` words from word `k` up, with the carry word `c`: those words, and the last carry word. -/
def mulWordSerial (W : Nat) (x : Nat) (b : Nat) : (count k : Nat) → Nat → Nat × Nat
  | 0, _, c => (0, c)
  | count + 1, k, c =>
    let p := mulWords W (wordAt W x k) b
    let low := addWords W p.2 c false
    let rest := mulWordSerial W x b count (k + 1) (p.1 + low.2.toNat)
    (low.1 * 2 ^ (W * k) + rest.1, rest.2)

/-- DivSingleWord from word `count − 1` down, with the running remainder `r`: those quotient words, and the remainder. -/
def divWordSerial (W : Nat) (x : Nat) (d : Nat) : (count : Nat) → Nat → Nat × Nat
  | 0, r => (0, r)
  | count + 1, r =>
    let step := divDoubleWord W r (wordAt W x count) d
    let rest := divWordSerial W x d count step.2
    (step.1 * 2 ^ (W * count) + rest.1, rest.2)

/-! ### Multiplication (44_multiply.md R135 to R137) -/

/-- The significant span of an operand: its words from the lowest to the highest non-zero one (00_scope.md R14). -/
def significantSpan (W N : Nat) (a : Nat) : List Nat :=
  match (List.range N).find? fun i => wordAt W a i != 0, (List.range N).reverse.find? fun i => wordAt W a i != 0 with
  | some low, some high => List.range' low (high + 1 - low)
  | _, _ => []

/-- Schoolbook multiplication of `n`-word operands: one-word partial products accumulated by offset adds (R135). -/
def schoolbook (W n : Nat) (a b : Nat) : Nat :=
  (significantSpan W n a).foldl (init := 0) fun r i =>
    (significantSpan W n b).foldl (init := r) fun r j =>
      let p := mulWords W (wordAt W a i) (wordAt W b j)
      r + p.2 * 2 ^ (W * (i + j)) + p.1 * 2 ^ (W * (i + j + 1))

/-- Karatsuba multiplication of `n`-word operands with the threshold `kt` (R136); `fuel` bounds the depth, and `n` is
enough, since both halves are shorter. -/
def karatsuba (W kt : Nat) : (fuel n : Nat) → Nat → Nat → Nat
  | 0, n, a, b => schoolbook W n a b
  | fuel + 1, n, a, b =>
    if n < kt then schoolbook W n a b
    else
      let m := n / 2
      let h := n - m
      let a0 := a % 2 ^ (W * m)
      let a1 := a / 2 ^ (W * m)
      let b0 := b % 2 ^ (W * m)
      let b1 := b / 2 ^ (W * m)
      let z0 := karatsuba W kt fuel m a0 b0
      let z2 := karatsuba W kt fuel h a1 b1
      let ca := (a0 + a1) / 2 ^ (W * h)
      let cb := (b0 + b1) / 2 ^ (W * h)
      let sa := (a0 + a1) % 2 ^ (W * h)
      let sb := (b0 + b1) % 2 ^ (W * h)
      let zs := karatsuba W kt fuel h sa sb + (ca * sb + cb * sa) * 2 ^ (W * h) + ca * cb * 2 ^ (W * (2 * h))
      let z1 := zs - z2 - z0
      z2 * 2 ^ (W * (2 * m)) + z1 * 2 ^ (W * m) + z0

/-- An operand is eligible for Karatsuba when its significant span is at least 3 words long (R137). -/
def eligible (W N : Nat) (a : Nat) : Bool := decide (3 ≤ (significantSpan W N a).length)

/-- The double-width product by the algorithm that ALG selects (R137). -/
def mulByAlg (p : Params) (alg : MulAlg) (a b : Nat) : Nat :=
  let selected :=
    if eligible p.W p.N a && eligible p.W p.N b then karatsuba p.W p.KT p.N p.N a b else schoolbook p.W p.N a b
  match alg with
  | .schoolbook => schoolbook p.W p.N a b
  | .auto => selected
  | .karatsuba => selected

/-! ### Division (45_divide.md R141, R144 to R146) -/

/-- Restoring bit-serial division: the bits of `x` below `count` are still to come, quotient `q` and remainder `r` stand
(R144). -/
def restoringFrom (x d : Nat) : (count q r : Nat) → Nat × Nat
  | 0, q, r => (q, r)
  | j + 1, q, r =>
    let r' := 2 * r + (x.testBit j).toNat
    if d ≤ r' then restoringFrom x d j (q + 2 ^ j) (r' - d) else restoringFrom x d j q r'

/-- Leading-bit alignment: the divisor aligned under the remainder and subtracted, while the remainder is not below it
(R145). Each round clears the remainder's leading bit, so `fuel = M` rounds are enough. -/
def alignFrom (d : Nat) : (fuel q r : Nat) → Nat × Nat
  | 0, q, r => (q, r)
  | fuel + 1, q, r =>
    if r < d then (q, r)
    else
      let under := leadingBit r - leadingBit d
      let k := if r < d * 2 ^ under then under - 1 else under
      alignFrom d fuel (q + 2 ^ k) (r - d * 2 ^ k)

/-- The correction of a quotient word: while the trial difference is negative, one divisor is added back, at most `count`
times (R146). -/
def knuthCorrect (divisor : Nat) : (count : Nat) → Int → Nat → Int × Nat
  | 0, u, digit => (u, digit)
  | count + 1, u, digit => if u < 0 then knuthCorrect divisor count (u + divisor) (digit - 1) else (u, digit)

/-- The estimate of a quotient word from the top two dividend words and the top divisor word, at most `base − 1` (R146).
PRESUMED by the spec itself, log entry 18: the cap is its general knowledge; no result depends on it. -/
def knuthEstimate (W : Nat) (hi lo top : Nat) : Nat :=
  if hi < top then (divDoubleWord W hi lo top).1 else 2 ^ W - 1

/-- Algorithm D for the quotient words below `count`: normalised divisor `v` of `n` words, dividend `u`; the quotient so
built, and what is left of the dividend (R146). -/
def knuthFrom (W n : Nat) (v : Nat) : (count : Nat) → Nat → Nat × Nat
  | 0, u => (0, u)
  | j + 1, u =>
    let estimate := knuthEstimate W (wordAt W u (j + n)) (wordAt W u (j + n - 1)) (wordAt W v (n - 1))
    let fixed := knuthCorrect (v * 2 ^ (W * j)) 2 ((u : Int) - (estimate * v * 2 ^ (W * j) : Nat)) estimate
    let rest := knuthFrom W n v j fixed.1.toNat
    (fixed.2 * 2 ^ (W * j) + rest.1, rest.2)

/-- Knuth's normalised long division of an `N`-word dividend (R146). -/
def knuth (W N x d : Nat) : Nat × Nat :=
  let n := leadingBit d / W + 1
  let shift := W * n - 1 - leadingBit d
  let r := knuthFrom W n (d * 2 ^ shift) (N - n + 1) (x * 2 ^ shift)
  (r.1, r.2 % 2 ^ (W * n) / 2 ^ shift)

/-- The multi-word division by the algorithm that ALG selects, after the common pre-checks (R141); `none` is the
DivisionByZero of the first of them. -/
def divByAlg (W N : Nat) (alg : DivAlg) (x d : Nat) : Option (Nat × Nat) :=
  if d = 0 then none
  else if x < d then some (0, x)
  else if x = d then some (1, 0)
  else if d < 2 ^ W then some (divWordSerial W x d N 0)
  else match alg with
    | .knuth => some (knuth W N x d)
    | .restoring => some (restoringFrom x d (N * W) 0 0)
    | .align => some (alignFrom d (N * W) 0 x)

end Sys2Proof.Machine
end

