-- ==== Sys2Proof/Safety.lean ====
section
/-! DEFINITION. The terms claims are written in: the invariant of the state, what a command may change, how it ends, and the
contract a host keeps. -/

namespace Sys2Proof

/-! ### The invariant of the state -/

/-- What holds of every state a legal instance reaches: `1 ≤ N ≤ 65535` (00_scope.md R7), every V register is an `M`-bit
value and every S register a `W`-bit one (10_state.md R20, R21), each V register has one set-mark a word (R22), and the
value in flight is one the `W`-bit port can carry (R28). -/
abbrev Machine.State.wf (s : Machine.State) : Prop :=
  s.params.legal ∧ (∀ r : VReg, s.V r < 2 ^ s.M) ∧ (∀ r : SReg, s.S r < 2 ^ s.W) ∧
    (∀ r : VReg, (s.vmarks.get r).length = s.N) ∧ (∀ x ∈ s.inFlight, x < 2 ^ s.W)

/-! ### What a command reads and writes -/

namespace Instr

/-- The V registers a command reads, each whole; VLDW reads none, not even its destination (10_state.md R22). -/
def vReads : Instr → List VReg
  | .vset _ _ => []
  | .vldw _ _ _ => []
  | .vstw _ a _ => [a]
  | .vmov _ a => [a]
  | .clrst => []
  | .wadd _ _ _ _ => []
  | .wsub _ _ _ _ => []
  | .wmul _ _ _ _ => []
  | .wdiv _ _ _ _ _ => []
  | .vadd d b _ => [d, b]
  | .vsub d b _ => [d, b]
  | .vaddo d _ _ => [d]
  | .vsubo d _ _ => [d]
  | .vshl d _ _ => [d]
  | .vshr d _ _ => [d]
  | .vflb _ _ a => [a]
  | .vftb _ _ a => [a]
  | .vgetb a _ => [a]
  | .vsetb d _ => [d]
  | .vnorm d _ => [d]
  | .vand d b => [d, b]
  | .vor d b => [d, b]
  | .vxor d b => [d, b]
  | .vnot d => [d]
  | .vnotm d => [d]
  | .vmulw d _ => [d]
  | .vmuld _ a b _ => [a, b]
  | .vmul d b _ => [d, b]
  | .vdivw d _ _ => [d]
  | .vdiv d b _ _ => [d, b]

/-- The S registers a command reads. -/
def sReads : Instr → List SReg
  | .vset _ a => [a]
  | .vldw _ a b => [a, b]
  | .vstw _ _ b => [b]
  | .vmov _ _ => []
  | .clrst => []
  | .wadd _ a b _ => [a, b]
  | .wsub _ a b _ => [a, b]
  | .wmul _ _ a b => [a, b]
  | .wdiv _ _ a b e => [a, b, e]
  | .vadd _ _ _ => []
  | .vsub _ _ _ => []
  | .vaddo _ a b => [a, b]
  | .vsubo _ a b => [a, b]
  | .vshl _ b _ => [b]
  | .vshr _ b _ => [b]
  | .vflb _ _ _ => []
  | .vftb _ _ _ => []
  | .vgetb _ b => [b]
  | .vsetb _ b => [b]
  | .vnorm _ _ => []
  | .vand _ _ => []
  | .vor _ _ => []
  | .vxor _ _ => []
  | .vnot _ => []
  | .vnotm _ => []
  | .vmulw _ b => [b]
  | .vmuld _ _ _ _ => []
  | .vmul _ _ _ => []
  | .vdivw _ b _ => [b]
  | .vdiv _ _ _ _ => []

/-- The V registers that are destinations of a command. -/
def vWrites : Instr → List VReg
  | .vset d _ => [d]
  | .vldw d _ _ => [d]
  | .vstw _ _ _ => []
  | .vmov d _ => [d]
  | .clrst => []
  | .wadd _ _ _ _ => []
  | .wsub _ _ _ _ => []
  | .wmul _ _ _ _ => []
  | .wdiv _ _ _ _ _ => []
  | .vadd d _ _ => [d]
  | .vsub d _ _ => [d]
  | .vaddo d _ _ => [d]
  | .vsubo d _ _ => [d]
  | .vshl d _ _ => [d]
  | .vshr d _ _ => [d]
  | .vflb _ _ _ => []
  | .vftb _ _ _ => []
  | .vgetb _ _ => []
  | .vsetb d _ => [d]
  | .vnorm d _ => [d]
  | .vand d _ => [d]
  | .vor d _ => [d]
  | .vxor d _ => [d]
  | .vnot d => [d]
  | .vnotm d => [d]
  | .vmulw d _ => [d]
  | .vmuld d _ _ _ => [d, d + 1]
  | .vmul d _ _ => [d]
  | .vdivw d _ _ => [d]
  | .vdiv d _ c _ => [d, c]

/-- The S registers that are destinations of a command. -/
def sWrites : Instr → List SReg
  | .vset _ _ => []
  | .vldw _ _ _ => []
  | .vstw d _ _ => [d]
  | .vmov _ _ => []
  | .clrst => []
  | .wadd d _ _ _ => [d]
  | .wsub d _ _ _ => [d]
  | .wmul d c _ _ => [d, c]
  | .wdiv d c _ _ _ => [d, c]
  | .vadd _ _ _ => []
  | .vsub _ _ _ => []
  | .vaddo _ _ _ => []
  | .vsubo _ _ _ => []
  | .vshl _ _ _ => []
  | .vshr _ _ _ => []
  | .vflb d c _ => [d, c]
  | .vftb d c _ => [d, c]
  | .vgetb _ _ => []
  | .vsetb _ _ => []
  | .vnorm _ c => [c]
  | .vand _ _ => []
  | .vor _ _ => []
  | .vxor _ _ => []
  | .vnot _ => []
  | .vnotm _ => []
  | .vmulw _ _ => []
  | .vmuld _ _ _ _ => []
  | .vmul _ _ _ => []
  | .vdivw _ _ c => [c]
  | .vdiv _ _ _ _ => []

/-- The commands whose completion with ST = 1 is OVERFLOW (the last column of 10_state.md R29's table). -/
def isArithmetic : Instr → Bool
  | .vset _ _ => false
  | .vldw _ _ _ => false
  | .vstw _ _ _ => false
  | .vmov _ _ => false
  | .clrst => false
  | .wadd _ _ _ _ => true
  | .wsub _ _ _ _ => true
  | .wmul _ _ _ _ => false
  | .wdiv _ _ _ _ _ => false
  | .vadd _ _ _ => true
  | .vsub _ _ _ => true
  | .vaddo _ _ _ => true
  | .vsubo _ _ _ => true
  | .vshl _ _ _ => false
  | .vshr _ _ _ => false
  | .vflb _ _ _ => false
  | .vftb _ _ _ => false
  | .vgetb _ _ => false
  | .vsetb _ _ => false
  | .vnorm _ _ => false
  | .vand _ _ => false
  | .vor _ _ => false
  | .vxor _ _ => false
  | .vnot _ => false
  | .vnotm _ => false
  | .vmulw _ _ => true
  | .vmuld _ _ _ _ => false
  | .vmul _ _ _ => true
  | .vdivw _ _ _ => false
  | .vdiv _ _ _ _ => false

end Instr

namespace Machine

/-! ### How a command leaves the state -/

/-- `Vr` holds `x`, and if `x` is known every one of its words is set (10_state.md R22, 70_reset_and_hazards.md R172). -/
def SetsV (t : State) (r : VReg) (x : Nat) (known : Bool) : Prop :=
  t.V r = x ∧ (known = true → t.vmarks.get r = List.replicate t.N true)

/-- `Sr` holds `x`, and is set if `x` is known. -/
def SetsS (t : State) (r : SReg) (x : Nat) (known : Bool) : Prop := t.S r = x ∧ (known = true → t.sIsSet r = true)

/-- From `s` to `t` a command ended and changed at most the V registers `vs`, the S registers `ss` and STATUS: every other
register keeps its value (and with it every word of the V word space outside `vs`) and its set-marks, the instance and the
port's queues are as they were, and `BUSY = 0`. -/
structure Frame (s t : State) (vs : List VReg) (ss : List SReg) : Prop where
  params : t.params = s.params
  vKept : ∀ r, r ∉ vs → t.V r = s.V r
  wordKept : ∀ r i, r ∉ vs → t.word r i = s.word r i
  vMarkKept : ∀ r, r ∉ vs → t.vmarks.get r = s.vmarks.get r
  sKept : ∀ r, r ∉ ss → t.S r = s.S r
  sMarkKept : ∀ r, r ∉ ss → t.sIsSet r = s.sIsSet r
  turns : t.turns = s.turns
  reads : t.reads = s.reads
  draws : t.draws = s.draws
  idle : t.inFlight = none

/-- STATUS as a completion without a fault leaves it (10_state.md R29): ST and ZF as the command gives them, ERR is
OVERFLOW for the arithmetic class with ST = 1 and NONE otherwise, STICKY is set by ERR ≠ 0 and kept otherwise, OVR kept. -/
structure Completed (s t : State) (cls : CommandClass) (st zf : Bool) : Prop where
  stIs : t.status.st = st
  zfIs : t.status.zf = zf
  errIs : t.status.err = if cls = .arithmetic ∧ st = true then .overflow else .none
  stickyIs : t.status.sticky = (s.status.sticky || decide (t.status.err ≠ .none))
  ovrKept : t.status.ovr = s.status.ovr

/-- A fault (60_exceptions.md R152): no V or S register is written; ST = 1, ZF = 0, ERR is the code, STICKY = 1, OVR is
unchanged and BUSY = 0. -/
structure Faulted (s t : State) (code : ErrCode) : Prop where
  frame : Frame s t [] []
  stIs : t.status.st = true
  zfIs : t.status.zf = false
  errIs : t.status.err = code
  stickyIs : t.status.sticky = true
  ovrKept : t.status.ovr = s.status.ovr

/-! ### What the rules name -/

/-- `j` is the leading bit of `v`: the largest `j` with `v[j] = 1` (00_scope.md R14). -/
def IsLeadingBit (v j : Nat) : Prop := v.testBit j = true ∧ ∀ k, j < k → v.testBit k = false

/-- `j` is the lowest bit of `v`: the smallest `j` with `v[j] = 1` (00_scope.md R14). -/
def IsLowestBit (v j : Nat) : Prop := v.testBit j = true ∧ ∀ k, k < j → v.testBit k = false

/-- The value written to CMD is ILLEGAL_COMMAND by R67: its cases (a) to (h), in order, on the bits of the word. -/
def IllegalCommandWord (width : WordWidth) (x : Nat) : Prop :=
  let op := x / 2 ^ 26 % 64
  let d := x / 2 ^ 23 % 8
  let c := x / 2 ^ 14 % 8
  let ci := x / 2 ^ 9 % 4
  let alg := x / 2 ^ 7 % 4
  (∀ row ∈ opcodeTable, row.op ≠ op) ∨
  (∃ used, usedFields op = some used ∧ ((∃ k, k ∉ used ∧ (Fields.ofNat x).value k ≠ 0) ∨ x % 128 ≠ 0)) ∨
  (op ∈ [0x08, 0x09, 0x10, 0x11, 0x18, 0x19] ∧ ci = 3) ∨
  (op ∈ [0x29, 0x2A, 0x31] ∧ alg = 3) ∨
  (op = 0x29 ∧ d % 2 = 1) ∨
  (op ∈ [0x0A, 0x0B, 0x1A, 0x1B] ∧ d = c) ∨
  (op = 0x31 ∧ d = c) ∨
  (width = .w64 ∧ x / 2 ^ 32 ≠ 0)

/-- The engine's turn is next: the command in flight completes in this step. -/
def EngineNext (s : State) : Prop := s.turns = [] ∨ ∃ rest, s.turns = .engine :: rest

/-- The host asserts reset in this step. -/
def ResetNext (s : State) : Prop := ∃ rest, s.turns = .host .reset :: rest

/-- The command in flight completes in this step, and it is `i`. -/
def CompletesNext (s : State) (i : Instr) : Prop :=
  EngineNext s ∧ ∃ x, s.inFlight = some x ∧ decodeCommand s.params.width x = .ok i

/-! ### The contract of a host (70_reset_and_hazards.md R172, R173, R177; 20_memory.md R45) -/

/-- Every register the command reads has been written since reset (10_state.md R22, 70_reset_and_hazards.md R172). -/
def operandsSet (i : Instr) (s : State) : Bool := s.allSet i.vReads i.sReads

/-- A host transaction that keeps the contract: no reserved address (20_memory.md R45), no CMD or S access while
`BUSY = 1` (R173), no read of an S register not yet written (R172). -/
def PortOp.inContract (s : State) : PortOp → Bool
  | .read addr =>
    match portReg addr with
    | .cmd => true
    | .status => true
    | .config => true
    | .sreg r => !s.busy && s.sIsSet r
    | .reserved => false
  | .write addr _ =>
    match portReg addr with
    | .cmd => !s.busy
    | .status => true
    | .config => true
    | .sreg _ => !s.busy
    | .reserved => false
  | .reset => true

/-- The engine's turn reads no unset register: the command in flight, if it is legal, has every operand set. -/
def engineInContract (s : State) : Bool :=
  match s.inFlight with
  | none => true
  | some x =>
    match decodeCommand s.params.width x with
    | .error _ => true
    | .ok i => operandsSet i s

/-- The next step keeps the contract. -/
def stepInContract (s : State) : Bool :=
  match s.turns with
  | [] => engineInContract s
  | .engine :: _ => engineInContract s
  | .host op :: _ => op.inContract s

/-- The next `k` steps keep the contract: a safe run. -/
def runInContract : Nat → State → Bool
  | 0, _ => true
  | k + 1, s =>
    stepInContract s &&
      match step s with
      | .next t => runInContract k t
      | .fault _ => false
      | .refused _ => false

/-- Two states that differ at most in the values of unset registers: what the block does not fix (10_state.md R22, R30). -/
structure Agree (s t : State) : Prop where
  params : t.params = s.params
  vmarks : t.vmarks = s.vmarks
  smarks : t.smarks = s.smarks
  status : t.status = s.status
  inFlight : t.inFlight = s.inFlight
  turns : t.turns = s.turns
  reads : t.reads = s.reads
  draws : t.draws = s.draws
  words : ∀ r i, s.wordIsSet r i = true → t.word r i = s.word r i
  sregs : ∀ r, s.sIsSet r = true → t.S r = s.S r

end Machine

end Sys2Proof
end

