-- ==== Sys2Proof/Certificates/Slice0/Obligations.lean ====
section
/-! DEFINITION. The statements about the block, in the order of OBLIGATIONS.json.

A statement about a state is about every instance (every `W`, `N` and `KT`), since the parameters stand in State.
A command's statement gives its encoding (the word that 30_encoding.md R69 assembles decodes to it), its completion with its
results and flags, its frame, and where it faults. -/

open Sys2Proof Sys2Proof.Machine

/-! ### Encoding -/

/-- Ten of the words the spec prints for its examples decode to the commands they stand for, and the all-zero word is refused
(30_encoding.md R67 (a), R69; the examples of the command rules; 95_test_vectors.md). -/
def Obligations.WrittenOutWordsDecode : Prop :=
  decode 0x04100000 = .ok (.vset 0 1) ∧ decode 0x0E160000 = .ok (.vstw 4 1 3) ∧ decode 0x14000000 = .ok .clrst ∧
  decode 0x2D952800 = .ok (.wdiv 3 4 1 2 5) ∧ decode 0x40840400 = .ok (.vadd 1 2 .status) ∧
  decode 0x60840200 = .ok (.vshl 1 2 .one) ∧ decode 0x6D910000 = .ok (.vftb 3 4 1) ∧
  decode 0x90800000 = .ok (.vnotm 1) ∧ decode 0xA5020080 = .ok (.vmuld 2 0 1 .schoolbook) ∧
  decode 0xC4848100 = .ok (.vdiv 1 2 2 .align) ∧ decode 0x00000000 = .error .reservedOpcode

/-- R69: the command word is assembled from its fields, each taken as 0 when the command does not use it, and every
well-formed command is read back from its word. -/
def Obligations.EncodeAssemblesFieldsAndDecodesBack : Prop :=
  (∀ i : Instr,
    (∃ used, usedFields (encodeFields i).op = some used ∧ (encodeFields i).cleanOutside used = true) ∧
    encode i = assemble (encodeFields i).op (encodeFields i).d (encodeFields i).a (encodeFields i).b (encodeFields i).c
      (encodeFields i).e (encodeFields i).ci (encodeFields i).alg ∧
    (i.wellFormed → decode (encode i) = .ok i)) ∧
  encode (.vadd 1 2 .status) = 0x40840400#32

/-- Each word has one meaning: a word that decodes to a command is that command's own word, and the command is well formed
(30_encoding.md R63, R67, R68). -/
def Obligations.DecodedWordIsTheCommandsOwn : Prop :=
  ∀ (x : BitVec 32) (i : Instr), decode x = .ok i → encode i = x ∧ i.wellFormed

/-- R67: the illegal values of a CMD write are exactly those of its cases (a) to (h), and each completes as a fault with
ERR = 4 writing no register. -/
def Obligations.IllegalWordsAreExactlyTheListedOnes : Prop :=
  ∀ (s : State) (x : Nat),
    ((∃ why, decodeCommand s.params.width x = .error why) ↔ IllegalCommandWord s.params.width x) ∧
    (IllegalCommandWord s.params.width x → ∃ t, runCommand x s = .next t ∧ Faulted s t .illegalCommand)

/-- The match and mask columns of R68 decide decoding alone, apart from the value constraints of R67 (c) to (g), and at most
one row matches a word. That a word which breaks (b) and another case is named for the unused field rests on the decoder's
order of reasons, which is the model's (log entry 21). -/
def Obligations.OpcodeTableDecidesDecoding : Prop :=
  ∀ x : BitVec 32,
    ((∃ row ∈ opcodeTable, x &&& row.mask = row.pattern) ↔
      decode x ≠ .error .reservedOpcode ∧ decode x ≠ .error .unusedFieldNonZero) ∧
    ∀ r ∈ opcodeTable, ∀ q ∈ opcodeTable, x &&& r.mask = r.pattern → x &&& q.mask = q.pattern → r = q

/-- R64: the carry-in that CI selects, and `CI = 0b11` is illegal in each command that takes a carry-in. -/
def Obligations.CarryInSelectGivesTheBit : Prop :=
  (∀ s : State, s.carryIn .zero = false ∧ s.carryIn .one = true ∧ s.carryIn .status = s.status.st) ∧
  (∀ p : Params, (State.resetOf p).carryIn .status = false) ∧
  (encodeCarryIn .zero = 0b00 ∧ encodeCarryIn .one = 0b01 ∧ encodeCarryIn .status = 0b10) ∧
  (∀ d a b : SReg, decode (assemble 0x08 d a b 0 0 3 0) = .error .carryInSelect ∧
    decode (assemble 0x09 d a b 0 0 3 0) = .error .carryInSelect) ∧
  (∀ d b : VReg, decode (assemble 0x10 d 0 b 0 0 3 0) = .error .carryInSelect ∧
    decode (assemble 0x11 d 0 b 0 0 3 0) = .error .carryInSelect) ∧
  ∀ (d : VReg) (b : SReg), decode (assemble 0x18 d 0 b 0 0 3 0) = .error .carryInSelect ∧
    decode (assemble 0x19 d 0 b 0 0 3 0) = .error .carryInSelect

/-! ### The step, the port and reset -/

/-- A step at the engine's turn runs the command in flight, or reports ILLEGAL_COMMAND for a value that R67 makes illegal; and
the very next step after `withFetchWord` runs its word (30_encoding.md R67, R70; the turns are the model's, log entry 8). -/
def Obligations.StepRunsDecodedCommand : Prop :=
  (∀ (s : State) (x : Nat) (i : Instr), s.inFlight = some x → decodeCommand s.params.width x = .ok i →
    (s.turns = [] → step s = exec i s) ∧
    ∀ rest, s.turns = .engine :: rest → step s = exec i { s with turns := rest }) ∧
  (∀ (s : State) (x : Nat), s.inFlight = some x → EngineNext s → IllegalCommandWord s.params.width x →
    ∃ t, step s = .next t ∧ Faulted { s with turns := s.turns.tail } t .illegalCommand) ∧
  ∀ (s : State) (w : Nat) (i : Instr), w < 2 ^ 32 → decode (BitVec.ofNat 32 w) = .ok i →
    step (s.withFetchWord 32 w) = exec i { s with inFlight := some w }

/-- Between commands the block is idle with `BUSY = 0` and every register keeps its value (60_exceptions.md R163). -/
def Obligations.IdleBlockKeepsEveryRegister : Prop :=
  ∀ s : State, s.inFlight = none → EngineNext s → s.busy = false ∧ step s = .next { s with turns := s.turns.tail }

/-- A host write while `BUSY = 0`: CMD issues the command and BUSY becomes 1 in the same transaction; an S register takes the
value. A write to any other address changes nothing, whatever BUSY is (20_memory.md R44, R45; 10_state.md R28). That a reserved
address ignores it, where R45 has a model refuse the access, is the model's choice (log entry 10). The draw of free values that
an issue takes is the model's own (log entry 7). -/
def Obligations.HostWriteWhileIdle : Prop :=
  ∀ (s : State) (addr x : Nat) (rest : List Turn), s.turns = .host (.write addr x) :: rest →
    (s.inFlight = none → ∃ t, step s = .next t ∧
      (addr = 0 → t = { s with turns := rest, inFlight := some (x % 2 ^ s.W), draws := s.draws + 1 } ∧ t.busy = true) ∧
      ∀ k : SReg, addr = 8 + k.val →
        SetsS t k (x % 2 ^ s.W) true ∧ (∀ q, q ≠ k → t.S q = s.S q ∧ t.sIsSet q = s.sIsSet q) ∧
        t = { s with turns := rest, sregs := t.sregs, smarks := t.smarks }) ∧
    (addr ≠ 0 → addr < 8 ∨ 16 ≤ addr → step s = .next { s with turns := rest })

/-- R174: a host write to CMD or an S register while `BUSY = 1` changes no register, issues nothing and sets OVR; the command
in flight is not disturbed; OVR is kept until CLRST or reset. -/
def Obligations.HostWriteWhileBusyIsDiscarded : Prop :=
  (∀ (s : State) (addr x y : Nat) (rest : List Turn), s.turns = .host (.write addr x) :: rest → s.inFlight = some y →
    addr = 0 ∨ 8 ≤ addr ∧ addr < 16 →
      step s = .next { s with turns := rest, status := { s.status with ovr := true } }) ∧
  ∀ s t : State, step s = .next t → s.status.ovr = true → t.status.ovr = false →
    ResetNext s ∨ CompletesNext s .clrst

/-- A host read while `BUSY = 0` returns what stands at the address and changes nothing of the block (20_memory.md R44, R45,
R48). That a read of a reserved address runs, where R45 has a model refuse it, is the model's choice (log entry 10). -/
def Obligations.HostReadWhileIdle : Prop :=
  ∀ (s : State) (addr : Nat) (rest : List Turn), s.turns = .host (.read addr) :: rest → s.inFlight = none →
    ∃ v, step s = .next { s with turns := rest, reads := { addr := addr, value := v } :: s.reads } ∧
      (addr = 0 → v = 0) ∧ (addr = 1 → v = s.status.word false) ∧ (addr = 2 → v = configWord s.params) ∧
      (∀ k : SReg, addr = 8 + k.val → v = s.S k) ∧ (2 < addr → addr < 8 ∨ 16 ≤ addr → v = 0)

/-- A host read while `BUSY = 1`: BUSY and OVR of STATUS, CONFIG and CMD read correctly, an S register reads as some `W`-bit
value, and nothing of the block changes (70_reset_and_hazards.md R175; 20_memory.md R48). A reserved address reads 0, as R45 says
the block does; that the model takes the access where R45 has a model refuse it is its own choice (log entry 10). -/
def Obligations.HostReadWhileBusy : Prop :=
  ∀ (s : State) (addr y : Nat) (rest : List Turn), s.turns = .host (.read addr) :: rest → s.inFlight = some y →
    ∃ v, step s = .next { s with turns := rest, reads := { addr := addr, value := v } :: s.reads } ∧
      (addr = 0 → v = 0) ∧ (addr = 1 → v / 128 = 1 ∧ v / 64 % 2 = s.status.ovr.toNat) ∧
      (addr = 2 → v = configWord s.params) ∧ (8 ≤ addr → addr < 16 → v < 2 ^ s.W) ∧
      (2 < addr → addr < 8 ∨ 16 ≤ addr → v = 0)

/-- The host asserts reset: STATUS becomes 0, the command in flight is abandoned, no register is set, CONFIG is unchanged
(70_reset_and_hazards.md R170, R171; 10_state.md R30). -/
def Obligations.HostResetClearsTheBlock : Prop :=
  ∀ (s : State) (rest : List Turn), s.turns = .host .reset :: rest →
    ∃ t, step s = .next t ∧ t.status.word t.busy = 0 ∧ t.inFlight = none ∧ t.params = s.params ∧
      (∀ r i, t.wordIsSet r i = false) ∧ (∀ r, t.sIsSet r = false) ∧
      (∀ r, t.V r < 2 ^ t.M) ∧ (∀ r, t.S r < 2 ^ t.W) ∧ t.turns = rest ∧ t.reads = s.reads

/-- The state after reset of any instance: STATUS 0, no command in flight, no register set (10_state.md R30). The values 0 of
the V and S registers, the empty queues and the instance of `State.reset` are the model's choice (log entries 1 to 3, 6, 8
and 9). -/
def Obligations.ResetStateHoldsTheStatedValues : Prop :=
  (∀ p : Params, (State.resetOf p).status.word (State.resetOf p).busy = 0 ∧ (State.resetOf p).params = p ∧
    (∀ r i, (State.resetOf p).wordIsSet r i = false) ∧ (∀ r, (State.resetOf p).sIsSet r = false) ∧
    (∀ r, (State.resetOf p).V r = 0) ∧ (∀ r, (State.resetOf p).S r = 0)) ∧
  State.reset = State.resetOf { width := .w32, words := 2, threshold := .kt3 }

/-- R27 and R32: the fields of CONFIG, which is read at port address 0x2 at all times and which no step changes. -/
def Obligations.ConfigHoldsTheParametersAndNeverChanges : Prop :=
  (∀ p : Params, p.legal →
    configWord p % 2 = (if p.width = .w64 then 1 else 0) ∧ configWord p / 2 % 8 = p.KT ∧ configWord p / 16 % 16 = 0 ∧
    configWord p / 256 % 256 = 0 ∧ configWord p / 65536 % 65536 = p.N ∧ configWord p / 2 ^ 32 = 0) ∧
  (∀ s : State, s.portValue 2 = configWord s.params) ∧
  ∀ s t : State, step s = .next t → configWord t.params = configWord s.params

/-- The fields of STATUS stand at the bits 10_state.md R25 gives them, the bits above BUSY are 0, and ERR is at most 5
(R26). -/
def Obligations.StatusWordHoldsItsFields : Prop :=
  ∀ (x : Status) (busy : Bool),
    x.word busy % 2 = x.st.toNat ∧ x.word busy / 2 % 2 = x.zf.toNat ∧ x.word busy / 4 % 8 = x.err.code ∧
    x.word busy / 32 % 2 = x.sticky.toNat ∧ x.word busy / 64 % 2 = x.ovr.toNat ∧ x.word busy / 128 = busy.toNat ∧
    x.err.code ≤ 5

/-! ### The whole machine -/

/-- Nothing stops the block: every command ends with `BUSY = 0`, and every step of every state answers a next state
(60_exceptions.md R150, R154; 10_state.md R29). This rests on two choices of the model: it runs a read of an unset register, which
10_state.md R22 would make a model fault (log entry 4), and it takes an access to a reserved address, which 20_memory.md R45 would
have a model refuse (log entry 10). -/
def Obligations.EveryStepAnswersANextState : Prop :=
  (∀ (i : Instr) (s : State), ∃ t, exec i s = .next t ∧ t.busy = false) ∧ ∀ s : State, ∃ t, step s = .next t

/-- Every step keeps the invariant: every V register an `M`-bit value, every S register a `W`-bit one, one set-mark a word,
a legal instance, a `W`-bit value in flight (10_state.md R20, R21, R22; 00_scope.md R7, R13). -/
def Obligations.StepKeepsRegistersInRange : Prop :=
  ∀ s t : State, s.wf → step s = .next t → t.wf

/-- The invariant holds after reset of every legal instance, `State.reset` among them (the register values 0 are the model's
choice, log entries 1 to 3). -/
def Obligations.ResetStateIsInRange : Prop :=
  (∀ p : Params, p.legal → (State.resetOf p).wf) ∧ State.reset.wf

/-- R152: a command word, legal or not, that ends with a fault's code writes no V or S register, and STATUS as the rule gives
it. -/
def Obligations.FaultWritesNoRegister : Prop :=
  (∀ (i : Instr) (s t : State), exec i s = .next t → t.status.err.isFault = true → Faulted s t t.status.err) ∧
  ∀ (x : Nat) (s t : State), runCommand x s = .next t → t.status.err.isFault = true → Faulted s t t.status.err

/-- The conditions, the commands that raise them and their priority (60_exceptions.md R151, R153; 30_encoding.md R70). -/
def Obligations.ConditionsAreReportedWithTheirCodes : Prop :=
  ∀ (i : Instr) (s t : State), exec i s = .next t →
    (t.status.err = .illegalCommand ↔ ¬ i.wellFormed) ∧
    (t.status.err = .improperArgument ↔
      (∃ d a b, (i = .vldw d a b ∨ i = .vstw d a b ∨ i = .vaddo d a b ∨ i = .vsubo d a b) ∧ s.N ≤ s.S b) ∨
      ∃ d b, (i = .vgetb d b ∨ i = .vsetb d b) ∧ s.M ≤ s.S b) ∧
    (t.status.err = .divByZero ↔ i.wellFormed ∧
      ((∃ d b c, i = .vdivw d b c ∧ s.S b = 0) ∨ (∃ d b c g, i = .vdiv d b c g ∧ s.V b = 0) ∨
        ∃ d c a b e, i = .wdiv d c a b e ∧ s.S e = 0)) ∧
    (t.status.err = .divideFault ↔ i.wellFormed ∧ ∃ d c a b e, i = .wdiv d c a b e ∧ 0 < s.S e ∧ s.S e ≤ s.S a) ∧
    (t.status.err = .overflow ↔ i.isArithmetic = true ∧ t.status.err.isFault = false ∧ t.status.st = true)

/-- CLRST is the only command that clears STICKY and OVR, and besides it only reset does (40_transfer.md R84). -/
def Obligations.OnlyClrstAndResetClearTheRecord : Prop :=
  ∀ s t : State, step s = .next t →
    (s.status.sticky = true ∧ t.status.sticky = false ∨ s.status.ovr = true ∧ t.status.ovr = false) →
    ResetNext s ∨ CompletesNext s .clrst

/-- ZF is 1 exactly after a VFLB, VFTB or VNORM of a zero operand, and 0 after every other command (10_state.md R25). -/
def Obligations.ZfOnlyMarksAZeroScan : Prop :=
  ∀ (i : Instr) (s t : State), exec i s = .next t →
    (t.status.zf = true ↔ i.wellFormed ∧
      ((∃ d c a, (i = .vflb d c a ∨ i = .vftb d c a) ∧ s.V a = 0) ∨ ∃ d c, i = .vnorm d c ∧ s.V d = 0))

/-- Every command changes at most its destinations and STATUS, and OVR only CLRST changes (60_exceptions.md R154;
10_state.md R25). -/
def Obligations.CommandChangesOnlyItsDestinations : Prop :=
  ∀ (i : Instr) (s t : State), exec i s = .next t →
    Frame s t i.vWrites i.sWrites ∧ (i ≠ .clrst → t.status.ovr = s.status.ovr)

/-- A V register changes only as a destination of the command that completes, or by reset; an S register so, or by the host's
write of it while `BUSY = 0`. It becomes set only so, and by a command only when every operand of the command is set
(10_state.md R20, R21, R22; 20_memory.md R52; 70_reset_and_hazards.md R172). That what a command with an unset operand changed is
not set after it, whatever it was before, is the model's reading of R172 (log entry 23). -/
def Obligations.RegistersChangeOnlyByCommandHostWriteOrReset : Prop :=
  ∀ s t : State, step s = .next t →
    (∀ r : VReg, t.V r ≠ s.V r → ResetNext s ∨ ∃ i, CompletesNext s i ∧ r ∈ i.vWrites) ∧
    (∀ r : SReg, t.S r ≠ s.S r → ResetNext s ∨ (∃ i, CompletesNext s i ∧ r ∈ i.sWrites) ∨
      s.busy = false ∧ ∃ x rest, s.turns = .host (.write (8 + r.val) x) :: rest) ∧
    (∀ (r : VReg) (j : Nat), s.wordIsSet r j = false → t.wordIsSet r j = true →
      ∃ i, CompletesNext s i ∧ r ∈ i.vWrites ∧ operandsSet i s = true) ∧
    (∀ r : SReg, s.sIsSet r = false → t.sIsSet r = true →
      (∃ i, CompletesNext s i ∧ r ∈ i.sWrites ∧ operandsSet i s = true) ∨
      s.busy = false ∧ ∃ x rest, s.turns = .host (.write (8 + r.val) x) :: rest) ∧
    ∀ i, s.wf → CompletesNext s i → operandsSet i s = false →
      (∀ r j, t.word r j ≠ s.word r j → t.wordIsSet r j = false) ∧ ∀ r, t.S r ≠ s.S r → t.sIsSet r = false

/-- What the block does not fix never shows: from two states that differ at most in the values of unset registers, a step
that keeps the contract leads to two states that again differ at most there, with equal STATUS, equal set registers and equal
values returned to the host (10_state.md R22; 70_reset_and_hazards.md R172). -/
def Obligations.UnsetValuesNeverShowInAContractStep : Prop :=
  ∀ s t : State, s.wf → t.wf → Agree s t → stepInContract s = true →
    ∃ s' t', step s = .next s' ∧ step t = .next t' ∧ Agree s' t'

/-- Every issued command ends: within one step more than there are turns left, the block is idle (70_reset_and_hazards.md
R176). -/
def Obligations.EveryIssuedCommandEnds : Prop :=
  ∀ (s : State) (x : Nat), s.inFlight = some x →
    ∃ k t, k ≤ s.turns.length + 1 ∧ core.run k s = .next t ∧ t.busy = false

/-- Issue and completion as two steps with any number of host reads between them leave what the completion alone leaves, but
for the host's own record of its reads (70_reset_and_hazards.md R173; 20_memory.md R48). -/
def Obligations.ReadsBetweenIssueAndCompletionChangeNothing : Prop :=
  ∀ (s : State) (x : Nat) (addrs : List Nat) (rest : List Turn), s.inFlight = some x →
    s.turns = addrs.map (fun a => .host (.read a)) ++ .engine :: rest →
    ∃ t t', core.run (addrs.length + 1) s = .next t ∧ step { s with turns := .engine :: rest } = .next t' ∧
      t = { t' with reads := t.reads } ∧ t.reads.length = s.reads.length + addrs.length

/-! ### Transfer and status commands -/

/-- R80, R83: VSET widens a word, VMOV copies a value. -/
def Obligations.VsetWidensAndVmovCopies : Prop :=
  ∀ s : State, s.wf →
    (∀ (d : VReg) (a : SReg), decode (assemble 0x01 d a 0 0 0 0 0) = .ok (.vset d a) ∧
      ∃ t, exec (.vset d a) s = .next t ∧ SetsV t d (s.S a) (operandsSet (.vset d a) s) ∧
        Completed s t .plain false false ∧ Frame s t [d] []) ∧
    (∀ d a : VReg, decode (assemble 0x04 d a 0 0 0 0 0) = .ok (.vmov d a) ∧
      ∃ t, exec (.vmov d a) s = .next t ∧ SetsV t d (s.V a) (operandsSet (.vmov d a) s) ∧
        Completed s t .plain false false ∧ Frame s t [d] [])

/-- R81: VLDW writes one word of a V register and sets that word only, if its operands are set; an index `≥ N` is
IMPROPER_ARGUMENT. -/
def Obligations.VldwWritesOneWord : Prop :=
  ∀ (s : State) (d : VReg) (a b : SReg), s.wf →
    decode (assemble 0x02 d a b 0 0 0 0) = .ok (.vldw d a b) ∧
    (s.S b < s.N → ∃ t, exec (.vldw d a b) s = .next t ∧
      t.word d (s.S b) = s.S a ∧ (operandsSet (.vldw d a b) s = true → t.wordIsSet d (s.S b) = true) ∧
      (∀ j, j ≠ s.S b → t.word d j = s.word d j ∧ t.wordIsSet d j = s.wordIsSet d j) ∧
      Completed s t .plain false false ∧ Frame s t [d] []) ∧
    (s.N ≤ s.S b → ∃ t, exec (.vldw d a b) s = .next t ∧ Faulted s t .improperArgument)

/-- R82: VSTW reads one word of a V register; an index `≥ N` is IMPROPER_ARGUMENT. -/
def Obligations.VstwReadsOneWord : Prop :=
  ∀ (s : State) (d : SReg) (a : VReg) (b : SReg),
    decode (assemble 0x03 d a b 0 0 0 0) = .ok (.vstw d a b) ∧
    (s.S b < s.N → ∃ t, exec (.vstw d a b) s = .next t ∧
      SetsS t d (s.V a / 2 ^ (s.W * s.S b) % 2 ^ s.W) (operandsSet (.vstw d a b) s) ∧ Completed s t .plain false false ∧
        Frame s t [] [d]) ∧
    (s.N ≤ s.S b → ∃ t, exec (.vstw d a b) s = .next t ∧ Faulted s t .improperArgument)

/-- The effect of CLRST, which overrides the general update of STATUS (40_transfer.md R84). -/
def Obligations.ClrstClearsStatus : Prop :=
  decode 0x14000000 = .ok .clrst ∧
  ∀ s : State, ∃ t, exec .clrst s = .next t ∧ t.status.word t.busy = 0 ∧ Frame s t [] []

/-! ### WordOps -/

/-- R90, R91: WADD and WSUB, with carry and borrow. -/
def Obligations.WaddAndWsubGiveResultAndCarry : Prop :=
  ∀ (s : State) (d a b : SReg) (ci : CarryIn),
    decode (assemble 0x08 d a b 0 0 (encodeCarryIn ci) 0) = .ok (.wadd d a b ci) ∧
    (∃ t, exec (.wadd d a b ci) s = .next t ∧
      SetsS t d ((s.S a + s.S b + (s.carryIn ci).toNat) % 2 ^ s.W) (operandsSet (.wadd d a b ci) s) ∧
      Completed s t .arithmetic (decide (2 ^ s.W ≤ s.S a + s.S b + (s.carryIn ci).toNat)) false ∧ Frame s t [] [d]) ∧
    decode (assemble 0x09 d a b 0 0 (encodeCarryIn ci) 0) = .ok (.wsub d a b ci) ∧
    ∃ t x, exec (.wsub d a b ci) s = .next t ∧ SetsS t d x (operandsSet (.wsub d a b ci) s) ∧
      (x : Int) = ((s.S a : Int) - s.S b - (s.carryIn ci).toNat) % 2 ^ s.W ∧
      Completed s t .arithmetic (decide ((s.S a : Int) - s.S b - (s.carryIn ci).toNat < 0)) false ∧ Frame s t [] [d]

/-- R92: WMUL gives the exact double-word product; D = C is ILLEGAL_COMMAND. -/
def Obligations.WmulGivesTheDoubleWordProduct : Prop :=
  ∀ (s : State) (d c a b : SReg), s.wf →
    (d ≠ c → decode (assemble 0x0A d a b c 0 0 0) = .ok (.wmul d c a b) ∧
      ∃ t, exec (.wmul d c a b) s = .next t ∧ SetsS t d (s.S a * s.S b / 2 ^ s.W) (operandsSet (.wmul d c a b) s) ∧
        SetsS t c (s.S a * s.S b % 2 ^ s.W) (operandsSet (.wmul d c a b) s) ∧ Completed s t .plain false false ∧
          Frame s t [] [d, c]) ∧
    (d = c → ∃ t, exec (.wmul d c a b) s = .next t ∧ Faulted s t .illegalCommand)

/-- R93: WDIV divides a double word when the quotient fits one word, which is when the high word is below the divisor, and
reports DIV_BY_ZERO, DIVIDE_FAULT or ILLEGAL_COMMAND otherwise. -/
def Obligations.WdivDividesADoubleWord : Prop :=
  ∀ (s : State) (d c a b e : SReg), s.wf →
    (d ≠ c → decode (assemble 0x0B d a b c e 0 0) = .ok (.wdiv d c a b e)) ∧
    (d ≠ c → s.S a < s.S e →
      ∃ t, exec (.wdiv d c a b e) s = .next t ∧
        SetsS t d ((s.S a * 2 ^ s.W + s.S b) / s.S e) (operandsSet (.wdiv d c a b e) s) ∧
        SetsS t c ((s.S a * 2 ^ s.W + s.S b) % s.S e) (operandsSet (.wdiv d c a b e) s) ∧
          Completed s t .plain false false ∧ Frame s t [] [d, c]) ∧
    (d ≠ c → s.S e = 0 → ∃ t, exec (.wdiv d c a b e) s = .next t ∧ Faulted s t .divByZero) ∧
    (d ≠ c → 0 < s.S e → s.S e ≤ s.S a → ∃ t, exec (.wdiv d c a b e) s = .next t ∧ Faulted s t .divideFault) ∧
    (d = c → ∃ t, exec (.wdiv d c a b e) s = .next t ∧ Faulted s t .illegalCommand) ∧
    (0 < s.S e → ((s.S a * 2 ^ s.W + s.S b) / s.S e < 2 ^ s.W ↔ s.S a < s.S e))

/-! ### Multi-word add and subtract -/

/-- R100, R101: VADD and VSUB, with carry and borrow. -/
def Obligations.VaddAndVsubGiveResultAndCarry : Prop :=
  ∀ (s : State) (d b : VReg) (ci : CarryIn),
    decode (assemble 0x10 d 0 b 0 0 (encodeCarryIn ci) 0) = .ok (.vadd d b ci) ∧
    (∃ t, exec (.vadd d b ci) s = .next t ∧
      SetsV t d ((s.V d + s.V b + (s.carryIn ci).toNat) % 2 ^ s.M) (operandsSet (.vadd d b ci) s) ∧
      Completed s t .arithmetic (decide (2 ^ s.M ≤ s.V d + s.V b + (s.carryIn ci).toNat)) false ∧ Frame s t [d] []) ∧
    decode (assemble 0x11 d 0 b 0 0 (encodeCarryIn ci) 0) = .ok (.vsub d b ci) ∧
    ∃ t x, exec (.vsub d b ci) s = .next t ∧ SetsV t d x (operandsSet (.vsub d b ci) s) ∧
      (x : Int) = ((s.V d : Int) - s.V b - (s.carryIn ci).toNat) % 2 ^ s.M ∧
      Completed s t .arithmetic (decide ((s.V d : Int) - s.V b - (s.carryIn ci).toNat < 0)) false ∧ Frame s t [d] []

/-- R102, R103: VADDO and VSUBO apply a one-word delta at a word index, and the words below it are unchanged; an index `≥ N`
is IMPROPER_ARGUMENT. -/
def Obligations.VaddoAndVsuboRippleOnlyUpward : Prop :=
  ∀ (s : State) (d : VReg) (a b : SReg),
    decode (assemble 0x12 d a b 0 0 0 0) = .ok (.vaddo d a b) ∧
    decode (assemble 0x13 d a b 0 0 0 0) = .ok (.vsubo d a b) ∧
    (s.S b < s.N →
      (∃ t, exec (.vaddo d a b) s = .next t ∧
        SetsV t d ((s.V d + s.S a * 2 ^ (s.W * s.S b)) % 2 ^ s.M) (operandsSet (.vaddo d a b) s) ∧
        (∀ j, j < s.S b → t.word d j = s.word d j) ∧
        Completed s t .arithmetic (decide (2 ^ s.M ≤ s.V d + s.S a * 2 ^ (s.W * s.S b))) false ∧ Frame s t [d] []) ∧
      ∃ t x, exec (.vsubo d a b) s = .next t ∧ SetsV t d x (operandsSet (.vsubo d a b) s) ∧
        (x : Int) = ((s.V d : Int) - s.S a * 2 ^ (s.W * s.S b)) % 2 ^ s.M ∧
        (∀ j, j < s.S b → t.word d j = s.word d j) ∧
        Completed s t .arithmetic (decide ((s.V d : Int) < s.S a * 2 ^ (s.W * s.S b))) false ∧ Frame s t [d] []) ∧
    (s.N ≤ s.S b → (∃ t, exec (.vaddo d a b) s = .next t ∧ Faulted s t .improperArgument) ∧
      ∃ t, exec (.vsubo d a b) s = .next t ∧ Faulted s t .improperArgument)

/-- R105: VADD commutes, flags included, and associates, with the aggregate carry in STICKY. -/
def Obligations.VaddCommutesAndAssociates : Prop :=
  (∀ (s s' : State) (d b : VReg) (ci : CarryIn), s'.params = s.params → s'.status = s.status →
    s'.V d = s.V b → s'.V b = s.V d →
    ∃ t t', exec (.vadd d b ci) s = .next t ∧ exec (.vadd d b ci) s' = .next t' ∧ t'.V d = t.V d ∧
      t'.status = t.status) ∧
  ∀ (s : State) (x y z : VReg), s.wf → x ≠ y → y ≠ z → x ≠ z → s.status.sticky = false →
    ∃ t₁ t₂ u₁ u₂, exec (.vadd x y .zero) s = .next t₁ ∧ exec (.vadd x z .zero) t₁ = .next t₂ ∧
      exec (.vadd y z .zero) s = .next u₁ ∧ exec (.vadd x y .zero) u₁ = .next u₂ ∧ t₂.V x = u₂.V x ∧
      t₂.status.sticky = decide (2 ^ s.M ≤ s.V x + s.V y + s.V z) ∧ u₂.status.sticky = t₂.status.sticky

/-! ### Shifts, scans, bits, logic -/

/-- R111: VSHL in its closed form, for every count. -/
def Obligations.VshlShiftsWithFill : Prop :=
  ∀ (s : State) (d : VReg) (b : SReg) (ci : CarryIn), s.wf →
    decode (assemble 0x18 d 0 b 0 0 (encodeCarryIn ci) 0) = .ok (.vshl d b ci) ∧
    ∃ t, exec (.vshl d b ci) s = .next t ∧ Frame s t [d] [] ∧
      (s.S b = 0 → SetsV t d (s.V d) (operandsSet (.vshl d b ci) s) ∧ Completed s t .plain false false) ∧
      (0 < s.S b → s.S b ≤ s.M →
        SetsV t d ((s.V d <<< s.S b) % 2 ^ s.M ||| (s.carryIn ci).toNat * (2 ^ s.S b - 1)) (operandsSet (.vshl d b ci) s) ∧
        Completed s t .plain ((s.V d).testBit (s.M - s.S b)) false) ∧
      (s.M < s.S b → SetsV t d ((s.carryIn ci).toNat * (2 ^ s.M - 1)) (operandsSet (.vshl d b ci) s) ∧
        Completed s t .plain (s.carryIn ci) false)

/-- R112: VSHR in its closed form, for every count. -/
def Obligations.VshrShiftsWithFill : Prop :=
  ∀ (s : State) (d : VReg) (b : SReg) (ci : CarryIn), s.wf →
    decode (assemble 0x19 d 0 b 0 0 (encodeCarryIn ci) 0) = .ok (.vshr d b ci) ∧
    ∃ t, exec (.vshr d b ci) s = .next t ∧ Frame s t [d] [] ∧
      (s.S b = 0 → SetsV t d (s.V d) (operandsSet (.vshr d b ci) s) ∧ Completed s t .plain false false) ∧
      (0 < s.S b → s.S b ≤ s.M →
        SetsV t d ((s.V d >>> s.S b) ||| (s.carryIn ci).toNat * (2 ^ s.S b - 1) * 2 ^ (s.M - s.S b)) (operandsSet (.vshr d b ci) s) ∧
        Completed s t .plain ((s.V d).testBit (s.S b - 1)) false) ∧
      (s.M < s.S b → SetsV t d ((s.carryIn ci).toNat * (2 ^ s.M - 1)) (operandsSet (.vshr d b ci) s) ∧
        Completed s t .plain (s.carryIn ci) false)

/-- The closed forms of the shifts (43_shift_scan_logic.md R111, R112) are the `k` one-bit steps that define them (R110), for
every count and fill. -/
def Obligations.ShiftClosedFormsAreTheNaiveRepetition : Prop :=
  ∀ (M v k : Nat) (c : Bool), 0 < M → v < 2 ^ M →
    shiftLeftC M v k c = shiftLeftNaive M v k c ∧ shiftRightC M v k c = shiftRightNaive M v k c

/-- R113: the shifts computed as whole-word moves and a sub-word remainder give the result and ST of R110, for every count and
fill. -/
def Obligations.ShiftByWordMovesAgrees : Prop :=
  ∀ (W N v k : Nat) (c : Bool), 0 < W → 0 < N → v < 2 ^ (N * W) →
    shiftLeftByWords W (N * W) v k c = shiftLeftNaive (N * W) v k c ∧
    shiftRightByWords W (N * W) v k c = shiftRightNaive (N * W) v k c

/-- R114: VSHL.c0 then VSHR.c0 by the same `k < M` keeps the low `M − k` bits. -/
def Obligations.ShiftRoundTripKeepsTheLowBits : Prop :=
  ∀ (s : State) (d : VReg) (b : SReg), s.wf → s.S b < s.M →
    ∃ t u, exec (.vshl d b .zero) s = .next t ∧ exec (.vshr d b .zero) t = .next u ∧
      u.V d = s.V d % 2 ^ (s.M - s.S b)

/-- R115, R116: the scans give the word index and bit index of the leading and of the lowest bit; on a zero operand they
write no register and set ZF; D = C is ILLEGAL_COMMAND. -/
def Obligations.ScansFindLeadingAndLowestBit : Prop :=
  ∀ (s : State) (d c : SReg) (a : VReg), s.wf →
    (d ≠ c → decode (assemble 0x1A d a 0 c 0 0 0) = .ok (.vflb d c a) ∧
      decode (assemble 0x1B d a 0 c 0 0 0) = .ok (.vftb d c a) ∧
      (s.V a ≠ 0 →
        (∃ t j, exec (.vflb d c a) s = .next t ∧ IsLeadingBit (s.V a) j ∧ SetsS t d (j / s.W) (operandsSet (.vflb d c a) s) ∧
          SetsS t c (j % s.W) (operandsSet (.vflb d c a) s) ∧ Completed s t .plain false false ∧ Frame s t [] [d, c]) ∧
        ∃ t j, exec (.vftb d c a) s = .next t ∧ IsLowestBit (s.V a) j ∧ SetsS t d (j / s.W) (operandsSet (.vftb d c a) s) ∧
          SetsS t c (j % s.W) (operandsSet (.vftb d c a) s) ∧ Completed s t .plain false false ∧ Frame s t [] [d, c]) ∧
      (s.V a = 0 →
        (∃ t, exec (.vflb d c a) s = .next t ∧ Completed s t .plain false true ∧ Frame s t [] []) ∧
        ∃ t, exec (.vftb d c a) s = .next t ∧ Completed s t .plain false true ∧ Frame s t [] [])) ∧
    (d = c → (∃ t, exec (.vflb d c a) s = .next t ∧ Faulted s t .illegalCommand) ∧
      ∃ t, exec (.vftb d c a) s = .next t ∧ Faulted s t .illegalCommand)

/-- R117, R118: VGETB reads a bit into ST; VSETB sets a bit and gives its previous value; an index `≥ M` is
IMPROPER_ARGUMENT. -/
def Obligations.VgetbAndVsetbGiveTheBit : Prop :=
  ∀ (s : State) (d : VReg) (b : SReg), s.wf →
    decode (assemble 0x1C 0 d b 0 0 0 0) = .ok (.vgetb d b) ∧ decode (assemble 0x1D d 0 b 0 0 0 0) = .ok (.vsetb d b) ∧
    (s.S b < s.M →
      (∃ t, exec (.vgetb d b) s = .next t ∧ Completed s t .plain ((s.V d).testBit (s.S b)) false ∧ Frame s t [] []) ∧
      ∃ t, exec (.vsetb d b) s = .next t ∧ SetsV t d (s.V d ||| 2 ^ s.S b) (operandsSet (.vsetb d b) s) ∧
        Completed s t .plain ((s.V d).testBit (s.S b)) false ∧ Frame s t [d] []) ∧
    (s.M ≤ s.S b → (∃ t, exec (.vgetb d b) s = .next t ∧ Faulted s t .improperArgument) ∧
      ∃ t, exec (.vsetb d b) s = .next t ∧ Faulted s t .improperArgument)

/-- R119: VNORM shifts the leading bit to the top of the value and gives the amount; a zero operand stays 0 with amount 0 and
ZF = 1. -/
def Obligations.VnormMovesTheLeadingBitToTheTop : Prop :=
  ∀ (s : State) (d : VReg) (c : SReg), s.wf →
    decode (assemble 0x1E d 0 0 c 0 0 0) = .ok (.vnorm d c) ∧
    (s.V d ≠ 0 → ∃ t j, exec (.vnorm d c) s = .next t ∧ IsLeadingBit (s.V d) j ∧
      SetsV t d (s.V d * 2 ^ (s.M - 1 - j)) (operandsSet (.vnorm d c) s) ∧ IsLeadingBit (t.V d) (s.M - 1) ∧
        SetsS t c (s.M - 1 - j) (operandsSet (.vnorm d c) s) ∧
      Completed s t .plain false false ∧ Frame s t [d] [c]) ∧
    (s.V d = 0 → ∃ t, exec (.vnorm d c) s = .next t ∧ SetsS t c 0 (operandsSet (.vnorm d c) s) ∧
      Completed s t .plain false true ∧ Frame s t [] [c])

/-- R120 to R123: VAND, VOR, VXOR and VNOT, bit by bit over all `M` bits. -/
def Obligations.LogicActsBitByBit : Prop :=
  ∀ (s : State) (d b : VReg), s.wf →
    (decode (assemble 0x20 d 0 b 0 0 0 0) = .ok (.vand d b) ∧
      ∃ t x, exec (.vand d b) s = .next t ∧ SetsV t d x (operandsSet (.vand d b) s) ∧
        (∀ j, x.testBit j = ((s.V d).testBit j && (s.V b).testBit j)) ∧
        Completed s t .plain false false ∧ Frame s t [d] []) ∧
    (decode (assemble 0x21 d 0 b 0 0 0 0) = .ok (.vor d b) ∧
      ∃ t x, exec (.vor d b) s = .next t ∧ SetsV t d x (operandsSet (.vor d b) s) ∧
        (∀ j, x.testBit j = ((s.V d).testBit j || (s.V b).testBit j)) ∧
        Completed s t .plain false false ∧ Frame s t [d] []) ∧
    (decode (assemble 0x22 d 0 b 0 0 0 0) = .ok (.vxor d b) ∧
      ∃ t x, exec (.vxor d b) s = .next t ∧ SetsV t d x (operandsSet (.vxor d b) s) ∧
        (∀ j, x.testBit j = ((s.V d).testBit j ^^ (s.V b).testBit j)) ∧
        Completed s t .plain false false ∧ Frame s t [d] []) ∧
    decode (assemble 0x23 d 0 0 0 0 0 0) = .ok (.vnot d) ∧
    ∃ t x, exec (.vnot d) s = .next t ∧ SetsV t d x (operandsSet (.vnot d) s) ∧ x = 2 ^ s.M - 1 - s.V d ∧
      (∀ j, x.testBit j = (decide (j < s.M) && !(s.V d).testBit j)) ∧
      Completed s t .plain false false ∧ Frame s t [d] []

/-- R124: VNOTM complements the bits at or below the leading bit, leaves 0 for 0, and its result is below the leading bit's
weight. -/
def Obligations.VnotmComplementsBelowTheLeadingBit : Prop :=
  ∀ (s : State) (d : VReg), s.wf →
    decode (assemble 0x24 d 0 0 0 0 0 0) = .ok (.vnotm d) ∧
    (s.V d ≠ 0 → ∃ t j, exec (.vnotm d) s = .next t ∧ IsLeadingBit (s.V d) j ∧
      SetsV t d (s.V d ^^^ (2 ^ (j + 1) - 1)) (operandsSet (.vnotm d) s) ∧ t.V d < 2 ^ j ∧
        Completed s t .plain false false ∧ Frame s t [d] []) ∧
    (s.V d = 0 → ∃ t, exec (.vnotm d) s = .next t ∧ SetsV t d 0 (operandsSet (.vnotm d) s) ∧
      Completed s t .plain false false ∧ Frame s t [d] [])

/-! ### Multiplication -/

/-- The results of VMULW and VMUL: the product narrowed in place, ST = 1 iff the part above bit `M − 1` is non-zero, whatever
ALG is (44_multiply.md R130, R133, R134). -/
def Obligations.VmulwAndVmulNarrowTheProduct : Prop :=
  ∀ s : State,
    (∀ (d : VReg) (b : SReg), decode (assemble 0x28 d 0 b 0 0 0 0) = .ok (.vmulw d b) ∧
      ∃ t, exec (.vmulw d b) s = .next t ∧ SetsV t d (s.V d * s.S b % 2 ^ s.M) (operandsSet (.vmulw d b) s) ∧
        Completed s t .arithmetic (decide (s.V d * s.S b / 2 ^ s.M ≠ 0)) false ∧ Frame s t [d] []) ∧
    (∀ (d b : VReg) (g : MulAlg), decode (assemble 0x2A d 0 b 0 0 0 (encodeMulAlg g)) = .ok (.vmul d b g) ∧
      ∃ t, exec (.vmul d b g) s = .next t ∧ SetsV t d (s.V d * s.V b % 2 ^ s.M) (operandsSet (.vmul d b g) s) ∧
        Completed s t .arithmetic (decide (s.V d * s.V b / 2 ^ s.M ≠ 0)) false ∧ Frame s t [d] [])

/-- R131, R132: VMULD writes the exact double-width product, which always fits, to the pair; D odd is ILLEGAL_COMMAND, and so
is `ALG = 0b11`. -/
def Obligations.VmuldWritesTheExactProductToThePair : Prop :=
  ∀ (s : State) (d a b : VReg) (g : MulAlg), s.wf →
    (d.val % 2 = 0 → decode (assemble 0x29 d a b 0 0 0 (encodeMulAlg g)) = .ok (.vmuld d a b g) ∧
      ∃ t, exec (.vmuld d a b g) s = .next t ∧ SetsV t d (s.V a * s.V b % 2 ^ s.M) (operandsSet (.vmuld d a b g) s) ∧
        SetsV t (d + 1) (s.V a * s.V b / 2 ^ s.M) (operandsSet (.vmuld d a b g) s) ∧
          t.V d + t.V (d + 1) * 2 ^ s.M = s.V a * s.V b ∧
        Completed s t .plain false false ∧ Frame s t [d, d + 1] []) ∧
    (d.val % 2 = 1 → ∃ t, exec (.vmuld d a b g) s = .next t ∧ Faulted s t .illegalCommand) ∧
    s.V a * s.V b ≤ (2 ^ s.M - 1) ^ 2 ∧ s.V a * s.V b < 2 ^ (2 * s.M) ∧
    ∃ why, decode (assemble 0x29 d a b 0 0 0 3) = .error why

/-- R104: VADD, VSUB, VADDO and VSUBO are, result and ST, the word-serial ripples over WordOps; and those ripples are the exact
sums and differences. -/
def Obligations.RippleAddAndSubtractAreExact : Prop :=
  (∀ (s : State) (d b : VReg) (ci : CarryIn), s.wf →
    (∃ t, exec (.vadd d b ci) s = .next t ∧
      (t.V d, t.status.st) = rippleAdd s.W (s.V d) (s.V b) s.N 0 (s.carryIn ci)) ∧
    ∃ t, exec (.vsub d b ci) s = .next t ∧
      (t.V d, t.status.st) = rippleSub s.W (s.V d) (s.V b) s.N 0 (s.carryIn ci)) ∧
  (∀ (s : State) (d : VReg) (a b : SReg), s.wf → s.S b < s.N →
    (∃ t, exec (.vaddo d a b) s = .next t ∧
      (t.V d, t.status.st) = rippleAddAt s.W s.N (s.V d) (s.S a) (s.S b)) ∧
    ∃ t, exec (.vsubo d a b) s = .next t ∧
      (t.V d, t.status.st) = rippleSubAt s.W s.N (s.V d) (s.S a) (s.S b)) ∧
  ∀ (W N x y : Nat), x < 2 ^ (W * N) → y < 2 ^ (W * N) →
    (∀ c : Bool,
      rippleAdd W x y N 0 c = ((x + y + c.toNat) % 2 ^ (W * N), decide (2 ^ (W * N) ≤ x + y + c.toNat)) ∧
      rippleSub W x y N 0 c
        = ((((x : Int) - y - c.toNat) % 2 ^ (W * N)).toNat, decide ((x : Int) - y - c.toNat < 0))) ∧
    ∀ delta i, delta < 2 ^ W → i < N →
      rippleAddAt W N x delta i
        = ((x + delta * 2 ^ (W * i)) % 2 ^ (W * N), decide (2 ^ (W * N) ≤ x + delta * 2 ^ (W * i))) ∧
      rippleSubAt W N x delta i
        = ((((x : Int) - delta * 2 ^ (W * i)) % 2 ^ (W * N)).toNat, decide ((x : Int) < delta * 2 ^ (W * i)))

/-- The word-serial forms of VMULW and VDIVW give the product with its carry word, and the quotient with its remainder
(44_multiply.md R130; 45_divide.md R140). -/
def Obligations.WordSerialMultiplyAndDivideAreExact : Prop :=
  ∀ (W N x b : Nat), x < 2 ^ (W * N) → b < 2 ^ W →
    mulWordSerial W x b N 0 0 = (x * b % 2 ^ (W * N), x * b / 2 ^ (W * N)) ∧
    (0 < b → divWordSerial W x b N 0 = (x / b, x % b))

/-- Schoolbook multiplication of `n`-word operands is the exact product (44_multiply.md R135, R131). -/
def Obligations.SchoolbookIsTheProduct : Prop :=
  ∀ (W n a b : Nat), 0 < W → a < 2 ^ (W * n) → b < 2 ^ (W * n) → schoolbook W n a b = a * b

/-- Karatsuba multiplication is the exact product at every threshold, and so is the product by every ALG on every legal
instance (44_multiply.md R134, R136, R137). -/
def Obligations.EveryMultiplyAlgorithmGivesTheProduct : Prop :=
  (∀ (W kt n a b : Nat), 0 < W → 3 ≤ kt → a < 2 ^ (W * n) → b < 2 ^ (W * n) → karatsuba W kt n n a b = a * b) ∧
  ∀ (p : Params) (g : MulAlg) (a b : Nat), p.legal → a < 2 ^ p.M → b < 2 ^ p.M → mulByAlg p g a b = a * b

/-! ### Division -/

/-- R140: VDIVW divides in place by a word and gives the remainder word; a zero divisor is DIV_BY_ZERO. -/
def Obligations.VdivwDividesByAWord : Prop :=
  ∀ (s : State) (d : VReg) (b c : SReg), s.wf →
    decode (assemble 0x30 d 0 b c 0 0 0) = .ok (.vdivw d b c) ∧
    (s.S b ≠ 0 → ∃ t, exec (.vdivw d b c) s = .next t ∧ SetsV t d (s.V d / s.S b) (operandsSet (.vdivw d b c) s) ∧
      SetsS t c (s.V d % s.S b) (operandsSet (.vdivw d b c) s) ∧
      Completed s t .plain false false ∧ Frame s t [d] [c]) ∧
    (s.S b = 0 → ∃ t, exec (.vdivw d b c) s = .next t ∧ Faulted s t .divByZero)

/-- R142, R143: VDIV gives the one pair of quotient and remainder that the identity of R143 allows, whatever ALG is; a zero
divisor is DIV_BY_ZERO there and in VDIVW, C = D is ILLEGAL_COMMAND, and so is `ALG = 0b11`. -/
def Obligations.VdivGivesQuotientAndRemainder : Prop :=
  ∀ (s : State) (d b c : VReg) (g : DivAlg), s.wf →
    (d ≠ c → decode (assemble 0x31 d 0 b c 0 0 (encodeDivAlg g)) = .ok (.vdiv d b c g)) ∧
    (d ≠ c → s.V b ≠ 0 → ∃ t, exec (.vdiv d b c g) s = .next t ∧ SetsV t d (s.V d / s.V b) (operandsSet (.vdiv d b c g) s) ∧
      SetsV t c (s.V d % s.V b) (operandsSet (.vdiv d b c g) s) ∧ s.V d = t.V d * s.V b + t.V c ∧ t.V c < s.V b ∧
      (∀ q r, s.V d = q * s.V b + r → r < s.V b → q = t.V d ∧ r = t.V c) ∧
      Completed s t .plain false false ∧ Frame s t [d, c] []) ∧
    (d ≠ c → s.V b = 0 → ∃ t, exec (.vdiv d b c g) s = .next t ∧ Faulted s t .divByZero) ∧
    (d = c → ∃ t, exec (.vdiv d b c g) s = .next t ∧ Faulted s t .illegalCommand) ∧
    (∀ k q : SReg, s.S k = 0 → ∃ t, exec (.vdivw d k q) s = .next t ∧ Faulted s t .divByZero) ∧
    ∃ why, decode (assemble 0x31 d 0 b c 0 0 3) = .error why

/-- Restoring and leading-bit-alignment division give the exact quotient and remainder (45_divide.md R144, R145). -/
def Obligations.RestoringAndAlignmentDivisionAreExact : Prop :=
  ∀ (M x d : Nat), x < 2 ^ M → 0 < d →
    restoringFrom x d M 0 0 = (x / d, x % d) ∧ alignFrom d M 0 x = (x / d, x % d)

/-- Knuth's Algorithm D, with at most two corrections of each estimate, gives the exact quotient and remainder for every divisor
of two or more words (45_divide.md R146; the cap of the estimate is general knowledge by the spec's own mark, log entry 18). -/
def Obligations.KnuthDivisionIsExact : Prop :=
  ∀ (W N x d : Nat), 0 < W → x < 2 ^ (W * N) → 2 ^ W ≤ d → d < 2 ^ (W * N) → knuth W N x d = (x / d, x % d)

/-- Every division algorithm, after the common pre-checks, gives the quotient and remainder that VDIV writes, and the
DivisionByZero for a zero divisor (45_divide.md R141, R143). -/
def Obligations.EveryDivisionAlgorithmAgrees : Prop :=
  ∀ (W N x d : Nat) (g : DivAlg), 0 < W → x < 2 ^ (W * N) → d < 2 ^ (W * N) →
    divByAlg W N g x d = if d = 0 then none else some (x / d, x % d)

/-! ### Reads and writes at the port -/

/-- R48: a read changes no state of the block (its record of values returned is the host's, log entry 9); a repeated read returns
the same value, a command in flight or not, while no command completes or is issued in between and nothing writes what is read
(an issue sets BUSY and makes an S register read as R175 says); each write of CMD issues a command, so writing it again after the
completion issues again; writing an S register twice is writing it once. -/
def Obligations.ReadsRepeatAndOnlySWritesAreIdempotent : Prop :=
  (∀ (s : State) (addr : Nat) (rest : List Turn), s.turns = .host (.read addr) :: rest →
    ∃ v, step s = .next { s with turns := rest, reads := { addr := addr, value := v } :: s.reads }) ∧
  (∀ (s : State) (addr : Nat) (ops : List PortOp) (rest : List Turn),
    s.turns = .host (.read addr) :: ops.map .host ++ .host (.read addr) :: rest →
    (∀ op ∈ ops, (∃ a, op = .read a) ∨
      ∃ a x, op = .write a x ∧
        (a ≠ 0 ∧ (a < 8 ∨ 16 ≤ a) ∨ s.busy = true ∧ addr ≠ 1 ∨ s.busy = false ∧ a ≠ 0 ∧ a ≠ addr)) →
    ∃ t v between, core.run (ops.length + 2) s = .next t ∧ t.turns = rest ∧
      t.reads = { addr := addr, value := v } :: between ++ { addr := addr, value := v } :: s.reads) ∧
  (∀ (s : State) (k : SReg) (x : Nat) (rest : List Turn), s.inFlight = none →
    s.turns = .host (.write (8 + k.val) x) :: .host (.write (8 + k.val) x) :: rest →
    ∃ t, core.run 2 s = .next t ∧ step { s with turns := .host (.write (8 + k.val) x) :: rest } = .next t) ∧
  ∀ (s : State) (x : Nat) (rest : List Turn), s.inFlight = none →
    s.turns = .host (.write 0 x) :: .engine :: .host (.write 0 x) :: rest →
    ∃ t u v, core.run 1 s = .next t ∧ t.inFlight = some (x % 2 ^ s.W) ∧ core.run 2 s = .next u ∧ u.inFlight = none ∧
      core.run 3 s = .next v ∧ v.inFlight = some (x % 2 ^ s.W)
end

