-- ==== Sys2Proof/Laws/Decode.lean ====
section
/-! SUPPORT. The fields of a command word and the word go into each other, and a word assembled as R69 writes it has the
fields it was assembled from. -/

namespace Sys2Proof

theorem Fields.ofNat_toNat (f : Fields) : Fields.ofNat f.toNat = f := by
  obtain ⟨op, d, a, b, c, e, ci, alg, rsv⟩ := f
  simp only [Fields.ofNat, Fields.toNat, bitField, Fields.mk.injEq, Fin.ext_iff, Fin.val_ofNat]
  refine ⟨?_, ?_, ?_, ?_, ?_, ?_, ?_, ?_, ?_⟩ <;> omega

theorem Fields.toNat_ofNat {x : Nat} (h : x < 2 ^ 32) : (Fields.ofNat x).toNat = x := by
  simp only [Fields.ofNat, Fields.toNat, bitField, Fin.val_ofNat]
  omega

theorem Fields.toNat_lt (f : Fields) : f.toNat < 2 ^ 32 := by
  obtain ⟨op, d, a, b, c, e, ci, alg, rsv⟩ := f
  simp only [Fields.toNat]
  omega

/-- The decoder on an encoded instruction reads the fields the encoder wrote. -/
theorem decode_encode_fields (i : Instr) : decode (encode i) = decodeFields (encodeFields i) := by
  simp only [decode, encode, BitVec.toNat_ofNat]
  rw [Nat.mod_eq_of_lt (Fields.toNat_lt _), Fields.ofNat_toNat]

/-- A shifted field joined to the lower ones is their sum. -/
theorem shiftLeft_or_eq_add {k x : Nat} (y : Nat) (h : x < 2 ^ k) : y <<< k ||| x = y * 2 ^ k + x := by
  rw [← Nat.shiftLeft_add_eq_or_of_lt h, Nat.shiftLeft_eq]

/-- The word R69 assembles from fields, RSV zero, is the word of those fields. -/
theorem assemble_eq (op : Fin 64) (d a b c e : Fin 8) (ci alg : Fin 4) :
    assemble op d a b c e ci alg
      = BitVec.ofNat 32 (Fields.toNat { op := op, d := d, a := a, b := b, c := c, e := e, ci := ci, alg := alg, rsv := 0 }) := by
  simp only [assemble, Fields.toNat, Fin.val_zero, Nat.add_zero, Nat.or_assoc]
  congr 1
  rw [Nat.shiftLeft_eq alg.val, shiftLeft_or_eq_add ci.val (by omega), shiftLeft_or_eq_add e.val (by omega),
    shiftLeft_or_eq_add c.val (by omega), shiftLeft_or_eq_add b.val (by omega), shiftLeft_or_eq_add a.val (by omega),
    shiftLeft_or_eq_add d.val (by omega), shiftLeft_or_eq_add op.val (by omega)]
  ring

/-- The decoder on a word R69 assembles reads the fields it was assembled from. -/
theorem decode_assemble (op : Fin 64) (d a b c e : Fin 8) (ci alg : Fin 4) :
    decode (assemble op d a b c e ci alg)
      = decodeFields { op := op, d := d, a := a, b := b, c := c, e := e, ci := ci, alg := alg, rsv := 0 } := by
  rw [assemble_eq]
  simp only [decode, BitVec.toNat_ofNat]
  rw [Nat.mod_eq_of_lt (Fields.toNat_lt _), Fields.ofNat_toNat]

@[simp] theorem decodeCarryIn_encodeCarryIn (ci : CarryIn) : decodeCarryIn (encodeCarryIn ci) = .ok ci := by
  cases ci <;> rfl

@[simp] theorem decodeMulAlg_encodeMulAlg (g : MulAlg) : decodeMulAlg (encodeMulAlg g) = .ok g := by
  cases g <;> rfl

@[simp] theorem decodeDivAlg_encodeDivAlg (g : DivAlg) : decodeDivAlg (encodeDivAlg g) = .ok g := by
  cases g <;> rfl

/-- The checker passes exactly the well-formed commands, unchanged. -/
theorem checkInstr_eq_ok {i j : Instr} : checkInstr i = .ok j ↔ i = j ∧ i.wellFormed := by
  simp only [checkInstr, Instr.wellFormed]
  cases h : i.flaw <;> simp

end Sys2Proof
end

