-- ==== Sys2Proof/Laws/State.lean ====
section
/-! SUPPORT. What each update of State does to each field, one lemma per field, so that no later proof unfolds an update. -/

namespace Sys2Proof.Machine.State

variable (s : State)

/-! ### `setV` -/

@[simp] theorem setV_params (r : VReg) (x : Nat) (known : Bool) : (s.setV r x known).params = s.params := rfl
@[simp] theorem setV_vregs (r : VReg) (x : Nat) (known : Bool) : (s.setV r x known).vregs = s.vregs.set r (x % 2 ^ s.M) := rfl
@[simp] theorem setV_sregs (r : VReg) (x : Nat) (known : Bool) : (s.setV r x known).sregs = s.sregs := rfl
@[simp] theorem setV_vmarks (r : VReg) (x : Nat) (known : Bool) : (s.setV r x known).vmarks = s.vmarks.set r (List.replicate s.N known) := rfl
@[simp] theorem setV_smarks (r : VReg) (x : Nat) (known : Bool) : (s.setV r x known).smarks = s.smarks := rfl
@[simp] theorem setV_status (r : VReg) (x : Nat) (known : Bool) : (s.setV r x known).status = s.status := rfl
@[simp] theorem setV_inFlight (r : VReg) (x : Nat) (known : Bool) : (s.setV r x known).inFlight = s.inFlight := rfl
@[simp] theorem setV_turns (r : VReg) (x : Nat) (known : Bool) : (s.setV r x known).turns = s.turns := rfl
@[simp] theorem setV_reads (r : VReg) (x : Nat) (known : Bool) : (s.setV r x known).reads = s.reads := rfl
@[simp] theorem setV_draws (r : VReg) (x : Nat) (known : Bool) : (s.setV r x known).draws = s.draws := rfl

/-! ### `setS` -/

@[simp] theorem setS_params (r : SReg) (x : Nat) (known : Bool) : (s.setS r x known).params = s.params := rfl
@[simp] theorem setS_vregs (r : SReg) (x : Nat) (known : Bool) : (s.setS r x known).vregs = s.vregs := rfl
@[simp] theorem setS_sregs (r : SReg) (x : Nat) (known : Bool) : (s.setS r x known).sregs = s.sregs.set r (x % 2 ^ s.W) := rfl
@[simp] theorem setS_vmarks (r : SReg) (x : Nat) (known : Bool) : (s.setS r x known).vmarks = s.vmarks := rfl
@[simp] theorem setS_smarks (r : SReg) (x : Nat) (known : Bool) : (s.setS r x known).smarks = s.smarks.set r known := rfl
@[simp] theorem setS_status (r : SReg) (x : Nat) (known : Bool) : (s.setS r x known).status = s.status := rfl
@[simp] theorem setS_inFlight (r : SReg) (x : Nat) (known : Bool) : (s.setS r x known).inFlight = s.inFlight := rfl
@[simp] theorem setS_turns (r : SReg) (x : Nat) (known : Bool) : (s.setS r x known).turns = s.turns := rfl
@[simp] theorem setS_reads (r : SReg) (x : Nat) (known : Bool) : (s.setS r x known).reads = s.reads := rfl
@[simp] theorem setS_draws (r : SReg) (x : Nat) (known : Bool) : (s.setS r x known).draws = s.draws := rfl

/-! ### `setWord` -/

@[simp] theorem setWord_params (r : VReg) (i : Nat) (x : Nat) (known : Bool) : (s.setWord r i x known).params = s.params := rfl
@[simp] theorem setWord_vregs (r : VReg) (i : Nat) (x : Nat) (known : Bool) : (s.setWord r i x known).vregs = s.vregs.set r (insertWord s.W (s.V r) i x % 2 ^ s.M) := rfl
@[simp] theorem setWord_sregs (r : VReg) (i : Nat) (x : Nat) (known : Bool) : (s.setWord r i x known).sregs = s.sregs := rfl
@[simp] theorem setWord_vmarks (r : VReg) (i : Nat) (x : Nat) (known : Bool) : (s.setWord r i x known).vmarks = s.vmarks.set r ((s.vmarks.get r).set i known) := rfl
@[simp] theorem setWord_smarks (r : VReg) (i : Nat) (x : Nat) (known : Bool) : (s.setWord r i x known).smarks = s.smarks := rfl
@[simp] theorem setWord_status (r : VReg) (i : Nat) (x : Nat) (known : Bool) : (s.setWord r i x known).status = s.status := rfl
@[simp] theorem setWord_inFlight (r : VReg) (i : Nat) (x : Nat) (known : Bool) : (s.setWord r i x known).inFlight = s.inFlight := rfl
@[simp] theorem setWord_turns (r : VReg) (i : Nat) (x : Nat) (known : Bool) : (s.setWord r i x known).turns = s.turns := rfl
@[simp] theorem setWord_reads (r : VReg) (i : Nat) (x : Nat) (known : Bool) : (s.setWord r i x known).reads = s.reads := rfl
@[simp] theorem setWord_draws (r : VReg) (i : Nat) (x : Nat) (known : Bool) : (s.setWord r i x known).draws = s.draws := rfl

/-! ### `complete` -/

@[simp] theorem complete_params (cls : CommandClass) (st zf : Bool) : (s.complete cls st zf).params = s.params := rfl
@[simp] theorem complete_vregs (cls : CommandClass) (st zf : Bool) : (s.complete cls st zf).vregs = s.vregs := rfl
@[simp] theorem complete_sregs (cls : CommandClass) (st zf : Bool) : (s.complete cls st zf).sregs = s.sregs := rfl
@[simp] theorem complete_vmarks (cls : CommandClass) (st zf : Bool) : (s.complete cls st zf).vmarks = s.vmarks := rfl
@[simp] theorem complete_smarks (cls : CommandClass) (st zf : Bool) : (s.complete cls st zf).smarks = s.smarks := rfl
@[simp] theorem complete_status (cls : CommandClass) (st zf : Bool) : (s.complete cls st zf).status = s.status.completed cls st zf := rfl
@[simp] theorem complete_inFlight (cls : CommandClass) (st zf : Bool) : (s.complete cls st zf).inFlight = none := rfl
@[simp] theorem complete_turns (cls : CommandClass) (st zf : Bool) : (s.complete cls st zf).turns = s.turns := rfl
@[simp] theorem complete_reads (cls : CommandClass) (st zf : Bool) : (s.complete cls st zf).reads = s.reads := rfl
@[simp] theorem complete_draws (cls : CommandClass) (st zf : Bool) : (s.complete cls st zf).draws = s.draws := rfl

/-! ### `takeFault` -/

@[simp] theorem takeFault_params (code : ErrCode) : (s.takeFault code).params = s.params := rfl
@[simp] theorem takeFault_vregs (code : ErrCode) : (s.takeFault code).vregs = s.vregs := rfl
@[simp] theorem takeFault_sregs (code : ErrCode) : (s.takeFault code).sregs = s.sregs := rfl
@[simp] theorem takeFault_vmarks (code : ErrCode) : (s.takeFault code).vmarks = s.vmarks := rfl
@[simp] theorem takeFault_smarks (code : ErrCode) : (s.takeFault code).smarks = s.smarks := rfl
@[simp] theorem takeFault_status (code : ErrCode) : (s.takeFault code).status = s.status.faulted code := rfl
@[simp] theorem takeFault_inFlight (code : ErrCode) : (s.takeFault code).inFlight = none := rfl
@[simp] theorem takeFault_turns (code : ErrCode) : (s.takeFault code).turns = s.turns := rfl
@[simp] theorem takeFault_reads (code : ErrCode) : (s.takeFault code).reads = s.reads := rfl
@[simp] theorem takeFault_draws (code : ErrCode) : (s.takeFault code).draws = s.draws := rfl

/-! ### `clearStatus` -/

@[simp] theorem clearStatus_params : (s.clearStatus).params = s.params := rfl
@[simp] theorem clearStatus_vregs : (s.clearStatus).vregs = s.vregs := rfl
@[simp] theorem clearStatus_sregs : (s.clearStatus).sregs = s.sregs := rfl
@[simp] theorem clearStatus_vmarks : (s.clearStatus).vmarks = s.vmarks := rfl
@[simp] theorem clearStatus_smarks : (s.clearStatus).smarks = s.smarks := rfl
@[simp] theorem clearStatus_status : (s.clearStatus).status = Status.cleared := rfl
@[simp] theorem clearStatus_inFlight : (s.clearStatus).inFlight = none := rfl
@[simp] theorem clearStatus_turns : (s.clearStatus).turns = s.turns := rfl
@[simp] theorem clearStatus_reads : (s.clearStatus).reads = s.reads := rfl
@[simp] theorem clearStatus_draws : (s.clearStatus).draws = s.draws := rfl

/-! ### `hostRead` -/

@[simp] theorem hostRead_params (addr : Nat) : (s.hostRead addr).params = s.params := rfl
@[simp] theorem hostRead_vregs (addr : Nat) : (s.hostRead addr).vregs = s.vregs := rfl
@[simp] theorem hostRead_sregs (addr : Nat) : (s.hostRead addr).sregs = s.sregs := rfl
@[simp] theorem hostRead_vmarks (addr : Nat) : (s.hostRead addr).vmarks = s.vmarks := rfl
@[simp] theorem hostRead_smarks (addr : Nat) : (s.hostRead addr).smarks = s.smarks := rfl
@[simp] theorem hostRead_status (addr : Nat) : (s.hostRead addr).status = s.status := rfl
@[simp] theorem hostRead_inFlight (addr : Nat) : (s.hostRead addr).inFlight = s.inFlight := rfl
@[simp] theorem hostRead_turns (addr : Nat) : (s.hostRead addr).turns = s.turns := rfl
@[simp] theorem hostRead_reads (addr : Nat) : (s.hostRead addr).reads = { addr := addr, value := s.portValue addr } :: s.reads := rfl
@[simp] theorem hostRead_draws (addr : Nat) : (s.hostRead addr).draws = s.draws := rfl

/-! ### `discardWrite` -/

@[simp] theorem discardWrite_params : (s.discardWrite).params = s.params := rfl
@[simp] theorem discardWrite_vregs : (s.discardWrite).vregs = s.vregs := rfl
@[simp] theorem discardWrite_sregs : (s.discardWrite).sregs = s.sregs := rfl
@[simp] theorem discardWrite_vmarks : (s.discardWrite).vmarks = s.vmarks := rfl
@[simp] theorem discardWrite_smarks : (s.discardWrite).smarks = s.smarks := rfl
@[simp] theorem discardWrite_status : (s.discardWrite).status = { s.status with ovr := true } := rfl
@[simp] theorem discardWrite_inFlight : (s.discardWrite).inFlight = s.inFlight := rfl
@[simp] theorem discardWrite_turns : (s.discardWrite).turns = s.turns := rfl
@[simp] theorem discardWrite_reads : (s.discardWrite).reads = s.reads := rfl
@[simp] theorem discardWrite_draws : (s.discardWrite).draws = s.draws := rfl

/-! ### `issue` -/

@[simp] theorem issue_params (x : Nat) : (s.issue x).params = s.params := rfl
@[simp] theorem issue_vregs (x : Nat) : (s.issue x).vregs = s.vregs := rfl
@[simp] theorem issue_sregs (x : Nat) : (s.issue x).sregs = s.sregs := rfl
@[simp] theorem issue_vmarks (x : Nat) : (s.issue x).vmarks = s.vmarks := rfl
@[simp] theorem issue_smarks (x : Nat) : (s.issue x).smarks = s.smarks := rfl
@[simp] theorem issue_status (x : Nat) : (s.issue x).status = s.status := rfl
@[simp] theorem issue_inFlight (x : Nat) : (s.issue x).inFlight = some (x % 2 ^ s.W) := rfl
@[simp] theorem issue_turns (x : Nat) : (s.issue x).turns = s.turns := rfl
@[simp] theorem issue_reads (x : Nat) : (s.issue x).reads = s.reads := rfl
@[simp] theorem issue_draws (x : Nat) : (s.issue x).draws = s.draws + 1 := rfl

/-! ### `hostReset` -/

@[simp] theorem hostReset_params : (s.hostReset).params = s.params := rfl
@[simp] theorem hostReset_vregs : (s.hostReset).vregs = Regs8.tabulate fun r => Config.freeValue (s.draws + 1) r.val % 2 ^ s.M := rfl
@[simp] theorem hostReset_sregs : (s.hostReset).sregs = Regs8.tabulate fun r => Config.freeValue (s.draws + 1) (8 + r.val) % 2 ^ s.W := rfl
@[simp] theorem hostReset_vmarks : (s.hostReset).vmarks = Regs8.const (List.replicate s.N false) := rfl
@[simp] theorem hostReset_smarks : (s.hostReset).smarks = Regs8.const false := rfl
@[simp] theorem hostReset_status : (s.hostReset).status = Status.reset := rfl
@[simp] theorem hostReset_inFlight : (s.hostReset).inFlight = none := rfl
@[simp] theorem hostReset_turns : (s.hostReset).turns = s.turns := rfl
@[simp] theorem hostReset_reads : (s.hostReset).reads = s.reads := rfl
@[simp] theorem hostReset_draws : (s.hostReset).draws = s.draws + 1 := rfl

/-! ### The widths of an instance do not change -/

@[simp] theorem setV_W (r : VReg) (x : Nat) (known : Bool) : (s.setV r x known).W = s.W := rfl
@[simp] theorem setV_N (r : VReg) (x : Nat) (known : Bool) : (s.setV r x known).N = s.N := rfl
@[simp] theorem setV_M (r : VReg) (x : Nat) (known : Bool) : (s.setV r x known).M = s.M := rfl
@[simp] theorem setS_W (r : SReg) (x : Nat) (known : Bool) : (s.setS r x known).W = s.W := rfl
@[simp] theorem setS_N (r : SReg) (x : Nat) (known : Bool) : (s.setS r x known).N = s.N := rfl
@[simp] theorem setS_M (r : SReg) (x : Nat) (known : Bool) : (s.setS r x known).M = s.M := rfl
@[simp] theorem setWord_W (r : VReg) (i : Nat) (x : Nat) (known : Bool) : (s.setWord r i x known).W = s.W := rfl
@[simp] theorem setWord_N (r : VReg) (i : Nat) (x : Nat) (known : Bool) : (s.setWord r i x known).N = s.N := rfl
@[simp] theorem setWord_M (r : VReg) (i : Nat) (x : Nat) (known : Bool) : (s.setWord r i x known).M = s.M := rfl
@[simp] theorem complete_W (cls : CommandClass) (st zf : Bool) : (s.complete cls st zf).W = s.W := rfl
@[simp] theorem complete_N (cls : CommandClass) (st zf : Bool) : (s.complete cls st zf).N = s.N := rfl
@[simp] theorem complete_M (cls : CommandClass) (st zf : Bool) : (s.complete cls st zf).M = s.M := rfl
@[simp] theorem takeFault_W (code : ErrCode) : (s.takeFault code).W = s.W := rfl
@[simp] theorem takeFault_N (code : ErrCode) : (s.takeFault code).N = s.N := rfl
@[simp] theorem takeFault_M (code : ErrCode) : (s.takeFault code).M = s.M := rfl
@[simp] theorem clearStatus_W : (s.clearStatus).W = s.W := rfl
@[simp] theorem clearStatus_N : (s.clearStatus).N = s.N := rfl
@[simp] theorem clearStatus_M : (s.clearStatus).M = s.M := rfl
@[simp] theorem hostRead_W (addr : Nat) : (s.hostRead addr).W = s.W := rfl
@[simp] theorem hostRead_N (addr : Nat) : (s.hostRead addr).N = s.N := rfl
@[simp] theorem hostRead_M (addr : Nat) : (s.hostRead addr).M = s.M := rfl
@[simp] theorem discardWrite_W : (s.discardWrite).W = s.W := rfl
@[simp] theorem discardWrite_N : (s.discardWrite).N = s.N := rfl
@[simp] theorem discardWrite_M : (s.discardWrite).M = s.M := rfl
@[simp] theorem issue_W (x : Nat) : (s.issue x).W = s.W := rfl
@[simp] theorem issue_N (x : Nat) : (s.issue x).N = s.N := rfl
@[simp] theorem issue_M (x : Nat) : (s.issue x).M = s.M := rfl
@[simp] theorem hostReset_W : (s.hostReset).W = s.W := rfl
@[simp] theorem hostReset_N : (s.hostReset).N = s.N := rfl
@[simp] theorem hostReset_M : (s.hostReset).M = s.M := rfl

/-! ### The families' shared endings -/

@[simp] theorem finishAdd_eq (d : VReg) (t : Nat) (known : Bool) :
    s.finishAdd d t known = (s.setV d t known).complete .arithmetic (carryOut s.M t) false := rfl
@[simp] theorem finishSub_eq (d : VReg) (t : Int) (known : Bool) :
    s.finishSub d t known = (s.setV d (wrap s.M t) known).complete .arithmetic (borrowOut t) false := rfl
@[simp] theorem finishScan_eq (d c : SReg) (j : Nat) (known : Bool) :
    s.finishScan d c j known = ((s.setS d (j / s.W) known).setS c (j % s.W) known).complete .plain false false := rfl
@[simp] theorem finishLogic_eq (d : VReg) (x : Nat) (known : Bool) :
    s.finishLogic d x known = (s.setV d x known).complete .plain false false := rfl
@[simp] theorem finishNarrow_eq (d : VReg) (p : Nat) (known : Bool) :
    s.finishNarrow d p known = (s.setV d p known).complete .arithmetic (carryOut s.M p) false := rfl

end Sys2Proof.Machine.State
end

