-- ==== Sys2Proof/Laws/Registers.lean ====
section
/-! SUPPORT. Reading a register, or a word of one, after a write; and that every update keeps the invariant `State.wf`. -/

namespace Sys2Proof.Machine

/-! ### Register files -/

@[simp] theorem Regs8.get_set {α : Type} (x : Regs8 α) (i j : Fin 8) (y : α) :
    (x.set i y).get j = if j = i then y else x.get j := by
  fin_cases i <;> fin_cases j <;> rfl

@[simp] theorem Regs8.get_const {α : Type} (x : α) (i : Fin 8) : (Regs8.const x).get i = x := by
  fin_cases i <;> rfl

@[simp] theorem Regs8.get_tabulate {α : Type} (f : Fin 8 → α) (i : Fin 8) : (Regs8.tabulate f).get i = f i := by
  fin_cases i <;> rfl

/-- Two files that hold the same everywhere are equal. -/
theorem Regs8.ext_get {α : Type} {x y : Regs8 α} (h : ∀ i, x.get i = y.get i) : x = y := by
  obtain ⟨x0, x1, x2, x3, x4, x5, x6, x7⟩ := x
  obtain ⟨y0, y1, y2, y3, y4, y5, y6, y7⟩ := y
  have h0 := h 0; have h1 := h 1; have h2 := h 2; have h3 := h 3
  have h4 := h 4; have h5 := h 5; have h6 := h 6; have h7 := h 7
  simp only [Regs8.get] at h0 h1 h2 h3 h4 h5 h6 h7
  subst h0 h1 h2 h3 h4 h5 h6 h7
  rfl

/-! ### Words of a value -/

theorem wordAt_lt (W : Nat) (v : Nat) (i : Nat) : wordAt W v i < 2 ^ W := Nat.mod_lt _ (Nat.two_pow_pos W)

/-- The words at and above word `n` of an `n`-word value are zero. -/
theorem wordAt_of_lt {W n i : Nat} {v : Nat} (hv : v < 2 ^ (W * n)) (hi : n ≤ i) : wordAt W v i = 0 := by
  have : v < 2 ^ (W * i) := lt_of_lt_of_le hv (Nat.pow_le_pow_right (by omega) (Nat.mul_le_mul_left W hi))
  simp [wordAt, Nat.div_eq_of_lt this]

/-- A value is its words below `n` and what stands above them. -/
theorem mod_pow_succ (W : Nat) (v : Nat) (n : Nat) :
    v % 2 ^ (W * (n + 1)) = wordAt W v n * 2 ^ (W * n) + v % 2 ^ (W * n) := by
  rw [Nat.mul_succ, Nat.pow_add, Nat.mod_mul, wordAt, Nat.mul_comm (2 ^ (W * n)), Nat.add_comm]

/-- Values of `n` words are equal when their words are. -/
theorem eq_of_words {W n : Nat} {v w : Nat} (hv : v < 2 ^ (W * n)) (hw : w < 2 ^ (W * n))
    (h : ∀ i < n, wordAt W v i = wordAt W w i) : v = w := by
  have low : ∀ m ≤ n, v % 2 ^ (W * m) = w % 2 ^ (W * m) := by
    intro m
    induction m with
    | zero => intro _; simp [Nat.mod_one]
    | succ m ih => intro hm; rw [mod_pow_succ, mod_pow_succ, h m (by omega), ih (by omega)]
  have := low n le_rfl
  rwa [Nat.mod_eq_of_lt hv, Nat.mod_eq_of_lt hw] at this

/-- The bits of a value with one word replaced. -/
theorem testBit_insertWord (W : Nat) (v : Nat) (i : Nat) (x : Nat) (k : Nat) :
    (insertWord W v i x).testBit k =
      if W * i ≤ k ∧ k < W * (i + 1) then x.testBit (k - W * i) else v.testBit k := by
  have hlow : v % 2 ^ (W * i) < 2 ^ (W * i) := Nat.mod_lt _ (Nat.two_pow_pos _)
  have hx : x % 2 ^ W < 2 ^ W := Nat.mod_lt _ (Nat.two_pow_pos _)
  have hform : insertWord W v i x =
      2 ^ (W * i) * (2 ^ W * (v / 2 ^ (W * (i + 1))) + x % 2 ^ W) + v % 2 ^ (W * i) := by
    simp only [insertWord]
    rw [Nat.mul_succ, Nat.pow_add]
    ring
  rw [hform, Nat.testBit_two_pow_mul_add _ hlow]
  by_cases h1 : k < W * i
  · have : ¬ W * i ≤ k := by omega
    simp [h1, this]
  · rw [if_neg h1, Nat.testBit_two_pow_mul_add _ hx, Nat.mul_succ]
    by_cases h2 : k - W * i < W
    · have h3 : W * i ≤ k ∧ k < W * i + W := by omega
      simp [h2, h3]
    · have h3 : ¬ (W * i ≤ k ∧ k < W * i + W) := by omega
      have h4 : k - W * i - W + (W * i + W) = k := by omega
      simp [h2, h3, Nat.testBit_div_two_pow, h4]

theorem testBit_wordAt (W : Nat) (v : Nat) (i k : Nat) :
    (wordAt W v i).testBit k = (decide (k < W) && v.testBit (k + W * i)) := by
  rw [wordAt, Nat.testBit_mod_two_pow, Nat.testBit_div_two_pow]

@[simp] theorem wordAt_insertWord_same (W : Nat) (v : Nat) (i : Nat) (x : Nat) :
    wordAt W (insertWord W v i x) i = x % 2 ^ W := by
  refine Nat.eq_of_testBit_eq fun k => ?_
  rw [testBit_wordAt, testBit_insertWord, Nat.testBit_mod_two_pow, Nat.mul_succ]
  by_cases h : k < W
  · rw [if_pos ⟨by omega, by omega⟩]
    simp [h]
  · simp [h]

theorem wordAt_insertWord_ne (W : Nat) (v : Nat) {i j : Nat} (x : Nat) (hj : j ≠ i) :
    wordAt W (insertWord W v i x) j = wordAt W v j := by
  refine Nat.eq_of_testBit_eq fun k => ?_
  rw [testBit_wordAt, testBit_wordAt, testBit_insertWord, Nat.mul_succ]
  by_cases h : k < W
  · have h1 : ¬ (W * i ≤ k + W * j ∧ k + W * j < W * i + W) := by
      rcases Nat.lt_or_gt_of_ne hj with h2 | h2
      · have := Nat.mul_le_mul_left W h2
        rw [Nat.mul_succ] at this
        omega
      · have := Nat.mul_le_mul_left W h2
        rw [Nat.mul_succ] at this
        omega
    simp [h, h1]
  · simp [h]

theorem insertWord_lt {W n i : Nat} {v : Nat} (x : Nat) (hv : v < 2 ^ (W * n)) (hi : i < n) :
    insertWord W v i x < 2 ^ (W * n) := by
  refine Nat.lt_pow_two_of_testBit _ fun k hk => ?_
  have h1 : W * (i + 1) ≤ W * n := Nat.mul_le_mul_left W hi
  rw [testBit_insertWord, if_neg (by omega)]
  exact Nat.testBit_eq_false_of_lt (lt_of_lt_of_le hv (Nat.pow_le_pow_right (by omega) hk))

/-- The wrapped integer fits its width. -/
theorem wrap_lt (k : Nat) (t : Int) : wrap k t < 2 ^ k := by
  have h := Int.emod_lt_of_pos t (by positivity : (0 : Int) < 2 ^ k)
  have h0 := Int.emod_nonneg t (by positivity : (2 ^ k : Int) ≠ 0)
  simp only [wrap]
  zify
  rw [Int.toNat_of_nonneg h0]
  exact h

/-! ### Reading a register after a write -/

namespace State

variable (s : State) (known : Bool)

theorem M_eq : s.M = s.W * s.N := Nat.mul_comm _ _

theorem W_pos : 0 < s.W := by
  simp only [W, Params.W]
  cases s.params.width <;> decide

@[simp] theorem V_setV (r q : VReg) (x : Nat) : (s.setV r x known).V q = if q = r then x % 2 ^ s.M else s.V q := by
  simp [V]

@[simp] theorem V_setS (r : SReg) (q : VReg) (x : Nat) : (s.setS r x known).V q = s.V q := rfl

@[simp] theorem V_setWord (r q : VReg) (i : Nat) (x : Nat) :
    (s.setWord r i x known).V q = if q = r then insertWord s.W (s.V r) i x % 2 ^ s.M else s.V q := by
  simp [V]

@[simp] theorem V_complete (cls : CommandClass) (st zf : Bool) (q : VReg) : (s.complete cls st zf).V q = s.V q := rfl

@[simp] theorem V_takeFault (code : ErrCode) (q : VReg) : (s.takeFault code).V q = s.V q := rfl

@[simp] theorem V_clearStatus (q : VReg) : s.clearStatus.V q = s.V q := rfl

@[simp] theorem S_setS (r q : SReg) (x : Nat) : (s.setS r x known).S q = if q = r then x % 2 ^ s.W else s.S q := by
  simp [S]

@[simp] theorem S_setV (r : VReg) (q : SReg) (x : Nat) : (s.setV r x known).S q = s.S q := rfl

@[simp] theorem S_setWord (r : VReg) (i : Nat) (x : Nat) (q : SReg) : (s.setWord r i x known).S q = s.S q := rfl

@[simp] theorem S_complete (cls : CommandClass) (st zf : Bool) (q : SReg) : (s.complete cls st zf).S q = s.S q := rfl

@[simp] theorem S_takeFault (code : ErrCode) (q : SReg) : (s.takeFault code).S q = s.S q := rfl

@[simp] theorem S_clearStatus (q : SReg) : s.clearStatus.S q = s.S q := rfl

@[simp] theorem sIsSet_setS (r q : SReg) (x : Nat) :
    (s.setS r x known).sIsSet q = if q = r then known else s.sIsSet q := by
  simp [sIsSet]

@[simp] theorem sIsSet_setV (r : VReg) (x : Nat) (q : SReg) : (s.setV r x known).sIsSet q = s.sIsSet q := rfl

@[simp] theorem sIsSet_setWord (r : VReg) (i : Nat) (x : Nat) (q : SReg) :
    (s.setWord r i x known).sIsSet q = s.sIsSet q := rfl

@[simp] theorem sIsSet_complete (cls : CommandClass) (st zf : Bool) (q : SReg) :
    (s.complete cls st zf).sIsSet q = s.sIsSet q := rfl

@[simp] theorem wordIsSet_setV (r q : VReg) (x j : Nat) :
    (s.setV r x known).wordIsSet q j = if q = r then (List.replicate s.N known).getD j false else s.wordIsSet q j := by
  simp only [wordIsSet, setV_vmarks, Regs8.get_set]
  split <;> rfl

@[simp] theorem wordIsSet_setWord (r q : VReg) (i x j : Nat) :
    (s.setWord r i x known).wordIsSet q j =
      if q = r ∧ j = i ∧ i < (s.vmarks.get r).length then known else s.wordIsSet q j := by
  simp only [wordIsSet, setWord_vmarks, Regs8.get_set]
  by_cases hq : q = r
  · subst hq
    by_cases hj : j = i
    · subst hj
      by_cases hl : j < (s.vmarks.get q).length <;> simp [List.getD_eq_getElem?_getD, hl]
    · simp [List.getD_eq_getElem?_getD, hj, Ne.symm hj]
  · simp [hq]

@[simp] theorem wordIsSet_setS (r : SReg) (x : Nat) (q : VReg) (j : Nat) :
    (s.setS r x known).wordIsSet q j = s.wordIsSet q j := rfl

@[simp] theorem wordIsSet_complete (cls : CommandClass) (st zf : Bool) (q : VReg) (j : Nat) :
    (s.complete cls st zf).wordIsSet q j = s.wordIsSet q j := rfl

/-- A word of the V word space depends on its register alone. -/
theorem word_congr {s t : State} (hp : t.params = s.params) {r : VReg} (hv : t.V r = s.V r) (i : Nat) :
    t.word r i = s.word r i := by
  simp [word, W, hp, hv]

/-- The word just written. -/
theorem word_setWord_same (r : VReg) (i : Nat) (x : Nat) (hv : s.V r < 2 ^ s.M) (hi : i < s.N) :
    (s.setWord r i x known).word r i = x % 2 ^ s.W := by
  rw [M_eq] at hv
  have := insertWord_lt x hv hi
  rw [← M_eq] at this
  simp [word, Nat.mod_eq_of_lt this]

/-- Every other word of the register is kept. -/
theorem word_setWord_ne (r : VReg) {i j : Nat} (x : Nat) (hv : s.V r < 2 ^ s.M) (hi : i < s.N) (hj : j ≠ i) :
    (s.setWord r i x known).word r j = s.word r j := by
  rw [M_eq] at hv
  have := insertWord_lt x hv hi
  rw [← M_eq] at this
  simp [word, Nat.mod_eq_of_lt this, wordAt_insertWord_ne _ _ _ hj]

/-- The same of the words below `N`, whatever the register holds. -/
theorem word_setWord_of_lt (r : VReg) {i j : Nat} (x : Nat) (hj : j < s.N) (hji : j ≠ i) :
    (s.setWord r i x known).word r j = s.word r j := by
  rw [word, word, ← wordAt_insertWord_ne s.W (s.V r) x hji]
  refine Nat.eq_of_testBit_eq fun k => ?_
  have := Nat.mul_le_mul_left s.W hj
  rw [Nat.mul_succ, ← M_eq] at this
  simp only [testBit_wordAt, V_setWord, setWord_W, if_pos, Nat.testBit_mod_two_pow]
  by_cases hk : k < s.W
  · simp [show k + s.W * j < s.M by omega]
  · simp [hk]

/-! ### Every update keeps the invariant -/

variable {s}

/-- The invariant of a state depends on its registers, set-marks and the value in flight alone. -/
theorem wf_of_same {t : State} (h : s.wf) (hp : t.params = s.params) (hv : t.vregs = s.vregs) (hs : t.sregs = s.sregs)
    (hm : t.vmarks = s.vmarks) (hf : ∀ x ∈ t.inFlight, x < 2 ^ t.W) : t.wf := by
  obtain ⟨h1, h2, h3, h4, -⟩ := h
  refine ⟨hp ▸ h1, ?_, ?_, ?_, hf⟩
  · intro r; simpa [V, M, hv, hp] using h2 r
  · intro r; simpa [S, W, hs, hp] using h3 r
  · intro r; simpa [N, hm, hp] using h4 r

theorem setV_wf (h : s.wf) (r : VReg) (x : Nat) : (s.setV r x known).wf := by
  obtain ⟨h1, h2, h3, h4, h5⟩ := h
  refine ⟨h1, fun q => ?_, h3, fun q => ?_, h5⟩
  · rw [V_setV, setV_M]
    split
    · exact Nat.mod_lt _ (Nat.two_pow_pos _)
    · exact h2 q
  · rw [setV_vmarks, Regs8.get_set, setV_N]
    split
    · simp
    · exact h4 q

theorem setS_wf (h : s.wf) (r : SReg) (x : Nat) : (s.setS r x known).wf := by
  obtain ⟨h1, h2, h3, h4, h5⟩ := h
  refine ⟨h1, h2, fun q => ?_, h4, h5⟩
  rw [S_setS, setS_W]
  split
  · exact Nat.mod_lt _ (Nat.two_pow_pos _)
  · exact h3 q

theorem setWord_wf (h : s.wf) (r : VReg) (i : Nat) (x : Nat) : (s.setWord r i x known).wf := by
  obtain ⟨h1, h2, h3, h4, h5⟩ := h
  refine ⟨h1, fun q => ?_, h3, fun q => ?_, h5⟩
  · rw [V_setWord, setWord_M]
    split
    · exact Nat.mod_lt _ (Nat.two_pow_pos _)
    · exact h2 q
  · rw [setWord_vmarks, Regs8.get_set, setWord_N]
    split
    · rw [List.length_set]; exact h4 r
    · exact h4 q

theorem complete_wf (h : s.wf) (cls : CommandClass) (st zf : Bool) : (s.complete cls st zf).wf :=
  wf_of_same h rfl rfl rfl rfl (by simp)

theorem takeFault_wf (h : s.wf) (code : ErrCode) : (s.takeFault code).wf := wf_of_same h rfl rfl rfl rfl (by simp)

theorem clearStatus_wf (h : s.wf) : s.clearStatus.wf := wf_of_same h rfl rfl rfl rfl (by simp)

theorem hostRead_wf (h : s.wf) (addr : Nat) : (s.hostRead addr).wf := wf_of_same h rfl rfl rfl rfl h.2.2.2.2

theorem discardWrite_wf (h : s.wf) : s.discardWrite.wf := wf_of_same h rfl rfl rfl rfl h.2.2.2.2

theorem issue_wf (h : s.wf) (x : Nat) : (s.issue x).wf :=
  wf_of_same h rfl rfl rfl rfl (by simp [Nat.mod_lt])

theorem hostReset_wf (h : s.wf) : s.hostReset.wf := by
  refine ⟨h.1, fun r => ?_, fun r => ?_, fun r => ?_, by simp⟩
  · simp [V, Nat.mod_lt]
  · simp [S, Nat.mod_lt]
  · simp

end State

end Sys2Proof.Machine
end

