-- ==== Sys2Proof/Laws/Endings.lean ====
section
/-! SUPPORT. What the shared operations do, said once in the terms of claims: how a command that writes given destinations and
completes leaves the state, and what a fault leaves. -/

namespace Sys2Proof.Machine

/-! ### STATUS -/

theorem completionErr_eq (cls : CommandClass) (st : Bool) :
    completionErr cls st = if cls = .arithmetic ∧ st = true then .overflow else .none := by
  cases cls <;> cases st <;> rfl

/-- A completion writes STATUS as 10_state.md R29 says, whatever registers were written before it. -/
theorem completed_complete {s u : State} (h : u.status = s.status) (cls : CommandClass) (st zf : Bool) :
    Completed s (u.complete cls st zf) cls st zf where
  stIs := rfl
  zfIs := rfl
  errIs := completionErr_eq cls st
  stickyIs := by simp [Status.completed, h]
  ovrKept := by simp [Status.completed, h]

/-- No completion leaves a fault's code. -/
theorem isFault_completionErr (cls : CommandClass) (st : Bool) : (completionErr cls st).isFault = false := by
  cases cls <;> cases st <;> rfl

/-! ### Destinations -/

theorem setsV_complete {t : State} {r : VReg} {x : Nat} {known : Bool} (h : SetsV t r x known) (cls : CommandClass)
    (st zf : Bool) : SetsV (t.complete cls st zf) r x known := h

theorem setsS_complete {t : State} {r : SReg} {x : Nat} {known : Bool} (h : SetsS t r x known) (cls : CommandClass)
    (st zf : Bool) : SetsS (t.complete cls st zf) r x known := h

theorem setsV_setV (s : State) (r : VReg) (x : Nat) (known : Bool) : SetsV (s.setV r x known) r (x % 2 ^ s.M) known :=
  ⟨by simp, fun h => by simp [h]⟩

theorem setsS_setS (s : State) (r : SReg) (x : Nat) (known : Bool) : SetsS (s.setS r x known) r (x % 2 ^ s.W) known :=
  ⟨by simp, fun h => by simp [h]⟩

/-- A later write of an S register leaves a V register as it stands. -/
theorem SetsV.setS {t : State} {r : VReg} {x : Nat} {known : Bool} (h : SetsV t r x known) (q : SReg) (y : Nat) (k : Bool) :
    SetsV (t.setS q y k) r x known := h

/-- A later write of another V register leaves a V register as it stands. -/
theorem SetsV.setV_ne {t : State} {r : VReg} {x : Nat} {known : Bool} (h : SetsV t r x known) {q : VReg} (hq : r ≠ q)
    (y : Nat) (k : Bool) : SetsV (t.setV q y k) r x known := by
  obtain ⟨h1, h2⟩ := h
  exact ⟨by simp [hq, h1], fun hk => by simp [hq, h2 hk]⟩

/-- A later write of another S register leaves an S register as it stands. -/
theorem SetsS.setS_ne {t : State} {r : SReg} {x : Nat} {known : Bool} (h : SetsS t r x known) {q : SReg} (hq : r ≠ q)
    (y : Nat) (k : Bool) : SetsS (t.setS q y k) r x known := by
  obtain ⟨h1, h2⟩ := h
  exact ⟨by simp [hq, h1], fun hk => by simp [hq, h2 hk]⟩

/-! ### Frames -/

theorem frame_complete (s : State) (cls : CommandClass) (st zf : Bool) : Frame s (s.complete cls st zf) [] [] := by
  constructor <;> intros <;> rfl

theorem frame_clearStatus (s : State) : Frame s s.clearStatus [] [] := by
  constructor <;> intros <;> rfl

theorem frame_setV_complete (s : State) (d : VReg) (x : Nat) (known : Bool) (cls : CommandClass) (st zf : Bool) :
    Frame s ((s.setV d x known).complete cls st zf) [d] [] where
  params := rfl
  vKept r hr := by simp_all
  wordKept r i hr := by apply State.word_congr <;> simp_all
  vMarkKept r hr := by simp_all
  sKept _ _ := rfl
  sMarkKept _ _ := rfl
  turns := rfl
  reads := rfl
  draws := rfl
  idle := rfl

theorem frame_setWord_complete (s : State) (d : VReg) (i : Nat) (x : Nat) (known : Bool) (cls : CommandClass) (st zf : Bool) :
    Frame s ((s.setWord d i x known).complete cls st zf) [d] [] where
  params := rfl
  vKept r hr := by simp_all
  wordKept r i hr := by apply State.word_congr <;> simp_all
  vMarkKept r hr := by simp_all
  sKept _ _ := rfl
  sMarkKept _ _ := rfl
  turns := rfl
  reads := rfl
  draws := rfl
  idle := rfl

theorem frame_setS_complete (s : State) (d : SReg) (x : Nat) (known : Bool) (cls : CommandClass) (st zf : Bool) :
    Frame s ((s.setS d x known).complete cls st zf) [] [d] where
  params := rfl
  vKept _ _ := rfl
  wordKept _ _ _ := rfl
  vMarkKept _ _ := rfl
  sKept r hr := by simp_all
  sMarkKept r hr := by simp_all
  turns := rfl
  reads := rfl
  draws := rfl
  idle := rfl

theorem frame_setS_setS_complete (s : State) (d c : SReg) (x y : Nat) (known : Bool) (cls : CommandClass) (st zf : Bool) :
    Frame s (((s.setS d x known).setS c y known).complete cls st zf) [] [d, c] where
  params := rfl
  vKept _ _ := rfl
  wordKept _ _ _ := rfl
  vMarkKept _ _ := rfl
  sKept r hr := by simp_all
  sMarkKept r hr := by simp_all
  turns := rfl
  reads := rfl
  draws := rfl
  idle := rfl

theorem frame_setV_setV_complete (s : State) (d c : VReg) (x y : Nat) (known : Bool) (cls : CommandClass) (st zf : Bool) :
    Frame s (((s.setV d x known).setV c y known).complete cls st zf) [d, c] [] where
  params := rfl
  vKept r hr := by simp_all
  wordKept r i hr := by apply State.word_congr <;> simp_all
  vMarkKept r hr := by simp_all
  sKept _ _ := rfl
  sMarkKept _ _ := rfl
  turns := rfl
  reads := rfl
  draws := rfl
  idle := rfl

theorem frame_setV_setS_complete (s : State) (d : VReg) (c : SReg) (x : Nat) (y : Nat) (known : Bool)
    (cls : CommandClass) (st zf : Bool) : Frame s (((s.setV d x known).setS c y known).complete cls st zf) [d] [c] where
  params := rfl
  vKept r hr := by simp_all
  wordKept r i hr := by apply State.word_congr <;> simp_all
  vMarkKept r hr := by simp_all
  sKept r hr := by simp_all
  sMarkKept r hr := by simp_all
  turns := rfl
  reads := rfl
  draws := rfl
  idle := rfl

/-- `takeFault` is the fault of 60_exceptions.md R152. -/
theorem faulted_takeFault (s : State) (code : ErrCode) : Faulted s (s.takeFault code) code where
  frame := by constructor <;> intros <;> rfl
  stIs := rfl
  zfIs := rfl
  errIs := rfl
  stickyIs := rfl
  ovrKept := rfl

end Sys2Proof.Machine
end

