-- ==== Sys2Proof/Laws/Operands.lean ====
section
/-! SUPPORT. What the operand functions give: the leading and the lowest bit of a value, the carry-in, and the word ALU. -/

namespace Sys2Proof.Machine

/-! ### Leading and lowest bit (00_scope.md R14) -/

theorem testBit_leadingBit {v : Nat} (h : v ≠ 0) : v.testBit (leadingBit v) = true :=
  Nat.testBit_log2 h

theorem testBit_above_leadingBit {v : Nat} {j : Nat} (h : leadingBit v < j) : v.testBit j = false :=
  Nat.testBit_eq_false_of_lt (lt_of_lt_of_le Nat.lt_log2_self (Nat.pow_le_pow_right (by omega) h))

theorem leadingBit_lt {M : Nat} {v : Nat} (h : v ≠ 0) (hv : v < 2 ^ M) : leadingBit v < M :=
  (Nat.log2_lt h).2 hv

theorem lt_two_pow_leadingBit_succ (v : Nat) : v < 2 ^ (leadingBit v + 1) := Nat.lt_log2_self

theorem two_pow_leadingBit_le {v : Nat} (h : v ≠ 0) : 2 ^ leadingBit v ≤ v := Nat.log2_self_le h

/-- The lowest bit of a non-zero `M`-bit value: set, below `M`, and no bit below it is set. -/
theorem lowestBit_spec {M : Nat} {v : Nat} (h : v ≠ 0) (hv : v < 2 ^ M) :
    v.testBit (lowestBit M v) = true ∧ lowestBit M v < M ∧ ∀ j < lowestBit M v, v.testBit j = false := by
  have hset : ((List.range M).find? fun j => v.testBit j).isSome := by
    rw [List.find?_isSome]
    exact ⟨leadingBit v, List.mem_range.2 (leadingBit_lt h hv), testBit_leadingBit h⟩
  obtain ⟨j, hj⟩ := Option.isSome_iff_exists.1 hset
  have hform : lowestBit M v = j := by simp [lowestBit, hj]
  rw [List.find?_range_eq_some] at hj
  rw [hform]
  exact ⟨hj.1, List.mem_range.1 hj.2.1, fun i hi => by simpa using hj.2.2 i hi⟩

/-! ### The carry-in (30_encoding.md R64) -/

@[simp] theorem carryIn_zero (s : State) : s.carryIn .zero = false := rfl
@[simp] theorem carryIn_one (s : State) : s.carryIn .one = true := rfl
@[simp] theorem carryIn_status (s : State) : s.carryIn .status = s.status.st := rfl

/-! ### The word ALU (41_wordops.md R94): each result with its carry or borrow is the exact one -/

theorem addWords_exact (W : Nat) {a b : Nat} (c : Bool) (ha : a < 2 ^ W) (hb : b < 2 ^ W) :
    (addWords W a b c).1 + (addWords W a b c).2.toNat * 2 ^ W = a + b + c.toNat := by
  have hc : c.toNat ≤ 1 := Bool.toNat_le c
  simp only [addWords, carryOut]
  by_cases h : 2 ^ W ≤ a + b + c.toNat
  · rw [Nat.mod_eq_sub_mod h, Nat.mod_eq_of_lt (by omega)]
    simp [h]
  · rw [Nat.mod_eq_of_lt (by omega)]
    simp [h]

theorem mulWords_exact (W : Nat) (a b : Nat) : (mulWords W a b).1 * 2 ^ W + (mulWords W a b).2 = a * b := by
  simp only [mulWords]
  rw [Nat.mul_comm]
  exact Nat.div_add_mod _ _

theorem divDoubleWord_exact (W : Nat) (hi lo d : Nat) :
    (divDoubleWord W hi lo d).1 * d + (divDoubleWord W hi lo d).2 = hi * 2 ^ W + lo := by
  simp only [divDoubleWord]
  rw [Nat.mul_comm]
  exact Nat.div_add_mod _ _

end Sys2Proof.Machine
end

