-- ==== Sys2Proof/Laws/PerInstr.lean ====
section
/-! SUPPORT. What holds of every command as syntax, one lemma per command. -/

namespace Sys2Proof.Laws.EncodesInRow

/-- The encoder writes the fields of a row of R68: the opcode has a row, every field outside its "fields used" column is
zero (30_encoding.md R63), and those fields name the command. -/
def Statement (i : Instr) : Prop :=
  ∃ used, usedFields (encodeFields i).op = some used ∧ (encodeFields i).cleanOutside used = true ∧
    buildInstr (encodeFields i) = .ok i

theorem vset (d : VReg) (a : SReg) : Statement (.vset d a) :=
  ⟨_, rfl, by simp [encodeFields, Fields.cleanOutside, Fields.blank, Fields.value], rfl⟩

theorem vldw (d : VReg) (a b : SReg) : Statement (.vldw d a b) :=
  ⟨_, rfl, by simp [encodeFields, Fields.cleanOutside, Fields.blank, Fields.value], rfl⟩

theorem vstw (d : SReg) (a : VReg) (b : SReg) : Statement (.vstw d a b) :=
  ⟨_, rfl, by simp [encodeFields, Fields.cleanOutside, Fields.blank, Fields.value], rfl⟩

theorem vmov (d a : VReg) : Statement (.vmov d a) :=
  ⟨_, rfl, by simp [encodeFields, Fields.cleanOutside, Fields.blank, Fields.value], rfl⟩

theorem clrst : Statement (.clrst) :=
  ⟨_, rfl, by simp [encodeFields, Fields.cleanOutside, Fields.blank, Fields.value], rfl⟩

theorem wadd (d a b : SReg) (ci : CarryIn) : Statement (.wadd d a b ci) :=
  ⟨_, rfl, by simp [encodeFields, Fields.cleanOutside, Fields.blank, Fields.value], by simp [encodeFields, buildInstr, Fields.blank, Except.map]⟩

theorem wsub (d a b : SReg) (ci : CarryIn) : Statement (.wsub d a b ci) :=
  ⟨_, rfl, by simp [encodeFields, Fields.cleanOutside, Fields.blank, Fields.value], by simp [encodeFields, buildInstr, Fields.blank, Except.map]⟩

theorem wmul (d c a b : SReg) : Statement (.wmul d c a b) :=
  ⟨_, rfl, by simp [encodeFields, Fields.cleanOutside, Fields.blank, Fields.value], rfl⟩

theorem wdiv (d c a b e : SReg) : Statement (.wdiv d c a b e) :=
  ⟨_, rfl, by simp [encodeFields, Fields.cleanOutside, Fields.blank, Fields.value], rfl⟩

theorem vadd (d b : VReg) (ci : CarryIn) : Statement (.vadd d b ci) :=
  ⟨_, rfl, by simp [encodeFields, Fields.cleanOutside, Fields.blank, Fields.value], by simp [encodeFields, buildInstr, Fields.blank, Except.map]⟩

theorem vsub (d b : VReg) (ci : CarryIn) : Statement (.vsub d b ci) :=
  ⟨_, rfl, by simp [encodeFields, Fields.cleanOutside, Fields.blank, Fields.value], by simp [encodeFields, buildInstr, Fields.blank, Except.map]⟩

theorem vaddo (d : VReg) (a b : SReg) : Statement (.vaddo d a b) :=
  ⟨_, rfl, by simp [encodeFields, Fields.cleanOutside, Fields.blank, Fields.value], rfl⟩

theorem vsubo (d : VReg) (a b : SReg) : Statement (.vsubo d a b) :=
  ⟨_, rfl, by simp [encodeFields, Fields.cleanOutside, Fields.blank, Fields.value], rfl⟩

theorem vshl (d : VReg) (b : SReg) (ci : CarryIn) : Statement (.vshl d b ci) :=
  ⟨_, rfl, by simp [encodeFields, Fields.cleanOutside, Fields.blank, Fields.value], by simp [encodeFields, buildInstr, Fields.blank, Except.map]⟩

theorem vshr (d : VReg) (b : SReg) (ci : CarryIn) : Statement (.vshr d b ci) :=
  ⟨_, rfl, by simp [encodeFields, Fields.cleanOutside, Fields.blank, Fields.value], by simp [encodeFields, buildInstr, Fields.blank, Except.map]⟩

theorem vflb (d c : SReg) (a : VReg) : Statement (.vflb d c a) :=
  ⟨_, rfl, by simp [encodeFields, Fields.cleanOutside, Fields.blank, Fields.value], rfl⟩

theorem vftb (d c : SReg) (a : VReg) : Statement (.vftb d c a) :=
  ⟨_, rfl, by simp [encodeFields, Fields.cleanOutside, Fields.blank, Fields.value], rfl⟩

theorem vgetb (a : VReg) (b : SReg) : Statement (.vgetb a b) :=
  ⟨_, rfl, by simp [encodeFields, Fields.cleanOutside, Fields.blank, Fields.value], rfl⟩

theorem vsetb (d : VReg) (b : SReg) : Statement (.vsetb d b) :=
  ⟨_, rfl, by simp [encodeFields, Fields.cleanOutside, Fields.blank, Fields.value], rfl⟩

theorem vnorm (d : VReg) (c : SReg) : Statement (.vnorm d c) :=
  ⟨_, rfl, by simp [encodeFields, Fields.cleanOutside, Fields.blank, Fields.value], rfl⟩

theorem vand (d b : VReg) : Statement (.vand d b) :=
  ⟨_, rfl, by simp [encodeFields, Fields.cleanOutside, Fields.blank, Fields.value], rfl⟩

theorem vor (d b : VReg) : Statement (.vor d b) :=
  ⟨_, rfl, by simp [encodeFields, Fields.cleanOutside, Fields.blank, Fields.value], rfl⟩

theorem vxor (d b : VReg) : Statement (.vxor d b) :=
  ⟨_, rfl, by simp [encodeFields, Fields.cleanOutside, Fields.blank, Fields.value], rfl⟩

theorem vnot (d : VReg) : Statement (.vnot d) :=
  ⟨_, rfl, by simp [encodeFields, Fields.cleanOutside, Fields.blank, Fields.value], rfl⟩

theorem vnotm (d : VReg) : Statement (.vnotm d) :=
  ⟨_, rfl, by simp [encodeFields, Fields.cleanOutside, Fields.blank, Fields.value], rfl⟩

theorem vmulw (d : VReg) (b : SReg) : Statement (.vmulw d b) :=
  ⟨_, rfl, by simp [encodeFields, Fields.cleanOutside, Fields.blank, Fields.value], rfl⟩

theorem vmuld (d a b : VReg) (alg : MulAlg) : Statement (.vmuld d a b alg) :=
  ⟨_, rfl, by simp [encodeFields, Fields.cleanOutside, Fields.blank, Fields.value], by simp [encodeFields, buildInstr, Fields.blank, Except.map]⟩

theorem vmul (d b : VReg) (alg : MulAlg) : Statement (.vmul d b alg) :=
  ⟨_, rfl, by simp [encodeFields, Fields.cleanOutside, Fields.blank, Fields.value], by simp [encodeFields, buildInstr, Fields.blank, Except.map]⟩

theorem vdivw (d : VReg) (b c : SReg) : Statement (.vdivw d b c) :=
  ⟨_, rfl, by simp [encodeFields, Fields.cleanOutside, Fields.blank, Fields.value], rfl⟩

theorem vdiv (d b c : VReg) (alg : DivAlg) : Statement (.vdiv d b c alg) :=
  ⟨_, rfl, by simp [encodeFields, Fields.cleanOutside, Fields.blank, Fields.value], by simp [encodeFields, buildInstr, Fields.blank, Except.map]⟩

end Sys2Proof.Laws.EncodesInRow
end

