-- ==== Sys2Proof/Laws/Step.lean ====
section
/-! SUPPORT. What a command can do and what a step can do, said once: later proofs cite these and unfold neither. -/

namespace Sys2Proof.Machine

/-! ### A command -/

/-- From `s`, destinations among the V registers `vs` and the S registers `ss` were written with values that are all known or
all not, and nothing else. -/
inductive Writes (s : State) (vs : List VReg) (ss : List SReg) (known : Bool) : State → Prop
  | nothing : Writes s vs ss known s
  | whole {u : State} {r : VReg} (x : Nat) : Writes s vs ss known u → r ∈ vs → Writes s vs ss known (u.setV r x known)
  | word {u : State} {r : VReg} (i x : Nat) :
      Writes s vs ss known u → r ∈ vs → Writes s vs ss known (u.setWord r i x known)
  | sreg {u : State} {r : SReg} (x : Nat) : Writes s vs ss known u → r ∈ ss → Writes s vs ss known (u.setS r x known)

/-- The three ways a command ends: a fault, CLRST, or its destinations written and a completion. -/
inductive Ends (i : Instr) (s : State) : State → Prop
  | fault {code : ErrCode} : code.isFault = true → Ends i s (s.takeFault code)
  | clear : i = .clrst → Ends i s s.clearStatus
  | done {u : State} (cls : CommandClass) (st zf : Bool) :
      Writes s i.vWrites i.sWrites (operandsSet i s) u → (cls = .arithmetic → i.isArithmetic = true) →
      Ends i s (u.complete cls st zf)

/-- Every command ends in one of those ways. -/
theorem exec_ends (i : Instr) (s : State) : ∃ t, exec i s = .next t ∧ Ends i s t := by
  cases i <;>
    simp only [exec, execVset, execVldw, execVstw, execVmov, execClrst, execWadd, execWsub, execWmul, execWdiv, execVadd,
      execVsub, execVaddo, execVsubo, execVshl, execVshr, execVflb, execVftb, execVgetb, execVsetb, execVnorm, execVand,
      execVor, execVxor, execVnot, execVnotm, execVmulw, execVmuld, execVmul, execVdivw, execVdiv, State.finishAdd_eq,
      State.finishSub_eq, State.finishScan_eq, State.finishLogic_eq, State.finishNarrow_eq] <;>
    (repeat' split) <;>
    refine ⟨_, rfl, ?_⟩ <;>
    first
      | exact .fault rfl
      | exact .clear rfl
      | (refine .done _ _ _ ?_ (by simp [Instr.isArithmetic])
         repeat' first
           | exact .nothing
           | refine .whole _ ?_ (by simp [Instr.vWrites])
           | refine .word _ _ ?_ (by simp [Instr.vWrites])
           | refine .sreg _ ?_ (by simp [Instr.sWrites]))

/-- The inversion of a command's answer. -/
theorem ends_of_exec {i : Instr} {s t : State} (h : exec i s = .next t) : Ends i s t := by
  obtain ⟨u, hu, he⟩ := exec_ends i s
  rw [hu] at h
  cases h
  exact he

namespace Writes

variable {s u : State} {vs : List VReg} {ss : List SReg} {known : Bool}

/-- Writing destinations changes nothing but register values and set-marks. -/
theorem rest_kept (h : Writes s vs ss known u) :
    u.params = s.params ∧ u.status = s.status ∧ u.inFlight = s.inFlight ∧ u.turns = s.turns ∧ u.reads = s.reads ∧
      u.draws = s.draws := by
  induction h <;> simp_all

theorem v_kept (h : Writes s vs ss known u) {r : VReg} (hr : r ∉ vs) :
    u.V r = s.V r ∧ u.vmarks.get r = s.vmarks.get r := by
  induction h with
  | nothing => exact ⟨rfl, rfl⟩
  | whole x _ hq ih => simp_all [show ¬ r = _ from fun h => hr (h ▸ hq)]
  | word i x _ hq ih => simp_all [show ¬ r = _ from fun h => hr (h ▸ hq)]
  | sreg x _ _ ih => exact ih

theorem s_kept (h : Writes s vs ss known u) {r : SReg} (hr : r ∉ ss) : u.S r = s.S r ∧ u.sIsSet r = s.sIsSet r := by
  induction h with
  | nothing => exact ⟨rfl, rfl⟩
  | whole x _ _ ih => exact ih
  | word i x _ _ ih => exact ih
  | sreg x _ hq ih => simp_all [show ¬ r = _ from fun h => hr (h ▸ hq)]

/-- A write sets a word that was not set only if the values written are known (70_reset_and_hazards.md R172). -/
theorem word_set (h : Writes s vs ss known u) {r : VReg} {j : Nat} (hj : u.wordIsSet r j = true) :
    s.wordIsSet r j = true ∨ known = true ∧ r ∈ vs := by
  induction h with
  | nothing => exact .inl hj
  | @whole u q x _ hq ih =>
    rw [State.wordIsSet_setV] at hj
    by_cases hr : r = q
    · rw [if_pos hr] at hj
      refine .inr ⟨?_, hr ▸ hq⟩
      rw [List.getD_eq_getElem?_getD, List.getElem?_replicate] at hj
      split at hj
      · exact hj
      · cases hj
    · rw [if_neg hr] at hj
      exact ih hj
  | @word u q i x _ hq ih =>
    rw [State.wordIsSet_setWord] at hj
    by_cases hr : r = q ∧ j = i ∧ i < (u.vmarks.get q).length
    · rw [if_pos hr] at hj
      exact .inr ⟨hj, hr.1 ▸ hq⟩
    · rw [if_neg hr] at hj
      exact ih hj
  | sreg x _ _ ih => exact ih hj

/-- The same of an S register. -/
theorem sreg_set (h : Writes s vs ss known u) {r : SReg} (hj : u.sIsSet r = true) :
    s.sIsSet r = true ∨ known = true ∧ r ∈ ss := by
  induction h with
  | nothing => exact .inl hj
  | whole x _ _ ih => exact ih hj
  | word i x _ _ ih => exact ih hj
  | @sreg u q x _ hq ih =>
    rw [State.sIsSet_setS] at hj
    by_cases hr : r = q
    · rw [if_pos hr] at hj
      exact .inr ⟨hj, hr ▸ hq⟩
    · rw [if_neg hr] at hj
      exact ih hj

theorem wf (h : Writes s vs ss known u) (hs : s.wf) : u.wf := by
  induction h with
  | nothing => exact hs
  | whole x _ _ ih => exact State.setV_wf _ ih _ x
  | word i x _ _ ih => exact State.setWord_wf _ ih _ i x
  | sreg x _ _ ih => exact State.setS_wf _ ih _ x

/-- A word that a write of values not known changed is not set (log entry 23). -/
theorem word_changed (h : Writes s vs ss false u) (hs : s.wf) {r : VReg} {j : Nat} (hj : u.word r j ≠ s.word r j) :
    u.wordIsSet r j = false := by
  induction h with
  | nothing => exact absurd rfl hj
  | @whole u q x _ _ ih =>
    rw [State.wordIsSet_setV]
    split
    · rw [List.getD_eq_getElem?_getD, List.getElem?_replicate]
      split <;> rfl
    · next hr => exact ih (by rwa [State.word_congr (s := u) (t := u.setV q x false) rfl (by simp [hr])] at hj)
  | @word u q i x hu _ ih =>
    have hw := hu.wf hs
    rw [State.wordIsSet_setWord]
    split
    · rfl
    · next hr =>
      by_cases hq : r = q
      · subst hq
        by_cases hjN : j < u.N
        · have hji : j ≠ i := fun he => hr ⟨rfl, he, by rw [hw.2.2.2.1]; exact he ▸ hjN⟩
          exact ih (by rwa [State.word_setWord_of_lt _ _ _ _ hjN hji] at hj)
        · rw [State.wordIsSet, List.getD_eq_getElem?_getD, List.getElem?_eq_none (by rw [hw.2.2.2.1]; omega)]
          rfl
      · exact ih (by rwa [State.word_congr (s := u) (t := u.setWord q i x false) rfl (by simp [hq])] at hj)
  | sreg x _ _ ih => exact ih hj

/-- The same of an S register. -/
theorem sreg_changed (h : Writes s vs ss false u) {r : SReg} (hj : u.S r ≠ s.S r) : u.sIsSet r = false := by
  induction h with
  | nothing => exact absurd rfl hj
  | whole x _ _ ih => exact ih hj
  | word i x _ _ ih => exact ih hj
  | @sreg u q x _ _ ih =>
    rw [State.sIsSet_setS]
    split
    · rfl
    · next hr => exact ih (by simpa [hr] using hj)

end Writes

/-! ### A step -/

/-- What a step can do: nothing but pass an idle engine's turn, complete the command in flight, or take a host
transaction. -/
theorem step_cases {s t : State} (h : step s = .next t) :
    (s.inFlight = none ∧ EngineNext s ∧ t = { s with turns := s.turns.tail }) ∨
    (∃ x, s.inFlight = some x ∧ EngineNext s ∧ runCommand x { s with turns := s.turns.tail } = .next t) ∨
    ∃ op rest, s.turns = .host op :: rest ∧ t = State.hostTurn { s with turns := rest } op := by
  have engine : ∀ u : State, u.inFlight = s.inFlight → engineTurn u = .next t →
      (s.inFlight = none ∧ t = u) ∨ ∃ x, s.inFlight = some x ∧ runCommand x u = .next t := by
    intro u hu he
    unfold engineTurn at he
    split at he
    · next hn =>
      cases he
      exact .inl ⟨by rw [← hu, hn], rfl⟩
    · next x hx => exact .inr ⟨x, by rw [← hu, hx], he⟩
  unfold step at h
  split at h
  · next ht =>
    have same : ({ s with turns := s.turns.tail } : State) = s := by
      obtain ⟨_, _, _, _, _, _, _, turns, _, _⟩ := s
      cases ht
      rfl
    rw [same]
    rcases engine s rfl h with ⟨hn, rfl⟩ | ⟨x, hx, hr⟩
    · exact .inl ⟨hn, .inl ht, rfl⟩
    · exact .inr (.inl ⟨x, hx, .inl ht, hr⟩)
  · next rest ht =>
    have same : ({ s with turns := s.turns.tail } : State) = { s with turns := rest } := by rw [ht]; rfl
    rw [same]
    rcases engine { s with turns := rest } rfl h with ⟨hn, rfl⟩ | ⟨x, hx, hr⟩
    · exact .inl ⟨hn, .inr ⟨rest, ht⟩, rfl⟩
    · exact .inr (.inl ⟨x, hx, .inr ⟨rest, ht⟩, hr⟩)
  · next op rest ht =>
    cases h
    exact .inr (.inr ⟨op, rest, ht, rfl⟩)

/-- A command word runs to a fault with ERR = 4 when it is illegal, and as the command it decodes to otherwise. -/
theorem runCommand_cases {x : Nat} {s t : State} (h : runCommand x s = .next t) :
    ((∃ why, decodeCommand s.params.width x = .error why) ∧ t = s.takeFault .illegalCommand) ∨
    ∃ i, decodeCommand s.params.width x = .ok i ∧ exec i s = .next t := by
  unfold runCommand at h
  split at h
  · next why hw =>
    cases h
    exact .inl ⟨⟨why, hw⟩, rfl⟩
  · next i hi => exact .inr ⟨i, hi, h⟩

/-! ### The port map (20_memory.md R44, R45) -/

@[simp] theorem portReg_cmd : portReg 0 = .cmd := rfl
@[simp] theorem portReg_status : portReg 1 = .status := rfl
@[simp] theorem portReg_config : portReg 2 = .config := rfl

@[simp] theorem portReg_sreg (k : SReg) : portReg (8 + k.val) = .sreg k := by
  fin_cases k <;> rfl

theorem portReg_of_sreg_range {addr : Nat} (h : 8 ≤ addr) (h' : addr < 16) :
    ∃ k : SReg, addr = 8 + k.val ∧ portReg addr = .sreg k := by
  obtain ⟨k, rfl⟩ := Nat.exists_eq_add_of_le h
  exact ⟨⟨k, by omega⟩, rfl, portReg_sreg ⟨k, by omega⟩⟩

theorem portReg_reserved {addr : Nat} (h : 2 < addr) (h' : addr < 8 ∨ 16 ≤ addr) : portReg addr = .reserved := by
  unfold portReg
  split <;> first | omega | rfl

end Sys2Proof.Machine
end

