-- ==== Sys2Proof/Tests/Slice0.lean ====
section
/-! SUPPORT. The model's own tests: what WellFormed and the decoder refuse, each command's word written out field by field, one
or two steps a command from the worked examples of the spec, and a state that meets the hypotheses of each statement. -/

namespace Sys2Proof.Tests

open Sys2Proof.Machine

/-! ### WellFormed refuses each kind of ill-formed command (30_encoding.md R67 (e) to (g)) -/

theorem test_ill_formed_odd_pair : (Instr.vmuld 3 0 1 .auto).flaw = some .oddPair := by decide

theorem test_ill_formed_same_destination :
    (Instr.wmul 3 3 1 2).flaw = some .sameDestination ∧ (Instr.wdiv 3 3 1 2 5).flaw = some .sameDestination ∧
    (Instr.vflb 3 3 1).flaw = some .sameDestination ∧ (Instr.vftb 3 3 1).flaw = some .sameDestination ∧
    (Instr.vdiv 3 2 3 .knuth).flaw = some .sameDestination := by decide

theorem test_well_formed :
    (Instr.vmuld 6 6 7 .karatsuba).wellFormed ∧ (Instr.wdiv 3 4 3 4 3).wellFormed ∧ (Instr.vdiv 1 2 2 .align).wellFormed := by
  decide

/-! ### Decoding

Each word is written from the layout of R60: OP, D, A, B, C, E, CI, ALG, RSV. -/

theorem test_decode_transfer :
    decode 0b000001_000_001_000_000_000_00_00_0000000 = .ok (.vset 0 1) ∧
    decode 0b000010_001_010_011_000_000_00_00_0000000 = .ok (.vldw 1 2 3) ∧
    decode 0b000011_100_001_011_000_000_00_00_0000000 = .ok (.vstw 4 1 3) ∧
    decode 0b000100_010_001_000_000_000_00_00_0000000 = .ok (.vmov 2 1) ∧
    decode 0b000101_000_000_000_000_000_00_00_0000000 = .ok .clrst := by decide

theorem test_decode_wordops :
    decode 0b001000_000_001_010_000_000_00_00_0000000 = .ok (.wadd 0 1 2 .zero) ∧
    decode 0b001001_111_110_101_000_000_01_00_0000000 = .ok (.wsub 7 6 5 .one) ∧
    decode 0b001010_011_001_010_100_000_00_00_0000000 = .ok (.wmul 3 4 1 2) ∧
    decode 0b001011_011_001_010_100_101_00_00_0000000 = .ok (.wdiv 3 4 1 2 5) := by decide

theorem test_decode_vector_arith :
    decode 0b010000_001_000_010_000_000_10_00_0000000 = .ok (.vadd 1 2 .status) ∧
    decode 0b010001_111_000_110_000_000_01_00_0000000 = .ok (.vsub 7 6 .one) ∧
    decode 0b010010_001_010_011_000_000_00_00_0000000 = .ok (.vaddo 1 2 3) ∧
    decode 0b010011_110_101_100_000_000_00_00_0000000 = .ok (.vsubo 6 5 4) := by decide

theorem test_decode_shift :
    decode 0b011000_001_000_010_000_000_01_00_0000000 = .ok (.vshl 1 2 .one) ∧
    decode 0b011001_111_000_101_000_000_10_00_0000000 = .ok (.vshr 7 5 .status) := by decide

theorem test_decode_scan_and_bits :
    decode 0b011010_011_001_000_100_000_00_00_0000000 = .ok (.vflb 3 4 1) ∧
    decode 0b011011_111_110_000_000_000_00_00_0000000 = .ok (.vftb 7 0 6) ∧
    decode 0b011100_000_001_010_000_000_00_00_0000000 = .ok (.vgetb 1 2) ∧
    decode 0b011101_110_000_101_000_000_00_00_0000000 = .ok (.vsetb 6 5) ∧
    decode 0b011110_001_000_000_010_000_00_00_0000000 = .ok (.vnorm 1 2) := by decide

theorem test_decode_logic :
    decode 0b100000_001_000_010_000_000_00_00_0000000 = .ok (.vand 1 2) ∧
    decode 0b100001_011_000_100_000_000_00_00_0000000 = .ok (.vor 3 4) ∧
    decode 0b100010_101_000_110_000_000_00_00_0000000 = .ok (.vxor 5 6) ∧
    decode 0b100011_001_000_000_000_000_00_00_0000000 = .ok (.vnot 1) ∧
    decode 0b100100_111_000_000_000_000_00_00_0000000 = .ok (.vnotm 7) := by decide

theorem test_decode_multiply :
    decode 0b101000_001_000_010_000_000_00_00_0000000 = .ok (.vmulw 1 2) ∧
    decode 0b101001_010_000_001_000_000_00_00_0000000 = .ok (.vmuld 2 0 1 .auto) ∧
    decode 0b101001_110_101_011_000_000_00_10_0000000 = .ok (.vmuld 6 5 3 .karatsuba) ∧
    decode 0b101010_000_000_001_000_000_00_01_0000000 = .ok (.vmul 0 1 .schoolbook) := by decide

theorem test_decode_divide :
    decode 0b110000_001_000_010_011_000_00_00_0000000 = .ok (.vdivw 1 2 3) ∧
    decode 0b110001_001_000_010_011_000_00_00_0000000 = .ok (.vdiv 1 2 3 .knuth) ∧
    decode 0b110001_001_000_010_010_000_00_01_0000000 = .ok (.vdiv 1 2 2 .restoring) ∧
    decode 0b110001_101_000_110_111_000_00_10_0000000 = .ok (.vdiv 5 6 7 .align) := by decide

/-- OP = 0x00 and OP = 0x06 are reserved (R67 (a)). -/
theorem test_decode_refuses_reserved_opcode :
    decode 0b000000_000_000_000_000_000_00_00_0000000 = .error .reservedOpcode ∧
    decode 0b000110_000_000_000_000_000_00_00_0000000 = .error .reservedOpcode ∧
    decode 0b111111_111_111_111_111_111_11_11_0000000 = .error .reservedOpcode := by decide

/-- VMOV with B set, VADD with ALG set, CLRST with RSV set (R67 (b)). -/
theorem test_decode_refuses_unused_field :
    decode 0b000100_010_001_001_000_000_00_00_0000000 = .error .unusedFieldNonZero ∧
    decode 0b010000_001_000_010_000_000_00_01_0000000 = .error .unusedFieldNonZero ∧
    decode 0b000101_000_000_000_000_000_00_00_0000001 = .error .unusedFieldNonZero := by decide

/-- CI = 0b11 (R67 (c)) and ALG = 0b11 (R67 (d)). -/
theorem test_decode_refuses_selects :
    decode 0b010000_001_000_010_000_000_11_00_0000000 = .error .carryInSelect ∧
    decode 0b001000_001_000_010_000_000_11_00_0000000 = .error .carryInSelect ∧
    decode 0b101001_010_000_001_000_000_00_11_0000000 = .error .algorithmSelect ∧
    decode 0b110001_001_000_010_011_000_00_11_0000000 = .error .algorithmSelect := by decide

/-- VMULD with D odd (R67 (e)). -/
theorem test_decode_refuses_odd_pair :
    decode 0b101001_001_000_001_000_000_00_00_0000000 = .error (.illFormed .oddPair) ∧
    decode 0b101001_111_000_001_000_000_00_00_0000000 = .error (.illFormed .oddPair) := by decide

/-- WMUL, WDIV, VFLB, VFTB (R67 (f)) and VDIV (R67 (g)) with D = C. -/
theorem test_decode_refuses_same_destination :
    decode 0b001010_011_000_000_011_000_00_00_0000000 = .error (.illFormed .sameDestination) ∧
    decode 0b001011_011_000_000_011_000_00_00_0000000 = .error (.illFormed .sameDestination) ∧
    decode 0b011010_011_000_000_011_000_00_00_0000000 = .error (.illFormed .sameDestination) ∧
    decode 0b011011_011_000_000_011_000_00_00_0000000 = .error (.illFormed .sameDestination) ∧
    decode 0b110001_011_000_000_011_000_00_00_0000000 = .error (.illFormed .sameDestination) := by decide
/-- Bits 63:32 of the CMD write non-zero with `W = 64` (R67 (h)); with `W = 32` there are no such bits. -/
theorem test_decode_refuses_upper_bits :
    decodeCommand .w64 0x1_04100000 = .error .upperBitsNonZero ∧ decodeCommand .w64 0x04100000 = .ok (.vset 0 1) := by decide

/-- The bits of an operand field (R60). -/
def fieldBits : Field → BitVec 32
  | .d => 0x03800000
  | .a => 0x00700000
  | .b => 0x000E0000
  | .c => 0x0001C000
  | .e => 0x00003800
  | .i => 0x00000600
  | .g => 0x00000180

/-- The columns of R68 agree: `match` is the opcode alone, `mask` every bit outside the fields used. -/
theorem test_table_columns_agree :
    ∀ r ∈ opcodeTable, r.pattern = BitVec.ofNat 32 (r.op * 2 ^ 26) ∧
      r.mask = ~~~ (((usedFields r.op).getD []).foldl (fun m f => m ||| fieldBits f) 0) := by decide

/-! ### One step of each command

The states and results are those of 95_test_vectors.md, whose row each test names; `W = 32`. -/

/-- A small state: an instance of `n` words, these V and S registers written, STATUS clear. -/
def start (n : Nat) (vs : List (VReg × Nat)) (ss : List (SReg × Nat)) : State :=
  ss.foldl (fun s p => s.setS p.1 p.2 true)
    (vs.foldl (fun s p => s.setV p.1 p.2 true) (State.resetOf { width := .w32, words := n, threshold := .kt3 }))

/-- What `f` shows of the state after the step that runs the word `x`. -/
def after {α : Type} (x : Nat) (s : State) (f : State → α) : Option α :=
  match step (s.withFetchWord 32 x) with
  | .next t => some (f t)
  | .fault _ => none
  | .refused _ => none

/-- STATUS as the port reads it. -/
def statusOf (t : State) : Nat := t.status.word t.busy

/-- ST left by the previous command. -/
def withSt (s : State) : State := { s with status := { s.status with st := true } }

theorem test_vset_T1 :
    after 0x04100000 (start 2 [] [(1, 0x12345678)]) (fun t => (t.V 0, statusOf t)) = some (0x12345678, 0x00) := by decide

theorem test_vldw_T2 :
    after 0x08A60000 (start 2 [(1, 0)] [(2, 0xDEADBEEF), (3, 1)]) (fun t => (t.V 1, statusOf t))
      = some (0xDEADBEEF_00000000, 0x00) := by decide

theorem test_vldw_T3 :
    after 0x08A60000 (start 2 [(1, 0)] [(2, 5), (3, 2)]) (fun t => (t.V 1, statusOf t)) = some (0, 0x2D) := by decide

theorem test_vstw_T4 :
    after 0x0D960000 (start 2 [(1, 0xDEADBEEF_00000000)] [(3, 1)]) (fun t => (t.S 3, statusOf t))
      = some (0xDEADBEEF, 0x00) := by decide

theorem test_vmov_T6 :
    after 0x11100000 (start 2 [(1, 5)] []) (fun t => (t.V 2, t.V 1, statusOf t)) = some (5, 5, 0x00) := by decide

theorem test_clrst_T7 :
    after 0x14000000
      { start 2 [] [] with status := { st := true, zf := true, err := .overflow, sticky := true, ovr := true } }
      statusOf = some 0x00 := by decide

theorem test_wadd_W1 :
    after 0x20140200 (start 1 [] [(1, 0xFFFFFFFF), (2, 0xFFFFFFFF)]) (fun t => (t.S 0, statusOf t))
      = some (0xFFFFFFFF, 0x25) := by decide

theorem test_wadd_W2 :
    after 0x20140400 (withSt (start 1 [] [(1, 5), (2, 3)])) (fun t => (t.S 0, statusOf t)) = some (9, 0x00) := by decide

theorem test_wsub_W4 :
    after 0x24140200 (start 1 [] [(1, 0), (2, 0xFFFFFFFF)]) (fun t => (t.S 0, statusOf t)) = some (0, 0x25) := by decide

theorem test_wmul_W7 :
    after 0x28948000 (start 1 [] [(1, 0xFFFFFFFF), (2, 0xFFFFFFFF)]) (fun t => (t.S 1, t.S 2, statusOf t))
      = some (0xFFFFFFFE, 1, 0x00) := by decide

theorem test_wdiv_W9 :
    after 0x2D952800 (start 1 [] [(1, 6), (2, 0xFFFFFFFF), (5, 7)]) (fun t => (t.S 3, t.S 4, statusOf t))
      = some (0xFFFFFFFF, 6, 0x00) := by decide

theorem test_wdiv_W12 :
    after 0x2D952800 (start 1 [] [(1, 0), (2, 0), (5, 0)]) (fun t => (t.S 3, t.S 4, statusOf t)) = some (0, 0, 0x29) := by
  decide

theorem test_vadd_A1 :
    after 0x40840000 (start 2 [(1, 0xFFFFFFFF), (2, 1)] []) (fun t => (t.V 1, statusOf t))
      = some (0x00000001_00000000, 0x00) := by decide

theorem test_vadd_A3 :
    after 0x40820000 (start 2 [(1, 0x80000000_00000001)] []) (fun t => (t.V 1, statusOf t)) = some (2, 0x25) := by decide

theorem test_vsub_A6 :
    after 0x44840000 (start 2 [(1, 3), (2, 5)] []) (fun t => (t.V 1, statusOf t))
      = some (0xFFFFFFFF_FFFFFFFE, 0x25) := by decide

theorem test_vaddo_A8 :
    after 0x48A60000 (start 2 [(1, 0xFFFFFFFF_00000000)] [(2, 1), (3, 1)]) (fun t => (t.V 1, statusOf t))
      = some (0, 0x25) := by decide

theorem test_vsubo_A11 :
    after 0x4CA60000 (start 2 [(1, 5)] [(2, 1), (3, 1)]) (fun t => (t.V 1, statusOf t))
      = some (0xFFFFFFFF_00000005, 0x25) := by decide

theorem test_vshl_SH3 :
    after 0x60840000 (start 2 [(1, 0x00000001_12345678)] [(2, 0x20)]) (fun t => (t.V 1, statusOf t))
      = some (0x12345678_00000000, 0x01) := by decide

theorem test_vshl_SH5 :
    after 0x60840200 (start 2 [(1, 0)] [(2, 0x41)]) (fun t => (t.V 1, statusOf t))
      = some (0xFFFFFFFF_FFFFFFFF, 0x01) := by decide

theorem test_vshr_SH8 :
    after 0x64840200 (start 2 [(1, 0x10)] [(2, 4)]) (fun t => (t.V 1, statusOf t))
      = some (0xF0000000_00000001, 0x00) := by decide

theorem test_vshr_SH10 :
    after 0x64840400 (withSt (start 2 [(1, 3)] [(2, 1)])) (fun t => (t.V 1, statusOf t))
      = some (0x80000000_00000001, 0x01) := by decide

theorem test_vflb_B3 :
    after 0x69910000 (start 2 [(1, 0x80000000_00000000)] []) (fun t => (t.S 3, t.S 4, statusOf t))
      = some (1, 0x1F, 0x00) := by decide

theorem test_vflb_B2 :
    after 0x69910000 (start 2 [(1, 0)] [(3, 0xAAAA), (4, 0xBBBB)]) (fun t => (t.S 3, t.S 4, statusOf t))
      = some (0xAAAA, 0xBBBB, 0x02) := by decide

theorem test_vftb_B4 :
    after 0x6D910000 (start 2 [(1, 0x00010000_00000000)] []) (fun t => (t.S 3, t.S 4, statusOf t))
      = some (1, 0x10, 0x00) := by decide

theorem test_vgetb_B8 :
    after 0x70140000 (start 2 [(1, 0x80000000_00000000)] [(2, 0x3F)]) statusOf = some 0x01 := by decide

theorem test_vgetb_B9 :
    after 0x70140000 (start 2 [(1, 0x80000000_00000000)] [(2, 0x40)]) statusOf = some 0x2D := by decide

theorem test_vsetb_B11 :
    after 0x74840000 (start 2 [(1, 0)] [(2, 0x28)]) (fun t => (t.V 1, statusOf t))
      = some (0x00000100_00000000, 0x00) := by decide

theorem test_vnorm_B14 :
    after 0x78808000 (start 2 [(1, 0x12345)] []) (fun t => (t.V 1, t.S 2, statusOf t))
      = some (0x91A28000_00000000, 0x2F, 0x00) := by decide

theorem test_vnorm_B15 :
    after 0x78808000 (start 2 [(1, 0)] [(2, 0x77)]) (fun t => (t.V 1, t.S 2, statusOf t)) = some (0, 0, 0x02) := by decide

theorem test_vand_L1 :
    after 0x80840000 (start 2 [(1, 0xFF00FF00_FF00FF00), (2, 0x0FF00FF0_0FF00FF0)] []) (fun t => (t.V 1, statusOf t))
      = some (0x0F000F00_0F000F00, 0x00) := by decide

theorem test_vor_L2 :
    after 0x84840000 (start 2 [(1, 0xFF00FF00_FF00FF00), (2, 0x0FF00FF0_0FF00FF0)] []) (fun t => (t.V 1, statusOf t))
      = some (0xFFF0FFF0_FFF0FFF0, 0x00) := by decide

theorem test_vxor_L3 :
    after 0x88840000 (start 2 [(1, 0xFF00FF00_FF00FF00), (2, 0x0FF00FF0_0FF00FF0)] []) (fun t => (t.V 1, statusOf t))
      = some (0xF0F0F0F0_F0F0F0F0, 0x00) := by decide

theorem test_vnot_L5 :
    after 0x8C800000 (start 2 [(1, 0)] []) (fun t => (t.V 1, statusOf t)) = some (0xFFFFFFFF_FFFFFFFF, 0x00) := by decide

theorem test_vnotm_L6 :
    after 0x90800000 (start 2 [(1, 0x0000000A_00000000)] []) (fun t => (t.V 1, statusOf t))
      = some (0x00000005_FFFFFFFF, 0x00) := by decide

theorem test_vmulw_M1 :
    after 0xA0840000 (start 2 [(1, 0xFFFFFFFF_FFFFFFFF)] [(2, 0xFFFFFFFF)]) (fun t => (t.V 1, statusOf t))
      = some (0xFFFFFFFF_00000001, 0x25) := by decide

theorem test_vmuld_M4 :
    after 0xA5020000 (start 2 [(0, 0xFFFFFFFF_FFFFFFFF), (1, 0xFFFFFFFF_FFFFFFFF)] [])
      (fun t => (t.V 2, t.V 3, statusOf t)) = some (1, 0xFFFFFFFF_FFFFFFFE, 0x00) := by decide

theorem test_vmuld_M6 :
    after 0xA4820000 (start 2 [(0, 5), (1, 7)] []) (fun t => (t.V 1, t.V 2, statusOf t)) = some (7, 0, 0x31) := by decide

theorem test_vmul_M9 :
    after 0xA8020000 (start 2 [(0, 0x00000002_00000000), (1, 0x80000000)] []) (fun t => (t.V 0, statusOf t))
      = some (0, 0x25) := by decide

/-- Scenario X3a. -/
theorem test_vdivw_X3a :
    after 0xC084C000 (start 1 [(1, 100)] [(2, 7)]) (fun t => (t.V 1, t.S 3, statusOf t)) = some (14, 2, 0x00) := by decide

/-- The example of 45_divide.md R142. -/
theorem test_vdiv_R142 :
    after 0xC484C000 (start 2 [(1, 0x00000001_00000000), (2, 3)] []) (fun t => (t.V 1, t.V 3, statusOf t))
      = some (0x55555555, 1, 0x00) := by decide

/-- Division by zero in VDIV and VDIVW: no register written, STATUS = 0x29 (45_divide.md R143). -/
theorem test_division_by_zero :
    after 0xC484C000 (start 2 [(1, 9), (2, 0), (3, 4)] []) (fun t => (t.V 1, t.V 3, statusOf t)) = some (9, 4, 0x29) ∧
    after 0xC084C000 (start 2 [(1, 9)] [(2, 0), (3, 4)]) (fun t => (t.V 1, t.S 3, statusOf t)) = some (9, 4, 0x29) := by
  decide

/-- CONFIG of the instance `W = 32`, `N = 2`, `KT = 3` (10_state.md R27): NWORDS at bits 31:16, KT at bits 3:1. -/
theorem test_config_word : configWord State.reset.params = 0x00020006 := by decide

/-- A host's accepted CMD write, a read of STATUS.BUSY while it is in flight, and a write discarded with OVR (10_state.md R28,
70_reset_and_hazards.md R174). -/
theorem test_issue_and_discard :
    (core.run 2 { start 2 [] [(1, 9)] with turns := [.host (.write 0 0x04100000), .host (.write 9 3)] } =
      .next { start 2 [] [(1, 9)] with
        inFlight := some 0x04100000
        status := { Status.cleared with ovr := true }
        draws := 1 }) := rfl

/-- VXOR v1, v1 of a V1 not written since reset leaves it not set, VSET from an S register holding 0 sets it
(70_reset_and_hazards.md R172, 90_conflicts.md C9). -/
theorem test_vxor_with_itself_sets_nothing :
    after 0x88820000 (start 2 [] [(1, 0)]) (fun t => t.vIsSet 1) = some false ∧
    after 0x04900000 (start 2 [] [(1, 0)]) (fun t => t.vIsSet 1) = some true := by decide

/-- VLDW sets the one word it writes, and VADD of a set and an unset register leaves its destination not set (10_state.md R22,
70_reset_and_hazards.md R172). -/
theorem test_words_set_by_vldw_and_vadd :
    after 0x08A60000 (start 2 [] [(2, 5), (3, 1)]) (fun t => (t.wordIsSet 1 0, t.wordIsSet 1 1)) = some (false, true) ∧
    after 0x40840000 (start 2 [(1, 3)] []) (fun t => t.vIsSet 1) = some false ∧
    after 0x40840000 (start 2 [(1, 3), (2, 4)] []) (fun t => t.vIsSet 1) = some true := by decide

/-- S3 read twice while a command is in flight returns one value, whatever it is (20_memory.md R48). -/
theorem test_busy_read_repeats :
    ∃ v, core.run 2 { start 2 [] [] with inFlight := some 0x14000000, turns := [.host (.read 11), .host (.read 11)] } =
      .next { start 2 [] [] with inFlight := some 0x14000000, reads := [⟨11, v⟩, ⟨11, v⟩] } := ⟨_, rfl⟩

/-! ### A state that meets the hypotheses of each statement

`base` has the boundary values: S0 = 0 and S1 = N−1 and S3 = N are word indices, S6 = M−1 and S4 = M and S7 = M+1 bit indices and
counts, V3 is zero. -/

/-- An instance of `N = 2`, `M = 64`. -/
def base : State :=
  start 2 [(0, 5), (1, 0xDEADBEEF_00000001), (2, 3), (3, 0)] [(0, 0), (1, 1), (2, 0x80000000), (3, 2), (4, 64), (5, 7), (6, 63), (7, 65)]

/-- `base` with a command in flight. -/
def running (x : Nat) (turns : List Turn) : State := { base with inFlight := some x, turns := turns }

/-- `base` with these turns next. -/
def idle (turns : List Turn) : State := { base with turns := turns }

theorem witness_EncodeAssemblesFieldsAndDecodesBack :
    (Instr.vmuld 6 7 7 .karatsuba).wellFormed ∧ (Instr.wdiv 7 0 7 7 7).wellFormed := by decide

theorem witness_DecodedWordIsTheCommandsOwn :
    decode 0xC484C100 = .ok (.vdiv 1 2 3 .align) ∧ decode 0x14000000 = .ok .clrst := by decide

theorem witness_IllegalWordsAreExactlyTheListedOnes :
    IllegalCommandWord .w32 0 ∧ IllegalCommandWord .w32 0x11100001 ∧ IllegalCommandWord .w32 0x20140600 ∧ IllegalCommandWord .w32 0xA5020180 ∧
    IllegalCommandWord .w32 0xA4820000 ∧ IllegalCommandWord .w32 0x2994C000 ∧ IllegalCommandWord .w32 0xC4844000 ∧
    IllegalCommandWord .w64 0x1_14000000 :=
  ⟨.inl (by decide), .inr (.inl ⟨[.d, .a], by decide, .inr (by decide)⟩), .inr (.inr (.inl (by decide))),
    .inr (.inr (.inr (.inl (by decide)))), .inr (.inr (.inr (.inr (.inl (by decide))))),
    .inr (.inr (.inr (.inr (.inr (.inl (by decide)))))), .inr (.inr (.inr (.inr (.inr (.inr (.inl (by decide))))))),
    .inr (.inr (.inr (.inr (.inr (.inr (.inr (by decide)))))))⟩

theorem witness_OpcodeTableDecidesDecoding :
    (⟨0x01, 0x04000000, 0xFC0FFFFF⟩ : OpcodeRow) ∈ opcodeTable ∧ 0x07F00000#32 &&& 0xFC0FFFFF#32 = 0x04000000#32 := by
  decide

theorem witness_StepRunsDecodedCommand :
    (running 0x04100000 []).inFlight = some 0x04100000 ∧ decodeCommand base.params.width 0x04100000 = .ok (.vset 0 1) ∧
    (running 0x04100000 []).turns = [] ∧ (running 0x04100000 [.engine]).turns = [.engine] ∧ 0x04100000 < 2 ^ 32 ∧
    decode (BitVec.ofNat 32 0x04100000) = .ok (.vset 0 1) := by decide

/-- The case of a value in flight that is illegal: OP = 0x00 (30_encoding.md R67 (a)), ERR = 4. -/
theorem witness_StepRunsDecodedCommand_illegal :
    (running 0 [.engine]).inFlight = some 0 ∧ EngineNext (running 0 [.engine]) ∧
    IllegalCommandWord (running 0 [.engine]).params.width 0 ∧
    step (running 0 [.engine]) = .next (base.takeFault .illegalCommand) :=
  ⟨rfl, .inr ⟨[], rfl⟩, .inl (by decide), rfl⟩

theorem witness_IdleBlockKeepsEveryRegister :
    base.inFlight = none ∧ EngineNext base ∧ (idle [.engine, .engine]).inFlight = none ∧ EngineNext (idle [.engine, .engine]) :=
  ⟨rfl, .inl rfl, rfl, .inr ⟨[.engine], rfl⟩⟩

theorem witness_HostWriteWhileIdle :
    (idle [.host (.write 0 0x14000000)]).inFlight = none ∧ (idle [.host (.write 0 0x14000000)]).turns.length = 1 ∧
    (8 : Nat) = 8 + (0 : SReg).val ∧ (15 : Nat) = 8 + (7 : SReg).val ∧ ((1 : Nat) ≠ 0 ∧ (1 : Nat) < 8) ∧ (7 : Nat) < 8 ∧
    (16 : Nat) ≤ 16 ∧ step (running 0 [.host (.write 1 5)]) = .next (running 0 []) ∧
    step (running 0 [.host (.write 16 5)]) = .next (running 0 []) := by
  and_intros <;> first | decide | rfl

/-- A command in flight with OVR set, which CLRST clears at its completion. -/
def clearing : State := { running 0x14000000 [] with status := { Status.cleared with ovr := true, sticky := true } }

theorem witness_HostWriteWhileBusyIsDiscarded :
    (running 0x04100000 [.host (.write 0 1)]).inFlight = some 0x04100000 ∧
    (running 0x04100000 [.host (.write 15 1)]).turns = [.host (.write 15 1)] ∧ (8 : Nat) < 16 ∧
    step clearing = .next { base with status := Status.cleared } ∧ clearing.status.ovr = true := by
  and_intros <;> first | decide | rfl

theorem witness_HostReadWhileIdle :
    (idle [.host (.read 0)]).inFlight = none ∧ (idle [.host (.read 15)]).turns = [.host (.read 15)] ∧
    (15 : Nat) = 8 + (7 : SReg).val ∧ (2 : Nat) < 3 ∧ (7 : Nat) < 8 ∧ (16 : Nat) ≤ 16 := by decide

theorem witness_HostReadWhileBusy :
    (running 0x04100000 [.host (.read 1)]).inFlight = some 0x04100000 ∧
    (running 0x04100000 [.host (.read 15)]).turns = [.host (.read 15)] ∧ (8 : Nat) < 16 ∧ (2 : Nat) < 16 := by decide

theorem witness_HostResetClearsTheBlock :
    (running 0x04100000 [.host .reset, .engine]).turns = [.host .reset, .engine] := by decide

theorem witness_ConfigHoldsTheParametersAndNeverChanges :
    ({ width := .w32, words := 1, threshold := .kt3 } : Params).legal ∧
    ({ width := .w64, words := 65535, threshold := .kt5 } : Params).legal ∧
    step (running 0x14000000 []) = .next base := by
  and_intros <;> first | decide | rfl

theorem witness_StepKeepsRegistersInRange : clearing.wf ∧ step clearing = .next { base with status := Status.cleared } := by
  and_intros <;> first | decide | rfl

theorem witness_ResetStateIsInRange : ({ width := .w64, words := 65535, threshold := .kt4 } : Params).legal := by decide

theorem witness_FaultWritesNoRegister :
    exec (.vldw 1 2 3) base = .next (base.takeFault .improperArgument) ∧
    runCommand 0 base = .next (base.takeFault .illegalCommand) ∧
    (base.takeFault .improperArgument).status.err.isFault = true ∧
    (base.takeFault .illegalCommand).status.err.isFault = true := by
  and_intros <;> first | decide | rfl

theorem witness_ConditionsAreReportedWithTheirCodes :
    exec (.vmuld 3 0 1 .auto) base = .next (base.takeFault .illegalCommand) ∧
    exec (.vgetb 1 4) base = .next (base.takeFault .improperArgument) ∧
    exec (.vdiv 1 3 2 .knuth) base = .next (base.takeFault .divByZero) ∧
    exec (.wdiv 1 2 5 5 5) base = .next (base.takeFault .divideFault) ∧
    exec (.wadd 1 2 2 .zero) base = .next ((base.setS 1 0 true).complete .arithmetic true false) := by
  and_intros <;> first | decide | rfl

theorem witness_OnlyClrstAndResetClearTheRecord :
    step clearing = .next { base with status := Status.cleared } ∧ clearing.status.sticky = true ∧
    clearing.status.ovr = true := by
  and_intros <;> first | decide | rfl

theorem witness_ZfOnlyMarksAZeroScan :
    exec (.vflb 3 4 3) base = .next (base.complete .plain false true) ∧ base.V 3 = 0 ∧
    exec (.vnorm 3 4) base = .next ((base.setS 4 0 true).complete .plain false true) := by
  and_intros <;> first | decide | rfl

theorem witness_CommandChangesOnlyItsDestinations :
    exec (.vmov 2 1) base = .next ((base.setV 2 0xDEADBEEF_00000001 true).complete .plain false false) := rfl

theorem witness_RegistersChangeOnlyByCommandHostWriteOrReset :
    step (running 0x11100000 []) = .next (base.setV 2 0xDEADBEEF_00000001 true) ∧
    (base.setV 2 0xDEADBEEF_00000001 true).V 2 ≠ base.V 2 ∧
    step (idle [.host (.write 13 9)]) = .next (base.setS 5 9 true) ∧ (base.setS 5 9 true).S 5 ≠ base.S 5 := by
  and_intros <;> first | decide | rfl

/-- VMOV v7, v1 sets V7 from a set V1, and a host write sets an S register not written since reset. -/
theorem witness_RegistersChangeOnlyByCommandHostWriteOrReset_marks :
    step (running 0x13900000 []) = .next (base.setV 7 0xDEADBEEF_00000001 true) ∧ base.wordIsSet 7 1 = false ∧
    (base.setV 7 0xDEADBEEF_00000001 true).wordIsSet 7 1 = true ∧ operandsSet (.vmov 7 1) base = true ∧
    (start 2 [] []).sIsSet 5 = false ∧ ((start 2 [] []).setS 5 9 true).sIsSet 5 = true ∧
    step { start 2 [] [] with turns := [.host (.write 13 9)] } = .next ((start 2 [] []).setS 5 9 true) ∧
    (running 0x10F00000 []).wf ∧ operandsSet (.vmov 1 7) (running 0x10F00000 []) = false ∧
    decodeCommand base.params.width 0x10F00000 = .ok (.vmov 1 7) ∧
    step (running 0x10F00000 []) = .next (base.setV 1 0 false) ∧ (base.setV 1 0 false).word 1 0 ≠ base.word 1 0 := by
  and_intros <;> first | decide | rfl

/-- `base` with another value in V7, a register not written since reset. -/
def otherUnset : State := { running 0x11100000 [] with vregs := base.vregs.set 7 99 }

theorem witness_UnsetValuesNeverShowInAContractStep :
    (running 0x11100000 []).wf ∧ otherUnset.wf ∧ Agree (running 0x11100000 []) otherUnset ∧
    stepInContract (running 0x11100000 []) = true ∧ otherUnset.V 7 ≠ (running 0x11100000 []).V 7 := by
  refine ⟨by decide, by decide, ⟨rfl, rfl, rfl, rfl, rfl, rfl, rfl, rfl, fun r i h => ?_, fun r _ => rfl⟩, by decide, by decide⟩
  by_cases hr : r = 7
  · subst hr
    have marks : (running 0x11100000 []).vmarks.get 7 = [false, false] := by decide
    simp only [State.wordIsSet, marks] at h
    match i with
    | 0 => exact absurd h (by decide)
    | 1 => exact absurd h (by decide)
    | i + 2 => simp at h
  · have same : ∀ q : VReg, q ≠ 7 → otherUnset.V q = (running 0x11100000 []).V q := by decide
    exact congrArg (fun v => wordAt 32 v i) (same r hr)

theorem witness_EveryIssuedCommandEnds :
    (running 0x14000000 [.host (.read 1), .host (.write 0 5)]).inFlight = some 0x14000000 := by decide

theorem witness_ReadsBetweenIssueAndCompletionChangeNothing :
    (running 0x14000000 [.host (.read 1), .host (.read 8), .engine, .engine]).inFlight = some 0x14000000 ∧
    (running 0x14000000 [.host (.read 1), .host (.read 8), .engine, .engine]).turns =
      [1, 8].map (fun a => .host (.read a)) ++ .engine :: [.engine] := by decide

/-- The hypotheses of the statements over one well-formed state alone: VSET, VMOV, VSHL, VSHR, VNOT and the others. -/
theorem witness_base_wf : base.wf := by decide

theorem witness_VsetWidensAndVmovCopies : base.wf := by decide

theorem witness_VldwWritesOneWord :
    base.wf ∧ base.S 0 = 0 ∧ base.S 0 < base.N ∧ base.S 1 + 1 = base.N ∧ base.N ≤ base.S 3 := by decide

theorem witness_VstwReadsOneWord : base.S 0 < base.N ∧ base.S 1 + 1 = base.N ∧ base.N ≤ base.S 3 := by decide

theorem witness_WmulGivesTheDoubleWordProduct : base.wf ∧ (3 : SReg) ≠ 4 ∧ (3 : SReg) = 3 := by decide

theorem witness_WdivDividesADoubleWord :
    base.wf ∧ (3 : SReg) ≠ 4 ∧ base.S 6 + 1 = base.S 4 ∧ base.S 0 = 0 ∧ (0 < base.S 4 ∧ base.S 4 ≤ base.S 4) ∧
    (3 : SReg) = 3 ∧ 0 < base.S 5 := by decide

theorem witness_VaddoAndVsuboRippleOnlyUpward :
    base.S 0 < base.N ∧ base.S 1 < base.N ∧ 0 < base.S 1 ∧ base.N ≤ base.S 3 := by decide

theorem witness_VaddCommutesAndAssociates :
    (start 2 [(1, 3), (2, 5)] []).params = (start 2 [(1, 5), (2, 3)] []).params ∧
    (start 2 [(1, 3), (2, 5)] []).status = (start 2 [(1, 5), (2, 3)] []).status ∧
    (start 2 [(1, 3), (2, 5)] []).V 1 = (start 2 [(1, 5), (2, 3)] []).V 2 ∧
    (start 2 [(1, 3), (2, 5)] []).V 2 = (start 2 [(1, 5), (2, 3)] []).V 1 ∧
    base.wf ∧ (0 : VReg) ≠ 1 ∧ (1 : VReg) ≠ 2 ∧ (0 : VReg) ≠ 2 ∧ base.status.sticky = false := by decide

theorem witness_VshlShiftsWithFill :
    base.wf ∧ base.S 0 = 0 ∧ (0 < base.S 1 ∧ base.S 1 ≤ base.M) ∧ (0 < base.S 4 ∧ base.S 4 = base.M) ∧
    base.M < base.S 7 := by decide

theorem witness_VshrShiftsWithFill :
    base.wf ∧ base.S 0 = 0 ∧ (0 < base.S 1 ∧ base.S 1 ≤ base.M) ∧ (0 < base.S 4 ∧ base.S 4 = base.M) ∧
    base.M < base.S 7 := by decide

theorem witness_ShiftClosedFormsAreTheNaiveRepetition : 0 < 64 ∧ 0xDEADBEEF_00000001 < 2 ^ 64 := by decide

theorem witness_ShiftByWordMovesAgrees : 0 < 32 ∧ 0 < 2 ∧ 0xDEADBEEF_00000001 < 2 ^ (2 * 32) := by decide

theorem witness_ShiftRoundTripKeepsTheLowBits : base.wf ∧ base.S 0 < base.M ∧ base.S 6 + 1 = base.M := by decide

theorem witness_ScansFindLeadingAndLowestBit :
    base.wf ∧ (3 : SReg) ≠ 4 ∧ base.V 1 ≠ 0 ∧ base.V 3 = 0 ∧ (3 : SReg) = 3 := by decide

theorem witness_VgetbAndVsetbGiveTheBit :
    base.wf ∧ base.S 0 < base.M ∧ base.S 6 + 1 = base.M ∧ base.M ≤ base.S 4 := by decide

theorem witness_VnormMovesTheLeadingBitToTheTop : base.wf ∧ base.V 1 ≠ 0 ∧ base.V 3 = 0 := by decide

theorem witness_LogicActsBitByBit : base.wf := by decide

theorem witness_VnotmComplementsBelowTheLeadingBit : base.wf ∧ base.V 1 ≠ 0 ∧ base.V 3 = 0 := by decide

theorem witness_VmuldWritesTheExactProductToThePair :
    base.wf ∧ (0 : VReg).val % 2 = 0 ∧ (6 : VReg).val % 2 = 0 ∧ (7 : VReg).val % 2 = 1 := by decide

theorem witness_RippleAddAndSubtractAreExact :
    base.wf ∧ base.S 0 < base.N ∧ base.S 1 + 1 = base.N ∧
    0xDEADBEEF_00000001 < 2 ^ (32 * 2) ∧ 3 < 2 ^ (32 * 2) ∧ 0xFFFFFFFF < 2 ^ 32 ∧ 0 < 2 ∧ 1 < 2 := by decide

theorem witness_WordSerialMultiplyAndDivideAreExact : 0xDEADBEEF_00000001 < 2 ^ (32 * 2) ∧ 7 < 2 ^ 32 ∧ 0 < 7 := by decide

theorem witness_SchoolbookIsTheProduct : 0 < 32 ∧ 0xDEADBEEF_00000001 < 2 ^ (32 * 2) ∧ 3 < 2 ^ (32 * 2) := by decide

theorem witness_EveryMultiplyAlgorithmGivesTheProduct :
    0 < 32 ∧ 3 ≤ 3 ∧ 5 < 2 ^ (32 * 2) ∧ base.params.legal ∧ base.V 1 < 2 ^ base.params.M := by decide

theorem witness_VdivwDividesByAWord : base.wf ∧ base.S 5 ≠ 0 ∧ base.S 0 = 0 := by decide

theorem witness_VdivGivesQuotientAndRemainder :
    base.wf ∧ (1 : VReg) ≠ 2 ∧ base.V 2 ≠ 0 ∧ base.V 3 = 0 ∧ (1 : VReg) = 1 ∧ base.S 0 = 0 ∧
    base.V 0 = 1 * base.V 2 + 2 ∧ 2 < base.V 2 := by decide

theorem witness_RestoringAndAlignmentDivisionAreExact : 0xDEADBEEF_00000001 < 2 ^ 64 ∧ 0 < 3 := by decide

theorem witness_KnuthDivisionIsExact :
    0 < 32 ∧ 0xDEADBEEF_00000001 < 2 ^ (32 * 2) ∧ 2 ^ 32 ≤ 2 ^ 32 ∧ 2 ^ 32 < 2 ^ (32 * 2) := by decide

theorem witness_EveryDivisionAlgorithmAgrees : 0 < 32 ∧ 100 < 2 ^ (32 * 2) ∧ 0 < 2 ^ (32 * 2) := by decide

theorem witness_ReadsRepeatAndOnlySWritesAreIdempotent :
    (running 0x14000000 [.host (.read 15)]).turns = [.host (.read 15)] ∧
    (running 0x14000000 [.host (.read 8), .host (.read 1), .host (.write 8 3), .host (.read 8)]).turns =
      .host (.read 8) :: [PortOp.read 1, .write 8 3].map .host ++ .host (.read 8) :: [] ∧
    (running 0x14000000 []).busy = true ∧ base.busy = false ∧ (8 : Nat) ≠ 1 ∧ (9 : Nat) ≠ 0 ∧ (9 : Nat) ≠ 8 ∧
    (idle [.host (.write (8 + (7 : SReg).val) 3), .host (.write (8 + (7 : SReg).val) 3)]).inFlight = none ∧
    (idle [.host (.write 0 0), .engine, .host (.write 0 0)]).inFlight = none := by decide

end Sys2Proof.Tests
end

section
/-! SUPPORT. CONFIG (10_state.md R27, R32): where its fields stand, and that the parameters it shows outlive every step. -/

namespace Sys2Proof.Params

theorem KT_lt_eight (p : Params) : p.KT < 8 := by
  unfold KT
  cases p.threshold <;> decide

end Sys2Proof.Params

namespace Sys2Proof.Machine

/-! ### The build parameters -/

/-- However a command ends, it leaves the build parameters as they were. -/
theorem Ends.params_kept {i : Instr} {s t : State} (h : Ends i s t) : t.params = s.params := by
  cases h with
  | fault _ => exact State.takeFault_params ..
  | clear _ => exact State.clearStatus_params ..
  | done cls st zf hw _ => rw [State.complete_params, hw.rest_kept.1]

theorem runCommand_params {x : Nat} {s t : State} (h : runCommand x s = .next t) : t.params = s.params := by
  obtain ⟨-, rfl⟩ | ⟨_, -, hexec⟩ := runCommand_cases h
  · exact State.takeFault_params ..
  · exact (ends_of_exec hexec).params_kept

@[simp] theorem State.hostWrite_params (s : State) (addr x : Nat) : (s.hostWrite addr x).params = s.params := by
  unfold State.hostWrite
  cases portReg addr with
  | cmd | sreg _ => cases s.busy <;> rfl
  | status | config | reserved => rfl

@[simp] theorem State.hostTurn_params (s : State) (op : PortOp) : (s.hostTurn op).params = s.params := by
  cases op with
  | read addr => exact State.hostRead_params ..
  | write addr x => exact State.hostWrite_params ..
  | reset => exact State.hostReset_params ..

/-- No step changes the build parameters: neither the engine's turn nor any host transaction, reset included (R27). -/
theorem step_params {s t : State} (h : step s = .next t) : t.params = s.params := by
  obtain ⟨-, -, rfl⟩ | ⟨_, -, -, hrun⟩ | ⟨op, rest, -, rfl⟩ := step_cases h
  · rfl
  · exact (runCommand_params hrun).trans rfl
  · exact State.hostTurn_params ..

/-! ### The word -/

theorem configWord_eq (p : Params) :
    configWord p = (if p.width = .w64 then 1 else 0) + p.KT * 2 + p.N * 65536 := by
  unfold configWord
  cases p.width <;> rfl

/-- The layout of R27's table. -/
theorem configWord_fields {p : Params} (hp : p.legal) :
    configWord p % 2 = (if p.width = .w64 then 1 else 0) ∧ configWord p / 2 % 8 = p.KT ∧ configWord p / 16 % 16 = 0 ∧
    configWord p / 256 % 256 = 0 ∧ configWord p / 65536 % 65536 = p.N ∧ configWord p / 2 ^ 32 = 0 := by
  have hN : p.N ≤ 65535 := hp.2
  have hKT := Params.KT_lt_eight p
  rw [configWord_eq]
  split <;> omega

@[simp] theorem State.portValue_config (s : State) : s.portValue 2 = configWord s.params := rfl

/-- Settles O15: the layout is arithmetic on a word of disjoint fields, and CONFIG depends on the parameters alone, which
no step changes. -/
theorem configHoldsTheParametersAndNeverChanges : Obligations.ConfigHoldsTheParametersAndNeverChanges :=
  ⟨fun _ hp => configWord_fields hp, State.portValue_config, fun _ _ h => congrArg configWord (step_params h)⟩

end Sys2Proof.Machine
end

section
/-! SUPPORT. Reads and writes at the port (20_memory.md R48): a run of host transactions is the transactions applied in
order, a read's value depends on few fields of the state, and the command in flight completes and leaves the turns. -/

namespace Sys2Proof.Machine

/-! ### The next turn -/

/-- The state with other turns to come. -/
def State.withTurns (s : State) (ts : List Turn) : State := { s with turns := ts }

@[simp] theorem State.turns_withTurns (s : State) (ts : List Turn) : (s.withTurns ts).turns = ts := rfl
@[simp] theorem State.inFlight_withTurns (s : State) (ts : List Turn) : (s.withTurns ts).inFlight = s.inFlight := rfl
@[simp] theorem State.busy_withTurns (s : State) (ts : List Turn) : (s.withTurns ts).busy = s.busy := rfl
@[simp] theorem State.withTurns_withTurns (s : State) (ts us : List Turn) :
    (s.withTurns ts).withTurns us = s.withTurns us := rfl

theorem step_host {s : State} {op : PortOp} {rest : List Turn} (h : s.turns = .host op :: rest) :
    step s = .next ((s.withTurns rest).hostTurn op) := by
  unfold step
  rw [h]
  rfl

theorem step_engine {s : State} {rest : List Turn} (h : s.turns = .engine :: rest) :
    step s = engineTurn (s.withTurns rest) := by
  unfold step
  rw [h]
  rfl

theorem run_succ_of_step {M : Host.Core} {s t : M.State} (h : M.step s = .next t) (k : Nat) :
    M.run (k + 1) s = M.run k t := by
  rw [Host.Core.run, h]

/-- A run of the block goes on from the state that its first step leaves. -/
theorem run_succ {s t : State} (h : step s = .next t) (k : Nat) : core.run (k + 1) s = core.run k t :=
  run_succ_of_step (M := core) h k

/-! ### The completion -/

theorem Ends.idle {i : Instr} {s t : State} (h : Ends i s t) : t.inFlight = none := by
  cases h <;> rfl

theorem Ends.turns_kept {i : Instr} {s t : State} (h : Ends i s t) : t.turns = s.turns := by
  cases h with
  | fault _ => exact State.takeFault_turns ..
  | clear _ => exact State.clearStatus_turns ..
  | done cls st zf hw _ =>
    obtain ⟨-, -, -, hturns, -⟩ := hw.rest_kept
    exact hturns

/-- Every command word runs to a state with no command in flight, the build parameters and the turns as they were. -/
theorem runCommand_completes (x : Nat) (s : State) :
    ∃ t, runCommand x s = .next t ∧ t.inFlight = none ∧ t.params = s.params ∧ t.turns = s.turns := by
  unfold runCommand
  cases decodeCommand s.params.width x with
  | error _ => exact ⟨_, rfl, rfl, rfl, rfl⟩
  | ok i =>
    obtain ⟨t, hexec, hends⟩ := exec_ends i s
    exact ⟨t, hexec, hends.idle, hends.params_kept, hends.turns_kept⟩

theorem engineTurn_completes (s : State) :
    ∃ t, engineTurn s = .next t ∧ t.inFlight = none ∧ t.params = s.params ∧ t.turns = s.turns := by
  unfold engineTurn
  cases hf : s.inFlight with
  | none => exact ⟨s, rfl, hf, rfl, rfl⟩
  | some x => exact runCommand_completes x s

/-! ### The port by address -/

theorem portAddr_cases (a : Nat) :
    a = 0 ∨ a = 1 ∨ a = 2 ∨ (∃ k : SReg, a = 8 + k.val) ∨ 2 < a ∧ (a < 8 ∨ 16 ≤ a) := by
  by_cases h : 8 ≤ a ∧ a < 16
  · obtain ⟨k, hk, -⟩ := portReg_of_sreg_range h.1 h.2
    exact .inr (.inr (.inr (.inl ⟨k, hk⟩)))
  · omega

theorem Regs8.set_set_same {α : Type} (f : Regs8 α) (k : Fin 8) (x y : α) : (f.set k x).set k y = f.set k y := by
  refine Regs8.ext_get fun q => ?_
  simp only [Regs8.get_set]
  split <;> rfl

namespace State

theorem busy_eq_false {s : State} (h : s.inFlight = none) : s.busy = false := by
  rw [busy, h]
  rfl

@[simp] theorem hostWrite_cmd (s : State) (x : Nat) :
    s.hostWrite 0 x = if s.busy then s.discardWrite else s.issue x := rfl

@[simp] theorem hostWrite_sreg (s : State) (k : SReg) (x : Nat) :
    s.hostWrite (8 + k.val) x = if s.busy then s.discardWrite else s.setS k x true := by
  rw [hostWrite, portReg_sreg]

/-- A write to an address that is neither CMD nor an S register is ignored (20_memory.md R44, R45). -/
theorem hostWrite_ignored (s : State) {a : Nat} (x : Nat) (h0 : a ≠ 0) (ha : a < 8 ∨ 16 ≤ a) : s.hostWrite a x = s := by
  obtain rfl | rfl | h2 : a = 1 ∨ a = 2 ∨ 2 < a := by omega
  · rfl
  · rfl
  · rw [hostWrite, portReg_reserved h2 ha]

/-- While `BUSY = 1` a write is ignored or discarded, whatever its address (70_reset_and_hazards.md R174). -/
theorem hostWrite_of_busy {s : State} (h : s.busy = true) (a x : Nat) :
    s.hostWrite a x = s ∨ s.hostWrite a x = s.discardWrite := by
  obtain rfl | rfl | rfl | ⟨k, rfl⟩ | ⟨h2, ha⟩ := portAddr_cases a
  · simp [h]
  · exact .inl rfl
  · exact .inl rfl
  · simp [h]
  · exact .inl (s.hostWrite_ignored x (by omega) ha)

/-- While `BUSY = 0` a write to another address than CMD is ignored, or it is a write of an S register. -/
theorem hostWrite_of_idle {s : State} (h : s.busy = false) {a : Nat} (h0 : a ≠ 0) (x : Nat) :
    s.hostWrite a x = s ∨ ∃ k : SReg, a = 8 + k.val ∧ s.hostWrite a x = s.setS k x true := by
  obtain rfl | rfl | rfl | ⟨k, rfl⟩ | ⟨-, ha⟩ := portAddr_cases a
  · exact absurd rfl h0
  · exact .inl rfl
  · exact .inl rfl
  · exact .inr ⟨k, rfl, by simp [h]⟩
  · exact .inl (s.hostWrite_ignored x h0 ha)

@[simp] theorem portValue_sreg (s : State) (k : SReg) :
    s.portValue (8 + k.val) = if s.busy then Config.freeValue s.draws (16 + k.val) % 2 ^ s.W else s.S k := by
  rw [portValue, portReg_sreg]

theorem portValue_reserved (s : State) {a : Nat} (h2 : 2 < a) (ha : a < 8 ∨ 16 ≤ a) : s.portValue a = 0 := by
  rw [portValue, portReg_reserved h2 ha]

/-- What a read returns depends on the build parameters, the draw and the command in flight, and beside them on what
stands at its address alone. -/
theorem portValue_congr {s t : State} {addr : Nat} (hp : t.params = s.params) (hd : t.draws = s.draws)
    (hf : t.inFlight = s.inFlight) (hst : addr = 1 → t.status = s.status)
    (hS : ∀ k : SReg, addr = 8 + k.val → t.S k = s.S k) : t.portValue addr = s.portValue addr := by
  have hb : t.busy = s.busy := congrArg Option.isSome hf
  obtain rfl | rfl | rfl | ⟨k, rfl⟩ | ⟨h2, ha⟩ := portAddr_cases addr
  · rfl
  · simp only [portValue, portReg_status, hb, hd, hst rfl]
  · rw [portValue_config, portValue_config, hp]
  · rw [portValue_sreg, portValue_sreg, hb, hd, hS k rfl, W, W, hp]
  · rw [portValue_reserved _ h2 ha, portValue_reserved _ h2 ha]

theorem portValue_hostRead (s : State) (addr a : Nat) : (s.hostRead a).portValue addr = s.portValue addr :=
  portValue_congr rfl rfl rfl (fun _ => rfl) fun _ _ => rfl

theorem portValue_discardWrite (s : State) {addr : Nat} (h : addr ≠ 1) :
    s.discardWrite.portValue addr = s.portValue addr :=
  portValue_congr rfl rfl rfl (absurd · h) fun _ _ => rfl

theorem portValue_setS (s : State) {addr : Nat} {k : SReg} (h : 8 + k.val ≠ addr) (x : Nat) (known : Bool) :
    (s.setS k x known).portValue addr = s.portValue addr := by
  refine portValue_congr rfl rfl rfl (fun _ => rfl) fun q hq => ?_
  have hqk : q ≠ k := fun e => h (e ▸ hq.symm)
  rw [S_setS, if_neg hqk]

/-- The last write of an S register is the one that counts. -/
theorem setS_setS_same (s : State) (k : SReg) (x y : Nat) (known known' : Bool) :
    (s.setS k x known).setS k y known' = s.setS k y known' := by
  simp only [setS, W, Regs8.set_set_same]

/-! ### A host transaction -/

/-- A transaction neither reads the turns to come nor changes them. -/
theorem hostTurn_withTurns (s : State) (ts : List Turn) (op : PortOp) :
    (s.withTurns ts).hostTurn op = (s.hostTurn op).withTurns ts := by
  cases op with
  | read _ => rfl
  | reset => rfl
  | write a x =>
    obtain rfl | rfl | rfl | ⟨k, rfl⟩ | ⟨h2, ha⟩ := portAddr_cases a <;> rw [hostTurn, hostTurn]
    · rw [hostWrite_cmd, hostWrite_cmd, busy_withTurns]
      split <;> rfl
    · rfl
    · rfl
    · rw [hostWrite_sreg, hostWrite_sreg, busy_withTurns]
      split <;> rfl
    · rw [hostWrite_ignored _ x (by omega) ha, hostWrite_ignored _ x (by omega) ha]

@[simp] theorem turns_hostTurn (s : State) (op : PortOp) : (s.hostTurn op).turns = s.turns := by
  have h : ((s.withTurns s.turns).hostTurn op).turns = ((s.hostTurn op).withTurns s.turns).turns :=
    congrArg turns (s.hostTurn_withTurns s.turns op)
  exact h

@[simp] theorem reads_hostWrite (s : State) (a x : Nat) : (s.hostWrite a x).reads = s.reads := by
  unfold hostWrite
  cases portReg a with
  | cmd | sreg _ => cases s.busy <;> rfl
  | status | config | reserved => rfl

/-- A transaction adds to the host's record and takes nothing from it. -/
theorem reads_suffix_hostTurn (s : State) (op : PortOp) : s.reads <:+ (s.hostTurn op).reads := by
  cases op with
  | read _ => exact List.suffix_cons ..
  | reset => exact List.suffix_rfl
  | write a x =>
    rw [hostTurn, reads_hostWrite]

end State

/-- The transaction issues no command and leaves what a read of `addr` returns, `BUSY` being `busy`: a read, a write that is
ignored, a write that is discarded where the read is not of STATUS (whose OVR it sets), or an accepted write elsewhere. -/
def PortOp.LeavesRead (addr : Nat) (busy : Bool) (op : PortOp) : Prop :=
  (∃ a, op = .read a) ∨
    ∃ a x, op = .write a x ∧
      (a ≠ 0 ∧ (a < 8 ∨ 16 ≤ a) ∨ busy = true ∧ addr ≠ 1 ∨ busy = false ∧ a ≠ 0 ∧ a ≠ addr)

theorem PortOp.LeavesRead.keeps {s : State} {op : PortOp} {addr : Nat} (h : op.LeavesRead addr s.busy) :
    (s.hostTurn op).busy = s.busy ∧ (s.hostTurn op).portValue addr = s.portValue addr := by
  obtain ⟨a, rfl⟩ | ⟨a, x, rfl, ⟨h0, ha⟩ | ⟨hb, h1⟩ | ⟨hb, h0, ha⟩⟩ := h <;> rw [State.hostTurn]
  · exact ⟨rfl, s.portValue_hostRead addr a⟩
  · rw [s.hostWrite_ignored x h0 ha]
    exact ⟨rfl, rfl⟩
  · obtain e | e := State.hostWrite_of_busy hb a x <;> rw [e]
    · exact ⟨rfl, rfl⟩
    · exact ⟨rfl, s.portValue_discardWrite h1⟩
  · obtain e | ⟨k, rfl, e⟩ := State.hostWrite_of_idle hb h0 x <;> rw [e]
    · exact ⟨rfl, rfl⟩
    · exact ⟨rfl, s.portValue_setS ha x true⟩

/-! ### Host transactions in order -/

theorem portValue_foldl_hostTurn {addr : Nat} {ops : List PortOp} {s : State}
    (h : ∀ op ∈ ops, op.LeavesRead addr s.busy) : (ops.foldl State.hostTurn s).portValue addr = s.portValue addr := by
  induction ops generalizing s with
  | nil => rfl
  | cons op ops ih =>
    obtain ⟨hop, hops⟩ := List.forall_mem_cons.mp h
    obtain ⟨hb, hv⟩ := hop.keeps
    rw [List.foldl_cons, ih (hb ▸ hops), hv]

theorem turns_foldl_hostTurn (ops : List PortOp) (s : State) : (ops.foldl State.hostTurn s).turns = s.turns := by
  induction ops generalizing s with
  | nil => rfl
  | cons op ops ih => rw [List.foldl_cons, ih, State.turns_hostTurn]

theorem reads_suffix_foldl_hostTurn (ops : List PortOp) (s : State) :
    s.reads <:+ (ops.foldl State.hostTurn s).reads := by
  induction ops generalizing s with
  | nil => exact List.suffix_rfl
  | cons op ops ih => exact (s.reads_suffix_hostTurn op).trans (ih _)

/-- A run of as many steps as there are host transactions at the head of the turns applies them in order. -/
theorem run_hostTurns {ops : List PortOp} {s : State} {rest : List Turn} (h : s.turns = ops.map .host ++ rest) :
    core.run ops.length s = .next (ops.foldl State.hostTurn (s.withTurns rest) : State) := by
  induction ops generalizing s with
  | nil =>
    cases (h : s.turns = rest)
    rfl
  | cons op ops ih =>
    calc core.run (ops.length + 1) s
        = core.run ops.length ((s.withTurns (ops.map .host ++ rest)).hostTurn op) := run_succ (step_host h) _
      _ = .next (ops.foldl State.hostTurn (((s.withTurns (ops.map .host ++ rest)).hostTurn op).withTurns rest) : State) :=
        ih (State.turns_hostTurn _ op)
      _ = .next ((op :: ops).foldl State.hostTurn (s.withTurns rest) : State) := by
        rw [← State.hostTurn_withTurns, State.withTurns_withTurns, List.foldl_cons]

/-! ### R48 -/

/-- Two reads of one address with transactions between them that leave it return one value. -/
theorem repeated_read {s : State} {addr : Nat} {ops : List PortOp} {rest : List Turn}
    (hturns : s.turns = .host (.read addr) :: ops.map .host ++ .host (.read addr) :: rest)
    (hops : ∀ op ∈ ops, op.LeavesRead addr s.busy) :
    ∃ t v between, core.run (ops.length + 2) s = .next t ∧ t.turns = rest ∧
      t.reads = { addr := addr, value := v } :: between ++ { addr := addr, value := v } :: s.reads := by
  let first := (s.withTurns rest).hostRead addr
  let last := ops.foldl State.hostTurn first
  have hrun : core.run (ops.length + 2) s = .next (last.hostRead addr) := by
    have h := run_hostTurns (ops := .read addr :: (ops ++ [.read addr])) (s := s) (rest := rest) (by simpa using hturns)
    rwa [List.length_cons, List.length_append, List.foldl_cons, List.foldl_append] at h
  have hvalue : last.portValue addr = first.portValue addr := portValue_foldl_hostTurn hops
  obtain ⟨between, hreads⟩ := reads_suffix_foldl_hostTurn ops first
  refine ⟨_, first.portValue addr, between, hrun, turns_foldl_hostTurn ops first, ?_⟩
  rw [State.hostRead_reads, hvalue, ← hreads]
  rfl

/-- Two equal writes of an S register while `BUSY = 0` are one. -/
theorem repeated_sreg_write {s : State} {k : SReg} {x : Nat} {rest : List Turn} (hidle : s.inFlight = none)
    (hturns : s.turns = .host (.write (8 + k.val) x) :: .host (.write (8 + k.val) x) :: rest) :
    ∃ t, core.run 2 s = .next t ∧ step { s with turns := .host (.write (8 + k.val) x) :: rest } = .next t := by
  have write (u : State) (hu : u.inFlight = none) : u.hostTurn (.write (8 + k.val) x) = u.setS k x true := by
    rw [State.hostTurn, State.hostWrite_sreg, State.busy_eq_false hu, if_neg Bool.false_ne_true]
  refine ⟨(s.withTurns rest).setS k x true, ?_, ?_⟩
  · have h := run_hostTurns (ops := [.write (8 + k.val) x, .write (8 + k.val) x]) hturns
    rwa [List.foldl_cons, List.foldl_cons, List.foldl_nil, write (s.withTurns rest) hidle,
      write ((s.withTurns rest).setS k x true) hidle, State.setS_setS_same] at h
  · exact (step_host rfl).trans (congrArg _ (write (s.withTurns rest) hidle))

/-- A CMD write while `BUSY = 0` issues its value. -/
theorem step_issue {s : State} {x : Nat} {rest : List Turn} (hidle : s.inFlight = none)
    (hturns : s.turns = .host (.write 0 x) :: rest) : step s = .next ((s.withTurns rest).issue x) := by
  rw [step_host hturns, State.hostTurn, State.hostWrite_cmd, State.busy_withTurns, State.busy_eq_false hidle,
    if_neg Bool.false_ne_true]

/-- A CMD write, its completion and the same CMD write again issue two commands. -/
theorem repeated_issue {s : State} {x : Nat} {rest : List Turn} (hidle : s.inFlight = none)
    (hturns : s.turns = .host (.write 0 x) :: .engine :: .host (.write 0 x) :: rest) :
    ∃ t u v, core.run 1 s = .next t ∧ t.inFlight = some (x % 2 ^ s.W) ∧ core.run 2 s = .next u ∧ u.inFlight = none ∧
      core.run 3 s = .next v ∧ v.inFlight = some (x % 2 ^ s.W) := by
  have hissue := step_issue hidle hturns
  obtain ⟨u, hengine, hdone, hparams, huturns⟩ :=
    engineTurn_completes ((s.withTurns (.host (.write 0 x) :: rest)).issue x)
  have hcomplete : step ((s.withTurns (.engine :: .host (.write 0 x) :: rest)).issue x) = .next u :=
    (step_engine rfl).trans hengine
  have hagain := step_issue hdone huturns
  have hW : u.W = s.W := congrArg Params.W hparams
  refine ⟨_, u, (u.withTurns rest).issue x, run_succ hissue 0, rfl, ?_, hdone, ?_, ?_⟩
  · exact (run_succ hissue 1).trans (run_succ hcomplete 0)
  · exact (run_succ hissue 2).trans ((run_succ hcomplete 1).trans (run_succ hagain 0))
  · rw [← hW]
    rfl

/-- Settles O60: a read adds to the host's record alone; what a read returns is kept by each transaction between two reads,
by induction on them; the second of two equal S writes overwrites the first; and a completion leaves the block idle for the
next CMD write. -/
theorem readsRepeatAndOnlySWritesAreIdempotent : Obligations.ReadsRepeatAndOnlySWritesAreIdempotent :=
  ⟨fun s addr rest hturns => ⟨(s.withTurns rest).portValue addr, step_host hturns⟩,
    fun _ _ _ _ => repeated_read, fun _ _ _ _ => repeated_sreg_write, fun _ _ _ => repeated_issue⟩

end Sys2Proof.Machine
end

section
/-! SUPPORT. The command word (30_encoding.md sections 1 to 3): every command is assembled from the fields of its row and read
back from its word (R69), and the words the decoder refuses are those R67 lists. -/

namespace Sys2Proof

/-! ### Encode and decode (R69) -/

theorem encodesInRow : ∀ i : Instr, Laws.EncodesInRow.Statement i
  | .vset d a => Laws.EncodesInRow.vset d a
  | .vldw d a b => Laws.EncodesInRow.vldw d a b
  | .vstw d a b => Laws.EncodesInRow.vstw d a b
  | .vmov d a => Laws.EncodesInRow.vmov d a
  | .clrst => Laws.EncodesInRow.clrst
  | .wadd d a b ci => Laws.EncodesInRow.wadd d a b ci
  | .wsub d a b ci => Laws.EncodesInRow.wsub d a b ci
  | .wmul d c a b => Laws.EncodesInRow.wmul d c a b
  | .wdiv d c a b e => Laws.EncodesInRow.wdiv d c a b e
  | .vadd d b ci => Laws.EncodesInRow.vadd d b ci
  | .vsub d b ci => Laws.EncodesInRow.vsub d b ci
  | .vaddo d a b => Laws.EncodesInRow.vaddo d a b
  | .vsubo d a b => Laws.EncodesInRow.vsubo d a b
  | .vshl d b ci => Laws.EncodesInRow.vshl d b ci
  | .vshr d b ci => Laws.EncodesInRow.vshr d b ci
  | .vflb d c a => Laws.EncodesInRow.vflb d c a
  | .vftb d c a => Laws.EncodesInRow.vftb d c a
  | .vgetb a b => Laws.EncodesInRow.vgetb a b
  | .vsetb d b => Laws.EncodesInRow.vsetb d b
  | .vnorm d c => Laws.EncodesInRow.vnorm d c
  | .vand d b => Laws.EncodesInRow.vand d b
  | .vor d b => Laws.EncodesInRow.vor d b
  | .vxor d b => Laws.EncodesInRow.vxor d b
  | .vnot d => Laws.EncodesInRow.vnot d
  | .vnotm d => Laws.EncodesInRow.vnotm d
  | .vmulw d b => Laws.EncodesInRow.vmulw d b
  | .vmuld d a b alg => Laws.EncodesInRow.vmuld d a b alg
  | .vmul d b alg => Laws.EncodesInRow.vmul d b alg
  | .vdivw d b c => Laws.EncodesInRow.vdivw d b c
  | .vdiv d b c alg => Laws.EncodesInRow.vdiv d b c alg

theorem Fields.cleanOutside_iff {f : Fields} {used : List Field} :
    f.cleanOutside used = true ↔ (∀ k, k ∉ used → f.value k = 0) ∧ f.rsv = 0 := by
  have every : ∀ k : Field, k ∈ [Field.d, .a, .b, .c, .e, .i, .g] := fun k => by cases k <;> decide
  simp only [Fields.cleanOutside, Bool.and_eq_true, List.all_eq_true, every, true_imp_iff, Bool.or_eq_true,
    List.contains_iff_mem, beq_iff_eq, or_iff_not_imp_left]

/-- The encoder leaves RSV zero. -/
theorem encodeFields_rsv (i : Instr) : (encodeFields i).rsv = 0 := by
  obtain ⟨used, -, hclean, -⟩ := encodesInRow i
  exact (Fields.cleanOutside_iff.1 hclean).2

/-- The word of a command is the disjunction of shifted fields that R69 writes. -/
theorem encode_eq_assemble (i : Instr) :
    encode i = assemble (encodeFields i).op (encodeFields i).d (encodeFields i).a (encodeFields i).b (encodeFields i).c
      (encodeFields i).e (encodeFields i).ci (encodeFields i).alg := by
  rw [assemble_eq, encode, ← encodeFields_rsv i]

/-- Fields that lie in a row of R68 are decoded by building the row's command and checking its operands. -/
theorem decodeFields_of_row {f : Fields} {used : List Field} (hrow : usedFields f.op = some used)
    (hclean : f.cleanOutside used = true) : decodeFields f = (buildInstr f).bind checkInstr := by
  rw [decodeFields, hrow]
  exact if_pos hclean

theorem decode_encode {i : Instr} (h : i.wellFormed) : decode (encode i) = .ok i := by
  obtain ⟨used, hrow, hclean, hbuild⟩ := encodesInRow i
  rw [decode_encode_fields, decodeFields_of_row hrow hclean, hbuild]
  exact checkInstr_eq_ok.2 ⟨rfl, h⟩

/-- Settles O2: each command's fields lie in its row, and the decoder reads the fields back from the assembled word. -/
theorem encodeAssemblesFieldsAndDecodesBack : Obligations.EncodeAssemblesFieldsAndDecodesBack := by
  refine ⟨fun i => ⟨?_, encode_eq_assemble i, decode_encode⟩, by decide⟩
  obtain ⟨used, hrow, hclean, -⟩ := encodesInRow i
  exact ⟨used, hrow, hclean⟩

/-! ### The illegal words (R67) -/

/-- The command uses a select and its field is `0b11` (R67 (c), (d)). -/
def Fields.BadSelect (f : Fields) : Prop :=
  (f.op.val ∈ [0x08, 0x09, 0x10, 0x11, 0x18, 0x19] ∧ f.ci.val = 3) ∨ (f.op.val ∈ [0x29, 0x2A, 0x31] ∧ f.alg.val = 3)

/-- The register fields break an operand constraint of the command (R67 (e) to (g)). -/
def Fields.BadOperands (f : Fields) : Prop :=
  (f.op.val = 0x29 ∧ f.d.val % 2 = 1) ∨ (f.op.val ∈ [0x0A, 0x0B, 0x1A, 0x1B] ∧ f.d.val = f.c.val) ∨
    (f.op.val = 0x31 ∧ f.d.val = f.c.val)

theorem usedFields_eq_none_iff (op : Fin 64) : usedFields op = none ↔ ∀ row ∈ opcodeTable, row.op ≠ op := by
  revert op
  decide

theorem decodeCarryIn_refuses_iff (ci : Fin 4) : (∃ why, decodeCarryIn ci = .error why) ↔ ci.val = 3 := by
  fin_cases ci <;> simp [decodeCarryIn]

theorem decodeMulAlg_refuses_iff (alg : Fin 4) : (∃ why, decodeMulAlg alg = .error why) ↔ alg.val = 3 := by
  fin_cases alg <;> simp [decodeMulAlg]

theorem decodeDivAlg_refuses_iff (alg : Fin 4) : (∃ why, decodeDivAlg alg = .error why) ↔ alg.val = 3 := by
  fin_cases alg <;> simp [decodeDivAlg]

theorem map_refuses_iff {ε α β : Type} (g : α → β) (r : Except ε α) :
    (∃ why, r.map g = .error why) ↔ ∃ why, r = .error why := by
  cases r <;> simp [Except.map]

theorem map_eq_ok_iff {ε α β : Type} (g : α → β) (r : Except ε α) (y : β) :
    r.map g = .ok y ↔ ∃ x, r = .ok x ∧ g x = y := by
  cases r <;> simp [Except.map]

/-- In a row of R68 no command is built exactly when the row uses a select and its field is `0b11`. -/
theorem buildInstr_refuses_iff {f : Fields} {used : List Field} (hrow : usedFields f.op = some used) :
    (∃ why, buildInstr f = .error why) ↔ f.BadSelect := by
  unfold usedFields at hrow
  split at hrow
  case h_31 => cases hrow
  all_goals
    next hop =>
      simp [buildInstr, hop, Fields.BadSelect, map_refuses_iff, decodeCarryIn_refuses_iff, decodeMulAlg_refuses_iff,
        decodeDivAlg_refuses_iff]

/-- The command built from fields is ill formed exactly when they break an operand constraint. -/
theorem not_wellFormed_iff_of_buildInstr (f : Fields) :
    ∀ i, buildInstr f = .ok i → (¬ i.wellFormed ↔ f.BadOperands) := by
  unfold buildInstr
  split
  case h_31 => simp
  all_goals
    next hop => simp [map_eq_ok_iff, Instr.flaw, hop, Fields.BadOperands, Fin.ext_iff]

theorem checkInstr_refuses_iff (i : Instr) : (∃ why, checkInstr i = .error why) ↔ ¬ i.wellFormed := by
  simp only [checkInstr, Instr.wellFormed]
  cases i.flaw <;> simp

/-- R67 (a) to (g) on the fields of a word. -/
theorem decodeFields_refuses_iff (f : Fields) :
    (∃ why, decodeFields f = .error why) ↔
      usedFields f.op = none ∨ (∃ used, usedFields f.op = some used ∧ ¬ f.cleanOutside used = true) ∨ f.BadSelect ∨
        f.BadOperands := by
  cases hrow : usedFields f.op with
  | none => simp [decodeFields, hrow]
  | some used =>
    by_cases hclean : f.cleanOutside used = true
    · have hselect := buildInstr_refuses_iff hrow
      rw [decodeFields_of_row hrow hclean]
      cases hbuild : buildInstr f with
      | error why =>
        have : f.BadSelect := hselect.1 ⟨why, hbuild⟩
        simp [Except.bind, this]
      | ok i =>
        have : ¬ f.BadSelect := fun h => by simpa [hbuild] using hselect.2 h
        simp [Except.bind, this, hclean, checkInstr_refuses_iff, not_wellFormed_iff_of_buildInstr f i hbuild]
    · simp [decodeFields, hrow, hclean]

/-- The bits above the command word name no field of it (R60). -/
theorem Fields.ofNat_mod (x : Nat) : Fields.ofNat (x % 2 ^ 32) = Fields.ofNat x := by
  simp only [Fields.ofNat, bitField, Fields.mk.injEq, Fin.ext_iff, Fin.val_ofNat]
  omega

theorem decode_ofNat (x : Nat) : decode (BitVec.ofNat 32 x) = decodeFields (Fields.ofNat x) := by
  rw [decode, BitVec.toNat_ofNat, Fields.ofNat_mod]

/-- R67 (b) on the bits of the word is that its fields are not clean outside those its row uses. -/
theorem Fields.not_cleanOutside_ofNat_iff (x : Nat) (used : List Field) :
    ¬ (Fields.ofNat x).cleanOutside used = true ↔
      (∃ k, k ∉ used ∧ (Fields.ofNat x).value k ≠ 0) ∨ x % 128 ≠ 0 := by
  have hrsv : (Fields.ofNat x).rsv = 0 ↔ x % 128 = 0 := by simp [Fields.ofNat, bitField, Fin.ext_iff]
  rw [Fields.cleanOutside_iff, hrsv, not_and_or]
  push Not
  rfl

end Sys2Proof

namespace Sys2Proof.Machine

/-- R67 (a) to (g) on the bits of the word are the conditions on its fields that the decoder refuses. -/
theorem illegalCommandWord_iff (width : WordWidth) (x : Nat) :
    IllegalCommandWord width x ↔
      (∃ why, decodeFields (Fields.ofNat x) = .error why) ∨ width = .w64 ∧ x / 2 ^ 32 ≠ 0 := by
  rw [decodeFields_refuses_iff, usedFields_eq_none_iff]
  simp only [Fields.not_cleanOutside_ofNat_iff, Fields.BadSelect, Fields.BadOperands, or_assoc]
  rfl

theorem decodeCommand_refuses_iff (width : WordWidth) (x : Nat) :
    (∃ why, decodeCommand width x = .error why) ↔ IllegalCommandWord width x := by
  rw [illegalCommandWord_iff, decodeCommand, decode_ofNat]
  split
  · next h => exact iff_of_true ⟨_, rfl⟩ (.inr h)
  · next h => simp only [h, or_false]

/-- Settles O4: the decoder refuses on the fields what R67 lists on the bits, and a refused word runs to a fault. -/
theorem illegalWordsAreExactlyTheListedOnes : Obligations.IllegalWordsAreExactlyTheListedOnes := by
  intro s x
  have hillegal := decodeCommand_refuses_iff s.params.width x
  refine ⟨hillegal, fun h => ?_⟩
  obtain ⟨why, hwhy⟩ := hillegal.2 h
  exact ⟨s.takeFault .illegalCommand, by rw [runCommand, hwhy], faulted_takeFault s .illegalCommand⟩

/-! ### The carry-in (R64) -/

/-- Settles O6: the three selects by the carry-in's definition, and `CI = 0b11` by the fields of the assembled word. -/
theorem carryInSelectGivesTheBit : Obligations.CarryInSelectGivesTheBit :=
  ⟨fun s => ⟨carryIn_zero s, carryIn_one s, carryIn_status s⟩, fun _ => rfl, ⟨rfl, rfl, rfl⟩,
    fun d a b => ⟨decode_assemble 0x08 d a b 0 0 3 0, decode_assemble 0x09 d a b 0 0 3 0⟩,
    fun d b => ⟨decode_assemble 0x10 d 0 b 0 0 3 0, decode_assemble 0x11 d 0 b 0 0 3 0⟩,
    fun d b => ⟨decode_assemble 0x18 d 0 b 0 0 3 0, decode_assemble 0x19 d 0 b 0 0 3 0⟩⟩

end Sys2Proof.Machine
end

section
/-! SUPPORT. The transfer commands (40_transfer.md): VSET and VMOV write a whole register, VLDW and VSTW name one word of it
by an index that must be below `N`. -/

namespace Sys2Proof.Machine

/-! ### Register values in range -/

theorem State.wf.V_lt {s : State} (hs : s.wf) (r : VReg) : s.V r < 2 ^ s.M := hs.2.1 r

theorem State.wf.S_lt {s : State} (hs : s.wf) (r : SReg) : s.S r < 2 ^ s.W := hs.2.2.1 r

theorem State.wf.length_vmarks {s : State} (hs : s.wf) (r : VReg) : (s.vmarks.get r).length = s.N := hs.2.2.2.1 r

/-- A word fits a V register, which has at least one (00_scope.md R7). -/
theorem State.wf.W_le_M {s : State} (hs : s.wf) : s.W ≤ s.M := by
  have hN : 1 ≤ s.N := hs.1.1
  rw [s.M_eq]
  exact Nat.le_mul_of_pos_right s.W hN

/-- The value of an S register, zero-extended, is in the range of a V register. -/
theorem State.wf.S_lt_two_pow_M {s : State} (hs : s.wf) (r : SReg) : s.S r < 2 ^ s.M :=
  (hs.S_lt r).trans_le (Nat.pow_le_pow_right Nat.two_pos hs.W_le_M)

/-- A V register takes a value in its range unchanged. -/
theorem setsV_setV_of_lt {s : State} {x : Nat} (hx : x < 2 ^ s.M) (r : VReg) (known : Bool) :
    SetsV (s.setV r x known) r x known := by
  simpa only [Nat.mod_eq_of_lt hx] using setsV_setV s r x known

/-- An S register takes a value in its range unchanged. -/
theorem setsS_setS_of_lt {s : State} {x : Nat} (hx : x < 2 ^ s.W) (r : SReg) (known : Bool) :
    SetsS (s.setS r x known) r x known := by
  simpa only [Nat.mod_eq_of_lt hx] using setsS_setS s r x known

/-! ### The word index (20_memory.md R46) -/

theorem State.wordIndexBad_of_lt {s : State} {b : SReg} (hb : s.S b < s.N) : s.wordIndexBad b = false :=
  decide_eq_false (Nat.not_le.2 hb)

theorem State.wordIndexBad_of_le {s : State} {b : SReg} (hb : s.N ≤ s.S b) : s.wordIndexBad b = true :=
  decide_eq_true hb

theorem exec_vldw_of_lt {s : State} {b : SReg} (hb : s.S b < s.N) (d : VReg) (a : SReg) :
    exec (.vldw d a b) s =
      .next ((s.setWord d (s.S b) (s.S a) (operandsSet (.vldw d a b) s)).complete .plain false false) := by
  rw [exec, execVldw, State.wordIndexBad_of_lt hb]
  rfl

theorem exec_vldw_of_le {s : State} {b : SReg} (hb : s.N ≤ s.S b) (d : VReg) (a : SReg) :
    exec (.vldw d a b) s = .next (s.takeFault .improperArgument) := by
  rw [exec, execVldw, if_pos (State.wordIndexBad_of_le hb)]

theorem exec_vstw_of_lt {s : State} {b : SReg} (hb : s.S b < s.N) (d : SReg) (a : VReg) :
    exec (.vstw d a b) s =
      .next ((s.setS d (s.word a (s.S b)) (operandsSet (.vstw d a b) s)).complete .plain false false) := by
  rw [exec, execVstw, State.wordIndexBad_of_lt hb]
  rfl

theorem exec_vstw_of_le {s : State} {b : SReg} (hb : s.N ≤ s.S b) (d : SReg) (a : VReg) :
    exec (.vstw d a b) s = .next (s.takeFault .improperArgument) := by
  rw [exec, execVstw, if_pos (State.wordIndexBad_of_le hb)]

/-! ### One word of the V word space, and its mark, after a write and a completion -/

@[simp] theorem State.word_complete (s : State) (cls : CommandClass) (st zf : Bool) (r : VReg) (j : Nat) :
    (s.complete cls st zf).word r j = s.word r j := rfl

/-- The word just written is set exactly if its value is known. -/
theorem State.wf.wordIsSet_setWord_same {s : State} (hs : s.wf) {i : Nat} (hi : i < s.N) (r : VReg) (x : Nat)
    (known : Bool) : (s.setWord r i x known).wordIsSet r i = known := by
  rw [State.wordIsSet_setWord, if_pos ⟨rfl, rfl, (hs.length_vmarks r).symm ▸ hi⟩]

/-- Every other word keeps its mark. -/
theorem State.wordIsSet_setWord_ne (s : State) (r : VReg) {i j : Nat} (hj : j ≠ i) (x : Nat) (known : Bool) :
    (s.setWord r i x known).wordIsSet r j = s.wordIsSet r j := by
  rw [State.wordIsSet_setWord, if_neg fun h => hj h.2.1]

/-! ### The statements -/

/-- Settles O30: below `N` the command is a write of one word and a completion, so the laws of `setWord` give the word
written, the words kept and their marks; from `N` on it is a fault. -/
theorem vldwWritesOneWord : Obligations.VldwWritesOneWord := by
  intro s d a b hs
  refine ⟨decode_assemble 0x02 d a b 0 0 0 0, fun hb => ⟨_, exec_vldw_of_lt hb d a, ?_, ?_, ?_, ?_, ?_⟩,
    fun hb => ⟨_, exec_vldw_of_le hb d a, faulted_takeFault s _⟩⟩
  · rw [State.word_complete, State.word_setWord_same _ _ _ _ _ (hs.V_lt d) hb, Nat.mod_eq_of_lt (hs.S_lt a)]
  · intro hknown
    rw [State.wordIsSet_complete, hs.wordIsSet_setWord_same hb, hknown]
  · intro j hj
    rw [State.word_complete, State.wordIsSet_complete]
    exact ⟨State.word_setWord_ne s _ d _ (hs.V_lt d) hb hj, State.wordIsSet_setWord_ne s d hj _ _⟩
  · exact completed_complete (State.setWord_status ..) .plain false false
  · exact frame_setWord_complete s d _ _ _ .plain false false

/-- Settles O31: below `N` the command is a write of an S register and a completion, and a word is in the register's range;
from `N` on it is a fault. -/
theorem vstwReadsOneWord : Obligations.VstwReadsOneWord := by
  intro s d a b
  refine ⟨decode_assemble 0x03 d a b 0 0 0 0, fun hb => ⟨_, exec_vstw_of_lt hb d a, ?_, ?_, ?_⟩,
    fun hb => ⟨_, exec_vstw_of_le hb d a, faulted_takeFault s _⟩⟩
  · have hword : s.word a (s.S b) < 2 ^ s.W := wordAt_lt s.W (s.V a) (s.S b)
    exact setsS_complete (setsS_setS_of_lt hword d _) .plain false false
  · exact completed_complete (State.setS_status ..) .plain false false
  · exact frame_setS_complete s d _ _ .plain false false

/-- A command that writes a value in range to one V register and completes with ST = 0 and ZF = 0. -/
theorem setV_complete_plain {s : State} {x : Nat} (hx : x < 2 ^ s.M) (d : VReg) (known : Bool) :
    SetsV ((s.setV d x known).complete .plain false false) d x known ∧
      Completed s ((s.setV d x known).complete .plain false false) .plain false false ∧
      Frame s ((s.setV d x known).complete .plain false false) [d] [] :=
  ⟨setsV_complete (setsV_setV_of_lt hx d known) .plain false false,
    completed_complete (State.setV_status ..) .plain false false, frame_setV_complete s d x known .plain false false⟩

/-- Settles O29: both commands write a value in the range of a V register, a word by zero extension and a V register's
value as it stands, so the register takes it unchanged. -/
theorem vsetWidensAndVmovCopies : Obligations.VsetWidensAndVmovCopies := fun _ hs =>
  ⟨fun d a => ⟨decode_assemble 0x01 d a 0 0 0 0 0, _, rfl, setV_complete_plain (hs.S_lt_two_pow_M a) d _⟩,
    fun d a => ⟨decode_assemble 0x04 d a 0 0 0 0 0, _, rfl, setV_complete_plain (hs.V_lt a) d _⟩⟩

end Sys2Proof.Machine
end

section
/-! SUPPORT. The WordOps commands (41_wordops.md): each writes one or two S registers with words that fit them, and
completes; the two that write a pair refuse one register for both halves, and WDIV a divisor its quotient does not fit. -/

namespace Sys2Proof.Machine

/-! ### Decoding a well-formed command -/

/-- The word R69 assembles from a well-formed command's fields decodes to the command. -/
theorem decode_assemble_encodeFields (i : Instr) (h : i.wellFormed) :
    decode (assemble (encodeFields i).op (encodeFields i).d (encodeFields i).a (encodeFields i).b (encodeFields i).c
      (encodeFields i).e (encodeFields i).ci (encodeFields i).alg) = .ok i :=
  encode_eq_assemble i ▸ decode_encode h

/-! ### The word ALU (R94) -/

/-- The wrapped integer is the integer modulo `2 ^ k`. -/
theorem wrap_cast (k : Nat) (t : Int) : (wrap k t : Int) = t % 2 ^ k :=
  Int.toNat_of_nonneg (Int.emod_nonneg t (by positivity))

/-- The high word of a product of two words is a word. -/
theorem mulWords_high_lt {W a b : Nat} (ha : a < 2 ^ W) (hb : b < 2 ^ W) : (mulWords W a b).1 < 2 ^ W :=
  Nat.div_lt_of_lt_mul (Nat.mul_lt_mul'' ha hb)

/-- The quotient of a double word fits one word exactly when the high word is below the divisor: the double word lies
between `hi · 2 ^ W` and `(hi + 1) · 2 ^ W`. -/
theorem divDoubleWord_quotient_lt_iff {W hi lo d : Nat} (hlo : lo < 2 ^ W) (hd : 0 < d) :
    (divDoubleWord W hi lo d).1 < 2 ^ W ↔ hi < d := by
  rw [divDoubleWord, Nat.div_lt_iff_lt_mul hd, Nat.mul_comm (2 ^ W) d]
  constructor
  · intro h
    exact Nat.lt_of_mul_lt_mul_right (Nat.lt_of_le_of_lt (Nat.le_add_right _ lo) h)
  · intro h
    calc hi * 2 ^ W + lo < (hi + 1) * 2 ^ W := by rw [Nat.succ_mul]; omega
      _ ≤ d * 2 ^ W := Nat.mul_le_mul_right _ h

/-! ### The commands by case -/

theorem exec_wmul_same (s : State) (c a b : SReg) : exec (.wmul c c a b) s = .next (s.takeFault .illegalCommand) :=
  if_pos rfl

theorem exec_wmul_of_ne {d c : SReg} (hdc : d ≠ c) (s : State) (a b : SReg) :
    exec (.wmul d c a b) s =
      .next (((s.setS d (s.S a * s.S b / 2 ^ s.W) (operandsSet (.wmul d c a b) s)).setS c (s.S a * s.S b % 2 ^ s.W)
        (operandsSet (.wmul d c a b) s)).complete .plain false false) :=
  if_neg hdc

theorem exec_wdiv_same (s : State) (c a b e : SReg) :
    exec (.wdiv c c a b e) s = .next (s.takeFault .illegalCommand) :=
  if_pos rfl

theorem exec_wdiv_of_zero {s : State} {d c e : SReg} (hdc : d ≠ c) (he : s.S e = 0) (a b : SReg) :
    exec (.wdiv d c a b e) s = .next (s.takeFault .divByZero) := by
  rw [exec, execWdiv, if_neg hdc, if_pos he]

theorem exec_wdiv_of_le {s : State} {d c a e : SReg} (hdc : d ≠ c) (he : 0 < s.S e) (hae : s.S e ≤ s.S a) (b : SReg) :
    exec (.wdiv d c a b e) s = .next (s.takeFault .divideFault) := by
  rw [exec, execWdiv, if_neg hdc, if_neg he.ne', if_pos hae]

theorem exec_wdiv_of_lt {s : State} {d c a e : SReg} (hdc : d ≠ c) (hae : s.S a < s.S e) (b : SReg) :
    exec (.wdiv d c a b e) s =
      .next (((s.setS d ((s.S a * 2 ^ s.W + s.S b) / s.S e) (operandsSet (.wdiv d c a b e) s)).setS c
        ((s.S a * 2 ^ s.W + s.S b) % s.S e) (operandsSet (.wdiv d c a b e) s)).complete .plain false false) := by
  rw [exec, execWdiv, if_neg hdc, if_neg (Nat.ne_zero_of_lt hae), if_neg (Nat.not_le.2 hae)]
  rfl

/-! ### One word or two written, and a completion -/

/-- A command that writes a word to one S register and completes. -/
theorem setS_complete {s : State} {x : Nat} (hx : x < 2 ^ s.W) (d : SReg) (known : Bool) (cls : CommandClass)
    (st zf : Bool) :
    SetsS ((s.setS d x known).complete cls st zf) d x known ∧
      Completed s ((s.setS d x known).complete cls st zf) cls st zf ∧
      Frame s ((s.setS d x known).complete cls st zf) [] [d] :=
  ⟨setsS_complete (setsS_setS_of_lt hx d known) cls st zf, completed_complete (State.setS_status ..) cls st zf,
    frame_setS_complete s d x known cls st zf⟩

/-- A command that writes a word to each of two S registers and completes with ST = 0 and ZF = 0. -/
theorem setS_setS_complete_plain {s : State} {x y : Nat} (hx : x < 2 ^ s.W) (hy : y < 2 ^ s.W) {d c : SReg}
    (hdc : d ≠ c) (known : Bool) :
    SetsS (((s.setS d x known).setS c y known).complete .plain false false) d x known ∧
      SetsS (((s.setS d x known).setS c y known).complete .plain false false) c y known ∧
      Completed s (((s.setS d x known).setS c y known).complete .plain false false) .plain false false ∧
      Frame s (((s.setS d x known).setS c y known).complete .plain false false) [] [d, c] :=
  ⟨setsS_complete ((setsS_setS_of_lt hx d known).setS_ne hdc y known) .plain false false,
    setsS_complete (setsS_setS_of_lt (s := s.setS d x known) hy c known) .plain false false,
    completed_complete (s := s) (u := (s.setS d x known).setS c y known) rfl .plain false false,
    frame_setS_setS_complete s d c x y known .plain false false⟩

/-! ### The statements -/

/-- Settles O35: the divisor's four cases are the branches of the command; the quotient fits its register because the high
word is below the divisor, the remainder because it is below a divisor that is a word. -/
theorem wdivDividesADoubleWord : Obligations.WdivDividesADoubleWord := by
  intro s d c a b e hs
  have hfits (he : 0 < s.S e) := divDoubleWord_quotient_lt_iff (hi := s.S a) (hs.S_lt b) he
  refine ⟨fun hdc => decode_assemble_encodeFields (.wdiv d c a b e) (if_neg hdc), fun hdc hae => ?_,
    fun hdc he => ⟨_, exec_wdiv_of_zero hdc he a b, faulted_takeFault s _⟩,
    fun hdc he hae => ⟨_, exec_wdiv_of_le hdc he hae b, faulted_takeFault s _⟩, ?_, hfits⟩
  · have he : 0 < s.S e := Nat.zero_lt_of_lt hae
    have hrem : (s.S a * 2 ^ s.W + s.S b) % s.S e < 2 ^ s.W := (Nat.mod_lt _ he).trans (hs.S_lt e)
    exact ⟨_, exec_wdiv_of_lt hdc hae b, setS_setS_complete_plain ((hfits he).2 hae) hrem hdc _⟩
  · rintro rfl
    exact ⟨_, exec_wdiv_same s d a b e, faulted_takeFault s _⟩

/-- Settles O33: each command writes a word, the sum or the wrapped difference, and completes with the carry or borrow of
the exact result. -/
theorem waddAndWsubGiveResultAndCarry : Obligations.WaddAndWsubGiveResultAndCarry := by
  intro s d a b ci
  refine ⟨decode_assemble_encodeFields (.wadd d a b ci) rfl,
    ⟨_, rfl, setS_complete (Nat.mod_lt _ (Nat.two_pow_pos s.W)) d _ .arithmetic _ false⟩,
    decode_assemble_encodeFields (.wsub d a b ci) rfl, ?_⟩
  obtain ⟨hsets, hdone⟩ := setS_complete (wrap_lt s.W ((s.S a : Int) - s.S b - (s.carryIn ci).toNat)) d
    (operandsSet (.wsub d a b ci) s) .arithmetic (borrowOut ((s.S a : Int) - s.S b - (s.carryIn ci).toNat)) false
  exact ⟨_, _, rfl, hsets, wrap_cast _ _, hdone⟩

/-- Settles O34: both halves of the product of two words are words, so the two registers take them unchanged. -/
theorem wmulGivesTheDoubleWordProduct : Obligations.WmulGivesTheDoubleWordProduct := by
  intro s d c a b hs
  refine ⟨fun hdc => ⟨decode_assemble_encodeFields (.wmul d c a b) (if_neg hdc), _, exec_wmul_of_ne hdc s a b, ?_⟩, ?_⟩
  · exact setS_setS_complete_plain (mulWords_high_lt (hs.S_lt a) (hs.S_lt b)) (Nat.mod_lt _ (Nat.two_pow_pos s.W)) hdc _
  · rintro rfl
    exact ⟨_, exec_wmul_same s d a b, faulted_takeFault s _⟩

end Sys2Proof.Machine
end

section
/-! SUPPORT. Multi-word add and subtract (42_vector_arith.md): each command writes one V register with the exact result modulo
`2 ^ M` and completes with its carry or borrow; the word-serial ripples of R104 give the same, by one induction over the words
that serves the sum and the difference. -/

namespace Sys2Proof.Machine

/-! ### The commands by case -/

theorem exec_vadd (s : State) (d b : VReg) (ci : CarryIn) :
    exec (.vadd d b ci) s =
      .next ((s.setV d (s.V d + s.V b + (s.carryIn ci).toNat) (operandsSet (.vadd d b ci) s)).complete .arithmetic
        (carryOut s.M (s.V d + s.V b + (s.carryIn ci).toNat)) false) :=
  rfl

theorem exec_vsub (s : State) (d b : VReg) (ci : CarryIn) :
    exec (.vsub d b ci) s =
      .next ((s.setV d (wrap s.M (s.V d - s.V b - (s.carryIn ci).toNat)) (operandsSet (.vsub d b ci) s)).complete
        .arithmetic (borrowOut (s.V d - s.V b - (s.carryIn ci).toNat)) false) :=
  rfl

theorem exec_vaddo_of_lt {s : State} {b : SReg} (hb : s.S b < s.N) (d : VReg) (a : SReg) :
    exec (.vaddo d a b) s =
      .next ((s.setV d (s.V d + s.S a * 2 ^ (s.W * s.S b)) (operandsSet (.vaddo d a b) s)).complete .arithmetic
        (carryOut s.M (s.V d + s.S a * 2 ^ (s.W * s.S b))) false) := by
  rw [exec, execVaddo, State.wordIndexBad_of_lt hb]
  rfl

theorem exec_vaddo_of_le {s : State} {b : SReg} (hb : s.N ≤ s.S b) (d : VReg) (a : SReg) :
    exec (.vaddo d a b) s = .next (s.takeFault .improperArgument) := by
  rw [exec, execVaddo, if_pos (State.wordIndexBad_of_le hb)]

theorem exec_vsubo_of_lt {s : State} {b : SReg} (hb : s.S b < s.N) (d : VReg) (a : SReg) :
    exec (.vsubo d a b) s =
      .next ((s.setV d (wrap s.M (s.V d - s.S a * 2 ^ (s.W * s.S b))) (operandsSet (.vsubo d a b) s)).complete .arithmetic
        (borrowOut (s.V d - s.S a * 2 ^ (s.W * s.S b))) false) := by
  rw [exec, execVsubo, State.wordIndexBad_of_lt hb, Nat.cast_mul, Nat.cast_pow, Nat.cast_ofNat]
  rfl

theorem exec_vsubo_of_le {s : State} {b : SReg} (hb : s.N ≤ s.S b) (d : VReg) (a : SReg) :
    exec (.vsubo d a b) s = .next (s.takeFault .improperArgument) := by
  rw [exec, execVsubo, if_pos (State.wordIndexBad_of_le hb)]

/-- The borrow of a difference of two terms is their order. -/
theorem borrowOut_sub (x y : Int) : borrowOut (x - y) = decide (x < y) := by
  simp only [borrowOut, sub_neg]

/-! ### A V register written, and a completion -/

/-- A command that writes a value, which the register cuts to its width, to one V register and completes. -/
theorem setV_complete_mod (s : State) (d : VReg) (x : Nat) (known : Bool) (cls : CommandClass) (st zf : Bool) :
    SetsV ((s.setV d x known).complete cls st zf) d (x % 2 ^ s.M) known ∧
      Completed s ((s.setV d x known).complete cls st zf) cls st zf ∧
      Frame s ((s.setV d x known).complete cls st zf) [d] [] :=
  ⟨setsV_complete (setsV_setV s d x known) cls st zf, completed_complete (State.setV_status ..) cls st zf,
    frame_setV_complete s d x known cls st zf⟩

/-- The same of a value in range, which the register takes unchanged. -/
theorem setV_complete {s : State} {x : Nat} (hx : x < 2 ^ s.M) (d : VReg) (known : Bool) (cls : CommandClass)
    (st zf : Bool) :
    SetsV ((s.setV d x known).complete cls st zf) d x known ∧
      Completed s ((s.setV d x known).complete cls st zf) cls st zf ∧
      Frame s ((s.setV d x known).complete cls st zf) [d] [] := by
  simpa only [Nat.mod_eq_of_lt hx] using setV_complete_mod s d x known cls st zf

/-! ### VADD and VSUB (R100, R101) -/

/-- Settles O36: the sum and the wrapped difference are written to one V register, and the command completes with the carry
or borrow of the exact result. -/
theorem vaddAndVsubGiveResultAndCarry : Obligations.VaddAndVsubGiveResultAndCarry := by
  intro s d b ci
  refine ⟨decode_assemble_encodeFields (.vadd d b ci) rfl, ⟨_, exec_vadd s d b ci, setV_complete_mod ..⟩,
    decode_assemble_encodeFields (.vsub d b ci) rfl, ?_⟩
  obtain ⟨hsets, hdone⟩ := setV_complete (wrap_lt s.M (s.V d - s.V b - (s.carryIn ci).toNat)) d
    (operandsSet (.vsub d b ci) s) .arithmetic (borrowOut (s.V d - s.V b - (s.carryIn ci).toNat)) false
  exact ⟨_, _, exec_vsub s d b ci, hsets, wrap_cast _ _, hdone⟩

/-! ### VADDO and VSUBO (R102, R103) -/

/-- A word below word `i` depends on the value modulo `2 ^ (W * i)` alone. -/
theorem wordAt_congr_of_lt {W i j v w : Nat} (h : v ≡ w [MOD 2 ^ (W * i)]) (hj : j < i) :
    wordAt W v j = wordAt W w j := by
  have hmod : v % (2 ^ (W * j) * 2 ^ W) = w % (2 ^ (W * j) * 2 ^ W) := by
    rw [← Nat.pow_add, ← Nat.mul_succ]
    exact h.of_dvd (Nat.pow_dvd_pow 2 (Nat.mul_le_mul_left W hj))
  rw [wordAt, wordAt, ← Nat.mod_mul_right_div_self, hmod, Nat.mod_mul_right_div_self]

/-- A value that is `v` with a multiple of `2 ^ (W * i)` added, modulo `2 ^ (W * n)` with `i ≤ n`, has the words of `v` below
word `i`. -/
theorem wordAt_of_eq_add_mod {W n i j v x : Nat} {q : Int} (hi : i ≤ n)
    (hx : (x : Int) = (v + q * 2 ^ (W * i)) % 2 ^ (W * n)) (hj : j < i) : wordAt W x j = wordAt W v j := by
  have hdvd : (2 : Int) ^ (W * i) ∣ 2 ^ (W * n) := pow_dvd_pow 2 (Nat.mul_le_mul_left W hi)
  have hcongr : (x : Int) ≡ v [ZMOD ((2 ^ (W * i) : Nat) : Int)] := by
    rw [hx, Nat.cast_pow, Nat.cast_ofNat]
    calc (v + q * 2 ^ (W * i)) % 2 ^ (W * n) ≡ v + q * 2 ^ (W * i) [ZMOD 2 ^ (W * i)] :=
          (Int.mod_modEq _ _).of_dvd hdvd
      _ ≡ v [ZMOD 2 ^ (W * i)] := Int.add_mul_modulus_modEq_iff.2 rfl
  exact wordAt_congr_of_lt (Int.natCast_modEq_iff.1 hcongr) hj

/-- A command that leaves in `Vd` its value plus a multiple of `2 ^ (W * i)` modulo `2 ^ M`, `i ≤ N`, keeps the words of it
below word `i`. -/
theorem word_kept_below {s t : State} {d : VReg} {i j : Nat} {q : Int} (hp : t.params = s.params) (hi : i ≤ s.N)
    (hx : (t.V d : Int) = (s.V d + q * 2 ^ (s.W * i)) % 2 ^ s.M) (hj : j < i) : t.word d j = s.word d j := by
  rw [State.word, State.word, State.W, hp]
  exact wordAt_of_eq_add_mod hi (s.M_eq ▸ hx) hj

/-- Settles O37: below `N` the delta enters as a multiple of `2 ^ (W * S[B])`, which no word below `S[B]` sees; from `N` on
each command is a fault. -/
theorem vaddoAndVsuboRippleOnlyUpward : Obligations.VaddoAndVsuboRippleOnlyUpward := by
  intro s d a b
  refine ⟨decode_assemble_encodeFields (.vaddo d a b) rfl, decode_assemble_encodeFields (.vsubo d a b) rfl,
    fun hb => ⟨?_, ?_⟩, fun hb => ⟨⟨_, exec_vaddo_of_le hb d a, faulted_takeFault s _⟩,
      _, exec_vsubo_of_le hb d a, faulted_takeFault s _⟩⟩
  · obtain ⟨hsets, hdone, hframe⟩ := setV_complete_mod s d (s.V d + s.S a * 2 ^ (s.W * s.S b))
      (operandsSet (.vaddo d a b) s) .arithmetic (carryOut s.M (s.V d + s.S a * 2 ^ (s.W * s.S b))) false
    refine ⟨_, exec_vaddo_of_lt hb d a, hsets, fun j hj => ?_, hdone, hframe⟩
    exact word_kept_below (q := s.S a) hframe.params hb.le (by rw [hsets.1]; push_cast; rfl) hj
  · obtain ⟨hsets, hdone, hframe⟩ := setV_complete (wrap_lt s.M (s.V d - s.S a * 2 ^ (s.W * s.S b))) d
      (operandsSet (.vsubo d a b) s) .arithmetic (borrowOut (s.V d - s.S a * 2 ^ (s.W * s.S b))) false
    refine ⟨_, _, exec_vsubo_of_lt hb d a, hsets, wrap_cast _ _, fun j hj => ?_, borrowOut_sub _ _ ▸ hdone, hframe⟩
    exact word_kept_below (q := -s.S a) hframe.params hb.le (by rw [hsets.1, wrap_cast, sub_eq_add_neg, neg_mul]) hj

/-! ### VADD commutes and associates (R105) -/

/-- A command of the arithmetic class records its ST in STICKY. -/
theorem sticky_completed_arithmetic (old : Status) (st zf : Bool) :
    (old.completed .arithmetic st zf).sticky = (old.sticky || st) := by
  cases st <;> rfl

/-- One of the two carries of a sum of three is 1 exactly when the exact sum is out of range: if the first is 0, the first
sum stands as it is. -/
theorem carryOut_or_carryOut (k x y z : Nat) :
    (carryOut k (x + y) || carryOut k ((x + y) % 2 ^ k + z)) = carryOut k (x + y + z) := by
  by_cases h : 2 ^ k ≤ x + y
  · simp [carryOut, h, Nat.le_add_right_of_le h]
  · simp [carryOut, h, Nat.mod_eq_of_lt (Nat.not_le.1 h)]

/-- VADD reads the carry-in from STATUS and the two values symmetrically. -/
theorem vadd_commutes {s s' : State} {d b : VReg} (hp : s'.params = s.params) (hst : s'.status = s.status)
    (hd : s'.V d = s.V b) (hb : s'.V b = s.V d) (ci : CarryIn) :
    ∃ t t', exec (.vadd d b ci) s = .next t ∧ exec (.vadd d b ci) s' = .next t' ∧ t'.V d = t.V d ∧
      t'.status = t.status := by
  have hcin : s'.carryIn ci = s.carryIn ci := by cases ci <;> simp [hst]
  have hM : s'.M = s.M := congrArg Params.M hp
  have hsum : s'.V d + s'.V b + (s'.carryIn ci).toNat = s.V d + s.V b + (s.carryIn ci).toNat := by
    rw [hd, hb, hcin, Nat.add_comm (s.V b)]
  refine ⟨_, _, exec_vadd s d b ci, exec_vadd s' d b ci, ?_, ?_⟩
  · rw [State.V_complete, State.V_complete, State.V_setV, State.V_setV, if_pos rfl, if_pos rfl, hsum, hM]
  · rw [State.complete_status, State.complete_status, State.setV_status, State.setV_status, hst, hsum, hM]

/-- Both orders of adding three registers leave the exact sum modulo `2 ^ M`, and from a clear STICKY they leave in it
whether that sum is out of range. -/
theorem vadd_associates {s : State} {x y z : VReg} (hxy : x ≠ y) (hxz : x ≠ z)
    (hsticky : s.status.sticky = false) :
    ∃ t₁ t₂ u₁ u₂, exec (.vadd x y .zero) s = .next t₁ ∧ exec (.vadd x z .zero) t₁ = .next t₂ ∧
      exec (.vadd y z .zero) s = .next u₁ ∧ exec (.vadd x y .zero) u₁ = .next u₂ ∧ t₂.V x = u₂.V x ∧
      t₂.status.sticky = carryOut s.M (s.V x + s.V y + s.V z) ∧
      u₂.status.sticky = carryOut s.M (s.V x + s.V y + s.V z) := by
  refine ⟨_, _, _, _, exec_vadd s x y .zero, exec_vadd _ x z .zero, exec_vadd s y z .zero, exec_vadd _ x y .zero,
    ?_, ?_, ?_⟩
  · simp [hxy, hxz.symm, Nat.add_assoc]
  · simp [hxz.symm, hsticky, sticky_completed_arithmetic, carryOut_or_carryOut]
  · simp [hxy, hsticky, sticky_completed_arithmetic, Nat.add_comm (s.V x), carryOut_or_carryOut, Nat.add_assoc]

/-- Settles O38: the sum and its carry are symmetric in the operands; both orders of adding three values give their exact sum
modulo `2 ^ M`, and the two carries together say whether it is out of range. -/
theorem vaddCommutesAndAssociates : Obligations.VaddCommutesAndAssociates := by
  refine ⟨fun _ _ _ _ ci hp hst hd hb => vadd_commutes hp hst hd hb ci, fun s x y z _ hxy _ hxz hsticky => ?_⟩
  obtain ⟨t₁, t₂, u₁, u₂, ht₁, ht₂, hu₁, hu₂, hval, hst, hsu⟩ := vadd_associates hxy hxz hsticky
  exact ⟨t₁, t₂, u₁, u₂, ht₁, ht₂, hu₁, hu₂, hval, hst, hsu.trans hst.symm⟩

/-! ### The ripples (R104) -/

/-- A word operation that computes `a + σ * (b + c)` exactly as a word and a bit of weight `σ * 2 ^ W`: at `σ = 1` a sum with
its carry, at `σ = -1` a difference with its borrow. -/
def ExactWordOp (W : Nat) (σ : Int) (op : Nat → Nat → Bool → Nat × Bool) : Prop :=
  ∀ a b c, a < 2 ^ W → b < 2 ^ W →
    (op a b c).1 < 2 ^ W ∧ ((op a b c).1 : Int) + σ * ((op a b c).2.toNat * 2 ^ W) = a + σ * (b + c.toNat)

theorem exactWordOp_addWords (W : Nat) : ExactWordOp W 1 (addWords W) := by
  intro a b c ha hb
  have hexact := addWords_exact W c ha hb
  refine ⟨Nat.mod_lt _ (Nat.two_pow_pos W), ?_⟩
  zify at hexact
  linarith

/-- The wrapped integer and the borrow of a difference that is above `-2 ^ k` and below `2 ^ k`. -/
theorem wrap_sub_borrowOut {k : Nat} {t : Int} (hlow : -2 ^ k ≤ t) (hhigh : t < 2 ^ k) :
    (wrap k t : Int) - (borrowOut t).toNat * 2 ^ k = t := by
  rw [wrap_cast]
  by_cases h : t < 0
  · rw [← Int.add_emod_right, Int.emod_eq_of_lt (by omega) (by omega)]
    simp [borrowOut, h]
  · rw [Int.emod_eq_of_lt (by omega) hhigh]
    simp [borrowOut, h]

theorem exactWordOp_subWords (W : Nat) : ExactWordOp W (-1) (subWords W) := by
  intro a b c ha hb
  have hc : c.toNat ≤ 1 := Bool.toNat_le c
  zify at ha hb hc
  have hexact := wrap_sub_borrowOut (k := W) (t := a - b - c.toNat) (by linarith) (by linarith)
  refine ⟨wrap_lt W _, ?_⟩
  simp only [subWords]
  linarith

/-- The ripple of a word operation over `count` words from word `k` up, as `rippleAdd` and `rippleSub` are for theirs. -/
def rippleBy (W : Nat) (op : Nat → Nat → Bool → Nat × Bool) (x y : Nat) : (count k : Nat) → Bool → Nat × Bool
  | 0, _, c => (0, c)
  | count + 1, k, c =>
    let low := op (wordAt W x k) (wordAt W y k) c
    let rest := rippleBy W op x y count (k + 1) low.2
    (low.1 * 2 ^ (W * k) + rest.1, rest.2)

theorem rippleAdd_eq_rippleBy (W x y count k : Nat) (c : Bool) :
    rippleAdd W x y count k c = rippleBy W (addWords W) x y count k c := by
  induction count generalizing k c with
  | zero => rfl
  | succ count ih => simp only [rippleAdd, rippleBy, ih]

theorem rippleSub_eq_rippleBy (W x y count k : Nat) (c : Bool) :
    rippleSub W x y count k c = rippleBy W (subWords W) x y count k c := by
  induction count generalizing k c with
  | zero => rfl
  | succ count ih => simp only [rippleSub, rippleBy, ih]

/-- The ripple of a word operation that starts at word `i` with the delta and goes upward, the words below `i` copied, as
`rippleAddAt` and `rippleSubAt` are for theirs. -/
def rippleAtBy (W : Nat) (op : Nat → Nat → Bool → Nat × Bool) (N x delta i : Nat) : Nat × Bool :=
  let low := op (wordAt W x i) delta false
  let rest := rippleBy W op x 0 (N - 1 - i) (i + 1) low.2
  (x % 2 ^ (W * i) + low.1 * 2 ^ (W * i) + rest.1, rest.2)

theorem rippleAddAt_eq_rippleAtBy (W N x delta i : Nat) :
    rippleAddAt W N x delta i = rippleAtBy W (addWords W) N x delta i := by
  simp only [rippleAddAt, rippleAtBy, rippleAdd_eq_rippleBy]

theorem rippleSubAt_eq_rippleAtBy (W N x delta i : Nat) :
    rippleSubAt W N x delta i = rippleAtBy W (subWords W) N x delta i := by
  simp only [rippleSubAt, rippleAtBy, rippleSub_eq_rippleBy]

/-- A word in its place `k` ends below bit `W * (k + 1)`. -/
theorem word_placed_add_le {W w : Nat} (hw : w < 2 ^ W) (k : Nat) :
    w * 2 ^ (W * k) + 2 ^ (W * k) ≤ 2 ^ (W * (k + 1)) := by
  rw [← Nat.succ_mul, Nat.mul_add_one, Nat.add_comm, Nat.pow_add]
  exact Nat.mul_le_mul_right _ hw

section
variable {W : Nat} {σ : Int} {op : Nat → Nat → Bool → Nat × Bool} (hop : ExactWordOp W σ op)
include hop

/-- The words of a ripple stand between bit `W * k` and bit `W * (k + count)`. -/
theorem rippleBy_add_le (x y count k : Nat) (c : Bool) :
    (rippleBy W op x y count k c).1 + 2 ^ (W * k) ≤ 2 ^ (W * (k + count)) := by
  induction count generalizing k c with
  | zero => simp [rippleBy]
  | succ count ih =>
    obtain ⟨hword, -⟩ := hop (wordAt W x k) (wordAt W y k) c (wordAt_lt ..) (wordAt_lt ..)
    have hrest := ih (k + 1) (op (wordAt W x k) (wordAt W y k) c).2
    have hlow := word_placed_add_le hword k
    rw [Nat.add_right_comm, Nat.add_assoc] at hrest
    simp only [rippleBy]
    omega

/-- A ripple is exact on the words it takes: the bit that leaves each word is the one that enters the next. -/
theorem rippleBy_exact (x y count k : Nat) (c : Bool) :
    ((rippleBy W op x y count k c).1 : Int) + σ * ((rippleBy W op x y count k c).2.toNat * 2 ^ (W * (k + count))) =
      ((x % 2 ^ (W * (k + count)) : Nat) - (x % 2 ^ (W * k) : Nat)) +
        σ * ((y % 2 ^ (W * (k + count)) : Nat) - (y % 2 ^ (W * k) : Nat) + c.toNat * 2 ^ (W * k)) := by
  induction count generalizing k c with
  | zero => simp [rippleBy]
  | succ count ih =>
    obtain ⟨-, hlow⟩ := hop (wordAt W x k) (wordAt W y k) c (wordAt_lt ..) (wordAt_lt ..)
    have hrest := ih (k + 1) (op (wordAt W x k) (wordAt W y k) c).2
    rw [mod_pow_succ, mod_pow_succ, Nat.add_right_comm, Nat.add_assoc] at hrest
    simp only [rippleBy]
    push_cast at hrest ⊢
    linear_combination hrest + 2 ^ (W * k) * hlow

/-- A ripple over all words is exact, and its words are an `N`-word value. -/
theorem rippleBy_all_exact {N x y : Nat} (hx : x < 2 ^ (W * N)) (hy : y < 2 ^ (W * N)) (c : Bool) :
    (rippleBy W op x y N 0 c).1 < 2 ^ (W * N) ∧
      ((rippleBy W op x y N 0 c).1 : Int) + σ * ((rippleBy W op x y N 0 c).2.toNat * 2 ^ (W * N)) =
        x + σ * (y + c.toNat) := by
  have hrange := rippleBy_add_le hop x y N 0 c
  have hexact := rippleBy_exact hop x y N 0 c
  rw [Nat.zero_add] at hrange hexact
  rw [Nat.mod_eq_of_lt hx, Nat.mod_eq_of_lt hy] at hexact
  exact ⟨by omega, by simpa [Nat.mod_one] using hexact⟩

/-- A ripple that starts at word `i` with a one-word delta is exact, and its words are an `N`-word value. -/
theorem rippleAtBy_exact {N x delta i : Nat} (hx : x < 2 ^ (W * N)) (hdelta : delta < 2 ^ W) (hi : i < N) :
    (rippleAtBy W op N x delta i).1 < 2 ^ (W * N) ∧
      ((rippleAtBy W op N x delta i).1 : Int) + σ * ((rippleAtBy W op N x delta i).2.toNat * 2 ^ (W * N)) =
        x + σ * (delta * 2 ^ (W * i)) := by
  obtain ⟨hword, hlow⟩ := hop (wordAt W x i) delta false (wordAt_lt ..) hdelta
  have htop : i + 1 + (N - 1 - i) = N := by omega
  have hrange := rippleBy_add_le hop x 0 (N - 1 - i) (i + 1) (op (wordAt W x i) delta false).2
  have hexact := rippleBy_exact hop x 0 (N - 1 - i) (i + 1) (op (wordAt W x i) delta false).2
  rw [htop] at hrange hexact
  rw [Nat.mod_eq_of_lt hx, mod_pow_succ] at hexact
  simp only [rippleAtBy]
  constructor
  · have hbelow : x % 2 ^ (W * i) < 2 ^ (W * i) := Nat.mod_lt _ (Nat.two_pow_pos _)
    have hplaced := word_placed_add_le hword i
    omega
  · simp only [Nat.zero_mod, Bool.toNat_false] at hexact hlow
    push_cast at hexact hlow ⊢
    linear_combination hexact + 2 ^ (W * i) * hlow

end

/-! ### An exact result determines its value and its bit -/

theorem eq_mod_carryOut {k t : Nat} {r : Nat × Bool} (hr : r.1 < 2 ^ k)
    (h : (r.1 : Int) + 1 * (r.2.toNat * 2 ^ k) = t) : r = (t % 2 ^ k, carryOut k t) := by
  obtain ⟨v, c⟩ := r
  dsimp only at hr h
  obtain rfl : v + c.toNat * 2 ^ k = t := by zify; linarith
  cases c
  · simp [carryOut, Nat.mod_eq_of_lt hr, hr]
  · simp [carryOut, Nat.mod_eq_of_lt hr]

theorem eq_wrap_borrowOut {k : Nat} {t : Int} {r : Nat × Bool} (hr : r.1 < 2 ^ k)
    (h : (r.1 : Int) + -1 * (r.2.toNat * 2 ^ k) = t) : r = (wrap k t, borrowOut t) := by
  obtain ⟨v, c⟩ := r
  dsimp only at hr h
  zify at hr
  have hwrap : wrap k t = v := by
    rw [wrap, ← h, ← mul_assoc, Int.add_mul_emod_self_right, Int.emod_eq_of_lt (Int.natCast_nonneg v) hr,
      Int.toNat_natCast]
  rw [hwrap, ← h]
  cases c
  · simp [borrowOut]
  · simp [borrowOut, hr]

/-! ### The four ripples give the exact sums and differences -/

theorem rippleAdd_exact {W N x y : Nat} (hx : x < 2 ^ (W * N)) (hy : y < 2 ^ (W * N)) (c : Bool) :
    rippleAdd W x y N 0 c = ((x + y + c.toNat) % 2 ^ (W * N), carryOut (W * N) (x + y + c.toNat)) := by
  rw [rippleAdd_eq_rippleBy]
  obtain ⟨hlt, hexact⟩ := rippleBy_all_exact (exactWordOp_addWords W) hx hy c
  exact eq_mod_carryOut hlt (hexact.trans (by push_cast; ring))

theorem rippleSub_exact {W N x y : Nat} (hx : x < 2 ^ (W * N)) (hy : y < 2 ^ (W * N)) (c : Bool) :
    rippleSub W x y N 0 c = (wrap (W * N) (x - y - c.toNat), borrowOut (x - y - c.toNat)) := by
  rw [rippleSub_eq_rippleBy]
  obtain ⟨hlt, hexact⟩ := rippleBy_all_exact (exactWordOp_subWords W) hx hy c
  exact eq_wrap_borrowOut hlt (hexact.trans (by ring))

theorem rippleAddAt_exact {W N x delta i : Nat} (hx : x < 2 ^ (W * N)) (hdelta : delta < 2 ^ W) (hi : i < N) :
    rippleAddAt W N x delta i =
      ((x + delta * 2 ^ (W * i)) % 2 ^ (W * N), carryOut (W * N) (x + delta * 2 ^ (W * i))) := by
  rw [rippleAddAt_eq_rippleAtBy]
  obtain ⟨hlt, hexact⟩ := rippleAtBy_exact (exactWordOp_addWords W) hx hdelta hi
  exact eq_mod_carryOut hlt (hexact.trans (by push_cast; ring))

theorem rippleSubAt_exact {W N x delta i : Nat} (hx : x < 2 ^ (W * N)) (hdelta : delta < 2 ^ W) (hi : i < N) :
    rippleSubAt W N x delta i = (wrap (W * N) (x - delta * 2 ^ (W * i)), borrowOut (x - delta * 2 ^ (W * i))) := by
  rw [rippleSubAt_eq_rippleAtBy]
  obtain ⟨hlt, hexact⟩ := rippleAtBy_exact (exactWordOp_subWords W) hx hdelta hi
  exact eq_wrap_borrowOut hlt (hexact.trans (by ring))

/-! ### The commands give what the ripples give -/

theorem result_setV_complete_mod (s : State) (d : VReg) (x : Nat) (known : Bool) (cls : CommandClass) (st zf : Bool) :
    (((s.setV d x known).complete cls st zf).V d, ((s.setV d x known).complete cls st zf).status.st) =
      (x % 2 ^ s.M, st) := by
  obtain ⟨⟨hval, -⟩, hdone, -⟩ := setV_complete_mod s d x known cls st zf
  rw [hval, hdone.stIs]

theorem result_setV_complete {s : State} {x : Nat} (hx : x < 2 ^ s.M) (d : VReg) (known : Bool) (cls : CommandClass)
    (st zf : Bool) :
    (((s.setV d x known).complete cls st zf).V d, ((s.setV d x known).complete cls st zf).status.st) = (x, st) := by
  rw [result_setV_complete_mod, Nat.mod_eq_of_lt hx]

/-- Settles O51: each word operation is exact, so by induction over the words a ripple is; an exact result determines the
value and the bit that the command writes. -/
theorem rippleAddAndSubtractAreExact : Obligations.RippleAddAndSubtractAreExact := by
  refine ⟨fun s d b ci hs => ?_, fun s d a b hs hb => ?_,
    fun W N x y hx hy => ⟨fun c => ?_, fun delta i hdelta hi => ?_⟩⟩
  · have hd := hs.V_lt d
    have hv := hs.V_lt b
    refine ⟨⟨_, exec_vadd s d b ci, ?_⟩, _, exec_vsub s d b ci, ?_⟩
    · rw [result_setV_complete_mod, rippleAdd_exact (s.M_eq ▸ hd) (s.M_eq ▸ hv), s.M_eq]
    · rw [result_setV_complete (wrap_lt ..), rippleSub_exact (s.M_eq ▸ hd) (s.M_eq ▸ hv), s.M_eq]
  · have hd := hs.V_lt d
    refine ⟨⟨_, exec_vaddo_of_lt hb d a, ?_⟩, _, exec_vsubo_of_lt hb d a, ?_⟩
    · rw [result_setV_complete_mod, rippleAddAt_exact (s.M_eq ▸ hd) (hs.S_lt a) hb, s.M_eq]
    · rw [result_setV_complete (wrap_lt ..), rippleSubAt_exact (s.M_eq ▸ hd) (hs.S_lt a) hb, s.M_eq]
  · exact ⟨rippleAdd_exact hx hy c, rippleSub_exact hx hy c⟩
  · exact ⟨rippleAddAt_exact hx hdelta hi, borrowOut_sub (x : Int) _ ▸ rippleSubAt_exact hx hdelta hi⟩

end Sys2Proof.Machine
end

section
/-! SUPPORT. The shifts with a constant fill (43_shift_scan_logic.md section 1). The closed forms are read bit by bit; from that
a shift by `a` and then by `b` is the shift by `a + b`, so every repetition of one step, by a bit or by a word, is the closed
form of the whole count. -/

namespace Sys2Proof.Machine

/-! ### The three ranges of the count (R111, R112) -/

theorem shiftLeftC_zero (M v : Nat) (c : Bool) : shiftLeftC M v 0 c = (v, false) := rfl

theorem shiftLeftC_of_le {M k : Nat} (hk : 0 < k) (hkM : k ≤ M) (v : Nat) (c : Bool) :
    shiftLeftC M v k c = ((v <<< k) % 2 ^ M ||| c.toNat * (2 ^ k - 1), v.testBit (M - k)) := by
  rw [shiftLeftC, if_neg hk.ne', if_pos hkM]

theorem shiftLeftC_of_lt {M k : Nat} (hk : M < k) (v : Nat) (c : Bool) :
    shiftLeftC M v k c = (c.toNat * (2 ^ M - 1), c) := by
  rw [shiftLeftC, if_neg (Nat.ne_zero_of_lt hk), if_neg (Nat.not_le.2 hk)]

theorem shiftRightC_zero (M v : Nat) (c : Bool) : shiftRightC M v 0 c = (v, false) := rfl

theorem shiftRightC_of_le {M k : Nat} (hk : 0 < k) (hkM : k ≤ M) (v : Nat) (c : Bool) :
    shiftRightC M v k c = ((v >>> k) ||| c.toNat * (2 ^ k - 1) * 2 ^ (M - k), v.testBit (k - 1)) := by
  rw [shiftRightC, if_neg hk.ne', if_pos hkM]

theorem shiftRightC_of_lt {M k : Nat} (hk : M < k) (v : Nat) (c : Bool) :
    shiftRightC M v k c = (c.toNat * (2 ^ M - 1), c) := by
  rw [shiftRightC, if_neg (Nat.ne_zero_of_lt hk), if_neg (Nat.not_le.2 hk)]

/-! ### The result bit by bit -/

/-- `k` bits of fill: each is the carry-in. -/
theorem testBit_fill (c : Bool) (k j : Nat) : (c.toNat * (2 ^ k - 1)).testBit j = (c && decide (j < k)) := by
  cases c <;> simp

section
variable {M v : Nat} (hv : v < 2 ^ M)
include hv

/-- Bit `j` of a left shift is the bit `k` places below it, or the fill where there is none. -/
theorem testBit_shiftLeftC (k : Nat) (c : Bool) (j : Nat) :
    (shiftLeftC M v k c).1.testBit j = (decide (j < M) && if j < k then c else v.testBit (j - k)) := by
  obtain rfl | hk := k.eq_zero_or_pos
  · rw [shiftLeftC_zero, if_neg (Nat.not_lt_zero j), Nat.sub_zero, ← Nat.testBit_mod_two_pow, Nat.mod_eq_of_lt hv]
  obtain hkM | hkM := Nat.lt_or_ge M k
  · rw [shiftLeftC_of_lt hkM, testBit_fill]
    by_cases hj : j < M
    · simp [hj, hj.trans hkM]
    · simp [hj]
  · rw [shiftLeftC_of_le hk hkM, Nat.testBit_or, Nat.testBit_mod_two_pow, Nat.testBit_shiftLeft, testBit_fill]
    by_cases hj : j < k
    · simp [hj, hj.trans_le hkM]
    · simp [hj, Nat.not_lt.1 hj]

/-- Bit `j` of a right shift is the bit `k` places above it, or the fill where there is none. -/
theorem testBit_shiftRightC (k : Nat) (c : Bool) (j : Nat) :
    (shiftRightC M v k c).1.testBit j = (decide (j < M) && if k + j < M then v.testBit (k + j) else c) := by
  have above {i : Nat} (hi : M ≤ i) : v.testBit i = false :=
    Nat.testBit_lt_two_pow (hv.trans_le (Nat.pow_le_pow_right Nat.two_pos hi))
  obtain rfl | hk := k.eq_zero_or_pos
  · by_cases hj : j < M
    · simp [shiftRightC_zero, hj]
    · simp [shiftRightC_zero, hj, above (Nat.not_lt.1 hj)]
  obtain hkM | hkM := Nat.lt_or_ge M k
  · rw [shiftRightC_of_lt hkM, testBit_fill, if_neg (by omega), Bool.and_comm]
  · rw [shiftRightC_of_le hk hkM, Nat.testBit_or, Nat.testBit_shiftRight, Nat.testBit_mul_two_pow, testBit_fill]
    by_cases hj : k + j < M
    · simp [hj, show j < M by omega, show ¬ M ≤ j + k by omega]
    · simp [hj, above (Nat.not_lt.1 hj), show M ≤ j + k by omega, show j - (M - k) < k ↔ j < M by omega, Bool.and_comm]

theorem shiftLeftC_lt (k : Nat) (c : Bool) : (shiftLeftC M v k c).1 < 2 ^ M :=
  Nat.lt_pow_two_of_testBit _ fun j hj => by rw [testBit_shiftLeftC hv, decide_eq_false hj.not_gt, Bool.false_and]

theorem shiftRightC_lt (k : Nat) (c : Bool) : (shiftRightC M v k c).1 < 2 ^ M :=
  Nat.lt_pow_two_of_testBit _ fun j hj => by rw [testBit_shiftRightC hv, decide_eq_false hj.not_gt, Bool.false_and]

/-! ### One shift after another -/

/-- A left shift after a left shift is one left shift: a bit of the second result that is no fill is a bit of the first
result `b` places below it, and so is the last bit shifted out. -/
theorem shiftLeftC_shiftLeftC (a : Nat) {b : Nat} (hb : 0 < b) (c : Bool) :
    shiftLeftC M (shiftLeftC M v a c).1 b c = shiftLeftC M v (a + b) c := by
  refine Prod.ext (Nat.eq_of_testBit_eq fun j => ?_) ?_
  · rw [testBit_shiftLeftC (shiftLeftC_lt hv a c), testBit_shiftLeftC hv, testBit_shiftLeftC hv]
    by_cases hj : j < b
    · simp [hj, Nat.lt_add_left a hj]
    · have hM : (j < M ∧ j - b < M) ↔ j < M := by omega
      have hfill : j - b < a ↔ j < a + b := by omega
      simp only [hj, if_false, ← Bool.and_assoc, ← Bool.decide_and, hM, hfill, Nat.sub_sub, Nat.add_comm b]
  · obtain hbM | hbM := Nat.lt_or_ge M b
    · rw [shiftLeftC_of_lt hbM, shiftLeftC_of_lt (Nat.lt_add_left a hbM)]
    rw [shiftLeftC_of_le hb hbM, testBit_shiftLeftC hv, decide_eq_true (by omega), Bool.true_and]
    obtain habM | habM := Nat.lt_or_ge M (a + b)
    · rw [shiftLeftC_of_lt habM, if_pos (by omega)]
    · rw [shiftLeftC_of_le (by omega) habM, if_neg (by omega), Nat.sub_sub, Nat.add_comm b]

/-- A right shift after a right shift is one right shift, by the same reading `b` places above. -/
theorem shiftRightC_shiftRightC (a : Nat) {b : Nat} (hb : 0 < b) (c : Bool) :
    shiftRightC M (shiftRightC M v a c).1 b c = shiftRightC M v (a + b) c := by
  refine Prod.ext (Nat.eq_of_testBit_eq fun j => ?_) ?_
  · rw [testBit_shiftRightC (shiftRightC_lt hv a c), testBit_shiftRightC hv, testBit_shiftRightC hv, Nat.add_assoc]
    by_cases hj : b + j < M
    · rw [if_pos hj, decide_eq_true hj, Bool.true_and]
    · rw [if_neg hj, if_neg (by omega)]
  · obtain hbM | hbM := Nat.lt_or_ge M b
    · rw [shiftRightC_of_lt hbM, shiftRightC_of_lt (Nat.lt_add_left a hbM)]
    rw [shiftRightC_of_le hb hbM, testBit_shiftRightC hv, decide_eq_true (by omega), Bool.true_and,
      ← Nat.add_sub_assoc hb]
    obtain habM | habM := Nat.lt_or_ge M (a + b)
    · rw [shiftRightC_of_lt habM, if_neg (by omega)]
    · rw [shiftRightC_of_le (by omega) habM, if_pos (by omega)]

/-- A right shift undoes the left shift by the same count, but for the bits shifted out (R114). -/
theorem shiftRightC_shiftLeftC_false (k : Nat) :
    (shiftRightC M (shiftLeftC M v k false).1 k false).1 = v % 2 ^ (M - k) := by
  refine Nat.eq_of_testBit_eq fun j => ?_
  rw [testBit_shiftRightC (shiftLeftC_lt hv k false), testBit_shiftLeftC hv, Nat.testBit_mod_two_pow]
  by_cases hj : k + j < M
  · simp [hj, show j < M by omega, show j < M - k by omega]
  · simp [hj, show ¬ j < M - k by omega]

end

/-! ### Repeated steps (R110, R113) -/

/-- One bit to the left is the left shift by 1. -/
theorem shiftLeftBit_eq {M : Nat} (hM : 0 < M) (c : Bool) (x : Nat × Bool) : shiftLeftBit M c x = shiftLeftC M x.1 1 c := by
  rw [shiftLeftC_of_le Nat.one_pos hM, shiftLeftBit, Nat.pow_one, Nat.mul_one]

/-- One bit to the right is the right shift by 1. -/
theorem shiftRightBit_eq {M : Nat} (hM : 0 < M) (c : Bool) (x : Nat × Bool) :
    shiftRightBit M c x = shiftRightC M x.1 1 c := by
  rw [shiftRightC_of_le Nat.one_pos hM, shiftRightBit, Nat.pow_one, Nat.mul_one, Nat.shiftLeft_eq]

/-- One word to the left is the left shift by `W`. -/
theorem shiftLeftWord_eq {W M : Nat} (hW : 0 < W) (hWM : W ≤ M) (c : Bool) (x : Nat × Bool) :
    shiftLeftWord W M c x = shiftLeftC M x.1 W c :=
  (shiftLeftC_of_le hW hWM x.1 c).symm

/-- One word to the right is the right shift by `W`. -/
theorem shiftRightWord_eq {W M : Nat} (hW : 0 < W) (hWM : W ≤ M) (c : Bool) (x : Nat × Bool) :
    shiftRightWord W M c x = shiftRightC M x.1 W c :=
  (shiftRightC_of_le hW hWM x.1 c).symm

/-- If a step is a shift by `n`, and a shift by `n` after one by `a` is the shift by `a + n`, then `q` steps after the shift
by `a` are the shift by `a + n * q`. -/
theorem iterate_step_eq_shift {shift : Nat → Nat → Nat × Bool} {step : Nat × Bool → Nat × Bool} {v n : Nat}
    (hstep : ∀ x, step x = shift x.1 n) (hadd : ∀ a, shift (shift v a).1 n = shift v (a + n)) (a q : Nat) :
    step^[q] (shift v a) = shift v (a + n * q) := by
  induction q with
  | zero => rfl
  | succ q ih => rw [Function.iterate_succ_apply', ih, hstep, hadd, Nat.mul_succ, Nat.add_assoc]

section
variable {M v : Nat} (hv : v < 2 ^ M)
include hv

theorem iterate_shiftLeftBit (hM : 0 < M) (c : Bool) (a k : Nat) :
    (shiftLeftBit M c)^[k] (shiftLeftC M v a c) = shiftLeftC M v (a + k) c := by
  simpa only [Nat.one_mul] using iterate_step_eq_shift (shift := (shiftLeftC M · · c)) (shiftLeftBit_eq hM c)
    (fun a => shiftLeftC_shiftLeftC hv a Nat.one_pos c) a k

theorem iterate_shiftRightBit (hM : 0 < M) (c : Bool) (a k : Nat) :
    (shiftRightBit M c)^[k] (shiftRightC M v a c) = shiftRightC M v (a + k) c := by
  simpa only [Nat.one_mul] using iterate_step_eq_shift (shift := (shiftRightC M · · c)) (shiftRightBit_eq hM c)
    (fun a => shiftRightC_shiftRightC hv a Nat.one_pos c) a k

theorem shiftLeftNaive_eq (hM : 0 < M) (k : Nat) (c : Bool) : shiftLeftNaive M v k c = shiftLeftC M v k c :=
  (iterate_shiftLeftBit hv hM c 0 k).trans (by rw [Nat.zero_add])

theorem shiftRightNaive_eq (hM : 0 < M) (k : Nat) (c : Bool) : shiftRightNaive M v k c = shiftRightC M v k c :=
  (iterate_shiftRightBit hv hM c 0 k).trans (by rw [Nat.zero_add])

theorem shiftLeftByWords_eq {W : Nat} (hW : 0 < W) (hWM : W ≤ M) (k : Nat) (c : Bool) :
    shiftLeftByWords W M v k c = shiftLeftC M v k c := by
  have hwords := iterate_step_eq_shift (shift := (shiftLeftC M · · c)) (shiftLeftWord_eq hW hWM c)
    (fun a => shiftLeftC_shiftLeftC hv a hW c) 0 (k / W)
  rw [Nat.zero_add, shiftLeftC_zero] at hwords
  rw [shiftLeftByWords, hwords, iterate_shiftLeftBit hv (hW.trans_le hWM), Nat.div_add_mod]

theorem shiftRightByWords_eq {W : Nat} (hW : 0 < W) (hWM : W ≤ M) (k : Nat) (c : Bool) :
    shiftRightByWords W M v k c = shiftRightC M v k c := by
  have hwords := iterate_step_eq_shift (shift := (shiftRightC M · · c)) (shiftRightWord_eq hW hWM c)
    (fun a => shiftRightC_shiftRightC hv a hW c) 0 (k / W)
  rw [Nat.zero_add, shiftRightC_zero] at hwords
  rw [shiftRightByWords, hwords, iterate_shiftRightBit hv (hW.trans_le hWM), Nat.div_add_mod]

end

/-! ### The statements -/

/-- Settles O41: a one-bit step is the shift by 1, and shifts add up. -/
theorem shiftClosedFormsAreTheNaiveRepetition : Obligations.ShiftClosedFormsAreTheNaiveRepetition :=
  fun _ _ k c hM hv => ⟨(shiftLeftNaive_eq hv hM k c).symm, (shiftRightNaive_eq hv hM k c).symm⟩

/-- Settles O42: a whole-word move is the shift by `W`, and `W * (k / W) + k % W` is `k`. -/
theorem shiftByWordMovesAgrees : Obligations.ShiftByWordMovesAgrees := by
  intro W N v k c hW hN hv
  have hWM : W ≤ N * W := Nat.le_mul_of_pos_left W hN
  have hM : 0 < N * W := Nat.mul_pos hN hW
  rw [shiftLeftByWords_eq hv hW hWM, shiftRightByWords_eq hv hW hWM, shiftLeftNaive_eq hv hM, shiftRightNaive_eq hv hM]
  exact ⟨rfl, rfl⟩

/-! ### VSHL and VSHR -/

theorem exec_vshl (s : State) (d : VReg) (b : SReg) (ci : CarryIn) :
    exec (.vshl d b ci) s =
      .next ((s.setV d (shiftLeftC s.M (s.V d) (s.S b) (s.carryIn ci)).1 (operandsSet (.vshl d b ci) s)).complete .plain
        (shiftLeftC s.M (s.V d) (s.S b) (s.carryIn ci)).2 false) :=
  rfl

theorem exec_vshr (s : State) (d : VReg) (b : SReg) (ci : CarryIn) :
    exec (.vshr d b ci) s =
      .next ((s.setV d (shiftRightC s.M (s.V d) (s.S b) (s.carryIn ci)).1 (operandsSet (.vshr d b ci) s)).complete .plain
        (shiftRightC s.M (s.V d) (s.S b) (s.carryIn ci)).2 false) :=
  rfl

/-- VSHL leaves the value of the left shift in its register and the last bit shifted out in ST. -/
theorem vshl_writes_shiftLeftC {s : State} (hs : s.wf) (d : VReg) (b : SReg) (ci : CarryIn) :
    ∃ t, exec (.vshl d b ci) s = .next t ∧
      SetsV t d (shiftLeftC s.M (s.V d) (s.S b) (s.carryIn ci)).1 (operandsSet (.vshl d b ci) s) ∧
      Completed s t .plain (shiftLeftC s.M (s.V d) (s.S b) (s.carryIn ci)).2 false ∧ Frame s t [d] [] :=
  ⟨_, exec_vshl s d b ci, setV_complete (shiftLeftC_lt (hs.V_lt d) _ _) ..⟩

/-- VSHR leaves the value of the right shift in its register and the last bit shifted out in ST. -/
theorem vshr_writes_shiftRightC {s : State} (hs : s.wf) (d : VReg) (b : SReg) (ci : CarryIn) :
    ∃ t, exec (.vshr d b ci) s = .next t ∧
      SetsV t d (shiftRightC s.M (s.V d) (s.S b) (s.carryIn ci)).1 (operandsSet (.vshr d b ci) s) ∧
      Completed s t .plain (shiftRightC s.M (s.V d) (s.S b) (s.carryIn ci)).2 false ∧ Frame s t [d] [] :=
  ⟨_, exec_vshr s d b ci, setV_complete (shiftRightC_lt (hs.V_lt d) _ _) ..⟩

/-- Settles O39: the command leaves the left shift, whose closed form is given in each range of the count. -/
theorem vshlShiftsWithFill : Obligations.VshlShiftsWithFill := by
  intro s d b ci hs
  obtain ⟨t, ht, hsets, hdone, hframe⟩ := vshl_writes_shiftLeftC hs d b ci
  refine ⟨decode_assemble_encodeFields (.vshl d b ci) rfl, t, ht, hframe, fun hk => ?_, fun hk hkM => ?_, fun hkM => ?_⟩
  · rw [hk, shiftLeftC_zero] at hsets hdone
    exact ⟨hsets, hdone⟩
  · rw [shiftLeftC_of_le hk hkM] at hsets hdone
    exact ⟨hsets, hdone⟩
  · rw [shiftLeftC_of_lt hkM] at hsets hdone
    exact ⟨hsets, hdone⟩

/-- Settles O40: the command leaves the right shift, whose closed form is given in each range of the count. -/
theorem vshrShiftsWithFill : Obligations.VshrShiftsWithFill := by
  intro s d b ci hs
  obtain ⟨t, ht, hsets, hdone, hframe⟩ := vshr_writes_shiftRightC hs d b ci
  refine ⟨decode_assemble_encodeFields (.vshr d b ci) rfl, t, ht, hframe, fun hk => ?_, fun hk hkM => ?_, fun hkM => ?_⟩
  · rw [hk, shiftRightC_zero] at hsets hdone
    exact ⟨hsets, hdone⟩
  · rw [shiftRightC_of_le hk hkM] at hsets hdone
    exact ⟨hsets, hdone⟩
  · rw [shiftRightC_of_lt hkM] at hsets hdone
    exact ⟨hsets, hdone⟩

/-- Settles O43: the first command leaves the count in its S register, so the second shifts back by the same count. -/
theorem shiftRoundTripKeepsTheLowBits : Obligations.ShiftRoundTripKeepsTheLowBits := by
  intro s d b hs _
  refine ⟨_, _, exec_vshl s d b .zero, exec_vshr _ d b .zero, ?_⟩
  have hlt := shiftLeftC_lt (hs.V_lt d) (s.S b) false
  have hround := shiftRightC_shiftLeftC_false (hs.V_lt d) (s.S b)
  have hmod : s.V d % 2 ^ (s.M - s.S b) < 2 ^ s.M := (Nat.mod_le _ _).trans_lt (hs.V_lt d)
  simp [Nat.mod_eq_of_lt hlt, hround, Nat.mod_eq_of_lt hmod]

end Sys2Proof.Machine
end

section
/-! SUPPORT. The bit scans, the single-bit commands, the normalisation and the logic (43_shift_scan_logic.md sections 2 to
5): each writes a value that fits its register and completes, so what is left is what the value is, bit by bit. -/

namespace Sys2Proof.Machine

/-! ### Bit positions fit a word -/

/-- The number of bits of a V register, and with it every bit position and shift amount, fits an S register. -/
theorem State.wf.M_lt_two_pow_W {s : State} (hs : s.wf) : s.M < 2 ^ s.W := by
  have hN : s.N ≤ 65535 := hs.1.2
  have hW : s.W = 32 ∨ s.W = 64 := by
    rw [State.W, Params.W]
    cases s.params.width
    · exact .inl rfl
    · exact .inr rfl
  rw [s.M_eq]
  obtain hW | hW := hW
  · rw [hW]
    omega
  · rw [hW]
    omega

/-! ### Leading and lowest bit (00_scope.md R14) -/

theorem isLeadingBit_leadingBit {v : Nat} (h : v ≠ 0) : IsLeadingBit v (leadingBit v) :=
  ⟨testBit_leadingBit h, fun _ hk => testBit_above_leadingBit hk⟩

theorem isLowestBit_lowestBit {M v : Nat} (h : v ≠ 0) (hv : v < 2 ^ M) : IsLowestBit v (lowestBit M v) :=
  have ⟨hset, _, hbelow⟩ := lowestBit_spec h hv
  ⟨hset, hbelow⟩

/-- A value moved up by `n` places has its leading bit `n` places higher. -/
theorem IsLeadingBit.mul_two_pow {v j : Nat} (h : IsLeadingBit v j) (n : Nat) : IsLeadingBit (v * 2 ^ n) (j + n) := by
  obtain ⟨hset, habove⟩ := h
  refine ⟨?_, fun k hk => ?_⟩
  · rw [Nat.testBit_mul_two_pow, Nat.add_sub_cancel, hset, decide_eq_true (Nat.le_add_left n j), Bool.true_and]
  · rw [Nat.testBit_mul_two_pow, habove (k - n) (by omega), Bool.and_false]

/-- A value is below twice its leading bit's weight. -/
theorem IsLeadingBit.lt {v j : Nat} (h : IsLeadingBit v j) : v < 2 ^ (j + 1) :=
  Nat.lt_pow_two_of_testBit v fun k hk => h.2 k hk

/-- Complementing the bits at or below the leading bit clears it and leaves nothing above. -/
theorem IsLeadingBit.xor_mask_lt {v j : Nat} (h : IsLeadingBit v j) : v ^^^ (2 ^ (j + 1) - 1) < 2 ^ j := by
  obtain ⟨hset, habove⟩ := h
  refine Nat.lt_pow_two_of_testBit _ fun k hk => ?_
  rw [Nat.testBit_xor, Nat.testBit_two_pow_sub_one]
  obtain rfl | hjk := hk.eq_or_lt
  · simp [hset]
  · simp [habove k hjk, hjk]

/-! ### VFLB and VFTB (R115, R116) -/

theorem exec_vflb_same (s : State) (c : SReg) (a : VReg) :
    exec (.vflb c c a) s = .next (s.takeFault .illegalCommand) :=
  if_pos rfl

theorem exec_vftb_same (s : State) (c : SReg) (a : VReg) :
    exec (.vftb c c a) s = .next (s.takeFault .illegalCommand) :=
  if_pos rfl

section
variable {s : State} {d c : SReg} (hdc : d ≠ c) {a : VReg}
include hdc

theorem exec_vflb_of_zero (ha : s.V a = 0) : exec (.vflb d c a) s = .next (s.complete .plain false true) := by
  rw [exec, execVflb, if_neg hdc, if_pos ha]

theorem exec_vftb_of_zero (ha : s.V a = 0) : exec (.vftb d c a) s = .next (s.complete .plain false true) := by
  rw [exec, execVftb, if_neg hdc, if_pos ha]

theorem exec_vflb_of_ne_zero (ha : s.V a ≠ 0) :
    exec (.vflb d c a) s = .next (s.finishScan d c (leadingBit (s.V a)) (operandsSet (.vflb d c a) s)) := by
  rw [exec, execVflb, if_neg hdc, if_neg ha]
  rfl

theorem exec_vftb_of_ne_zero (ha : s.V a ≠ 0) :
    exec (.vftb d c a) s = .next (s.finishScan d c (lowestBit s.M (s.V a)) (operandsSet (.vftb d c a) s)) := by
  rw [exec, execVftb, if_neg hdc, if_neg ha]
  rfl

/-- A scan that found bit `j` leaves its word index and its bit index. -/
theorem finishScan_writes (hs : s.wf) {j : Nat} (hj : j < s.M) (known : Bool) :
    SetsS (s.finishScan d c j known) d (j / s.W) known ∧ SetsS (s.finishScan d c j known) c (j % s.W) known ∧
      Completed s (s.finishScan d c j known) .plain false false ∧ Frame s (s.finishScan d c j known) [] [d, c] := by
  have hfits : j < 2 ^ s.W := hj.trans hs.M_lt_two_pow_W
  exact setS_setS_complete_plain ((Nat.div_le_self j s.W).trans_lt hfits) ((Nat.mod_le j s.W).trans_lt hfits) hdc known

end

/-- A scan of zero, and a bit read, write no register. -/
theorem complete_writes_nothing (s : State) (cls : CommandClass) (st zf : Bool) :
    Completed s (s.complete cls st zf) cls st zf ∧ Frame s (s.complete cls st zf) [] [] :=
  ⟨completed_complete rfl cls st zf, frame_complete s cls st zf⟩

/-- Settles O44: the commands' three cases; the bit a scan finds is below `M`, so both of its indices fit a word. -/
theorem scansFindLeadingAndLowestBit : Obligations.ScansFindLeadingAndLowestBit := by
  intro s d c a hs
  refine ⟨fun hdc => ⟨decode_assemble_encodeFields (.vflb d c a) (if_neg hdc),
    decode_assemble_encodeFields (.vftb d c a) (if_neg hdc), fun ha => ⟨?_, ?_⟩, fun ha => ⟨?_, ?_⟩⟩, ?_⟩
  · exact ⟨_, _, exec_vflb_of_ne_zero hdc ha, isLeadingBit_leadingBit ha,
      finishScan_writes hdc hs (leadingBit_lt ha (hs.V_lt a)) _⟩
  · have ⟨_, hlt, _⟩ := lowestBit_spec ha (hs.V_lt a)
    exact ⟨_, _, exec_vftb_of_ne_zero hdc ha, isLowestBit_lowestBit ha (hs.V_lt a), finishScan_writes hdc hs hlt _⟩
  · exact ⟨_, exec_vflb_of_zero hdc ha, complete_writes_nothing s .plain false true⟩
  · exact ⟨_, exec_vftb_of_zero hdc ha, complete_writes_nothing s .plain false true⟩
  · rintro rfl
    exact ⟨⟨_, exec_vflb_same s d a, faulted_takeFault s _⟩, _, exec_vftb_same s d a, faulted_takeFault s _⟩

/-! ### VNORM (R119) -/

theorem exec_vnorm_of_zero {s : State} {d : VReg} (hd : s.V d = 0) (c : SReg) :
    exec (.vnorm d c) s = .next ((s.setS c 0 (operandsSet (.vnorm d c) s)).complete .plain false true) := by
  rw [exec, execVnorm, if_pos hd]
  rfl

theorem exec_vnorm_of_ne_zero {s : State} {d : VReg} (hd : s.V d ≠ 0) (c : SReg) :
    exec (.vnorm d c) s =
      .next (((s.setV d (s.V d * 2 ^ (s.M - 1 - leadingBit (s.V d))) (operandsSet (.vnorm d c) s)).setS c
        (s.M - 1 - leadingBit (s.V d)) (operandsSet (.vnorm d c) s)).complete .plain false false) := by
  rw [exec, execVnorm, if_neg hd, ← Nat.shiftLeft_eq]
  rfl

/-- A command that writes a value in range to a V register and a word to an S register and completes with ST = 0 and
ZF = 0. -/
theorem setV_setS_complete_plain {s : State} {x y : Nat} (hx : x < 2 ^ s.M) (hy : y < 2 ^ s.W) (d : VReg) (c : SReg)
    (known : Bool) :
    SetsV (((s.setV d x known).setS c y known).complete .plain false false) d x known ∧
      SetsS (((s.setV d x known).setS c y known).complete .plain false false) c y known ∧
      Completed s (((s.setV d x known).setS c y known).complete .plain false false) .plain false false ∧
      Frame s (((s.setV d x known).setS c y known).complete .plain false false) [d] [c] :=
  ⟨setsV_complete ((setsV_setV_of_lt hx d known).setS c y known) .plain false false,
    setsS_complete (setsS_setS_of_lt (s := s.setV d x known) hy c known) .plain false false,
    completed_complete (s := s) (u := (s.setV d x known).setS c y known) rfl .plain false false,
    frame_setV_setS_complete s d c x y known .plain false false⟩

/-- Settles O46: the leading bit moves up to bit `M - 1`, which the register holds; the amount is below `M`. -/
theorem vnormMovesTheLeadingBitToTheTop : Obligations.VnormMovesTheLeadingBitToTheTop := by
  intro s d c hs
  refine ⟨decode_assemble_encodeFields (.vnorm d c) rfl, fun hd => ?_,
    fun hd => ⟨_, exec_vnorm_of_zero hd c, setS_complete (Nat.two_pow_pos s.W) c _ .plain false true⟩⟩
  have hj : leadingBit (s.V d) < s.M := leadingBit_lt hd (hs.V_lt d)
  have hlead := isLeadingBit_leadingBit hd
  have htop := hlead.mul_two_pow (s.M - 1 - leadingBit (s.V d))
  rw [Nat.add_sub_of_le (Nat.le_sub_one_of_lt hj)] at htop
  have hx := htop.lt
  rw [Nat.sub_add_cancel (Nat.zero_lt_of_lt hj)] at hx
  have hamount : s.M - 1 - leadingBit (s.V d) < 2 ^ s.W := Nat.lt_of_le_of_lt (by omega) hs.M_lt_two_pow_W
  obtain ⟨hsetV, hrest⟩ := setV_setS_complete_plain hx hamount d c (operandsSet (.vnorm d c) s)
  exact ⟨_, _, exec_vnorm_of_ne_zero hd c, hlead, hsetV, hsetV.1.symm ▸ htop, hrest⟩

/-! ### VGETB and VSETB (R117, R118) -/

theorem State.bitIndexBad_of_lt {s : State} {b : SReg} (hb : s.S b < s.M) : s.bitIndexBad b = false :=
  decide_eq_false (Nat.not_le.2 hb)

theorem State.bitIndexBad_of_le {s : State} {b : SReg} (hb : s.M ≤ s.S b) : s.bitIndexBad b = true :=
  decide_eq_true hb

theorem exec_vgetb_of_lt {s : State} {b : SReg} (hb : s.S b < s.M) (a : VReg) :
    exec (.vgetb a b) s = .next (s.complete .plain ((s.V a).testBit (s.S b)) false) := by
  rw [exec, execVgetb, State.bitIndexBad_of_lt hb]
  rfl

theorem exec_vgetb_of_le {s : State} {b : SReg} (hb : s.M ≤ s.S b) (a : VReg) :
    exec (.vgetb a b) s = .next (s.takeFault .improperArgument) := by
  rw [exec, execVgetb, if_pos (State.bitIndexBad_of_le hb)]

theorem exec_vsetb_of_lt {s : State} {b : SReg} (hb : s.S b < s.M) (d : VReg) :
    exec (.vsetb d b) s =
      .next ((s.setV d (s.V d ||| 2 ^ s.S b) (operandsSet (.vsetb d b) s)).complete .plain ((s.V d).testBit (s.S b))
        false) := by
  rw [exec, execVsetb, State.bitIndexBad_of_lt hb]
  rfl

theorem exec_vsetb_of_le {s : State} {b : SReg} (hb : s.M ≤ s.S b) (d : VReg) :
    exec (.vsetb d b) s = .next (s.takeFault .improperArgument) := by
  rw [exec, execVsetb, if_pos (State.bitIndexBad_of_le hb)]

/-- Settles O45: below `M` the bit set is a bit of the register, so the value with it stays in range; from `M` on each command
is a fault. -/
theorem vgetbAndVsetbGiveTheBit : Obligations.VgetbAndVsetbGiveTheBit := by
  intro s d b hs
  refine ⟨decode_assemble_encodeFields (.vgetb d b) rfl, decode_assemble_encodeFields (.vsetb d b) rfl,
    fun hb => ⟨⟨_, exec_vgetb_of_lt hb d, complete_writes_nothing s .plain _ false⟩, ?_⟩,
    fun hb => ⟨⟨_, exec_vgetb_of_le hb d, faulted_takeFault s _⟩, _, exec_vsetb_of_le hb d, faulted_takeFault s _⟩⟩
  have hx : s.V d ||| 2 ^ s.S b < 2 ^ s.M := Nat.or_lt_two_pow (hs.V_lt d) (Nat.pow_lt_pow_right Nat.one_lt_two hb)
  exact ⟨_, exec_vsetb_of_lt hb d, setV_complete hx d _ .plain _ false⟩

/-! ### The logic (R120 to R124) -/

/-- Settles O47: no bit of a result stands at `M` or above, so the register takes it unchanged; the bits are those of the
library's bitwise operations, and `2 ^ M - 1 - v` is the complement over `M` bits. -/
theorem logicActsBitByBit : Obligations.LogicActsBitByBit := by
  intro s d b hs
  have hd := hs.V_lt d
  have hb := hs.V_lt b
  have hnot : 2 ^ s.M - 1 - s.V d < 2 ^ s.M := by omega
  refine ⟨⟨decode_assemble_encodeFields (.vand d b) rfl, ?_⟩, ⟨decode_assemble_encodeFields (.vor d b) rfl, ?_⟩,
    ⟨decode_assemble_encodeFields (.vxor d b) rfl, ?_⟩, decode_assemble_encodeFields (.vnot d) rfl, ?_⟩
  · obtain ⟨hsets, hdone⟩ := setV_complete_plain (Nat.and_lt_two_pow (s.V d) hb) d (operandsSet (.vand d b) s)
    exact ⟨_, _, rfl, hsets, Nat.testBit_and _ _, hdone⟩
  · obtain ⟨hsets, hdone⟩ := setV_complete_plain (Nat.or_lt_two_pow hd hb) d (operandsSet (.vor d b) s)
    exact ⟨_, _, rfl, hsets, Nat.testBit_or _ _, hdone⟩
  · obtain ⟨hsets, hdone⟩ := setV_complete_plain (Nat.xor_lt_two_pow hd hb) d (operandsSet (.vxor d b) s)
    exact ⟨_, _, rfl, hsets, Nat.testBit_xor _ _, hdone⟩
  · obtain ⟨hsets, hdone⟩ := setV_complete_plain hnot d (operandsSet (.vnot d) s)
    refine ⟨_, _, rfl, hsets, rfl, fun j => ?_, hdone⟩
    rw [Nat.sub_sub, Nat.add_comm, Nat.testBit_two_pow_sub_succ hd]

theorem exec_vnotm_of_zero {s : State} {d : VReg} (hd : s.V d = 0) :
    exec (.vnotm d) s = .next ((s.setV d 0 (operandsSet (.vnotm d) s)).complete .plain false false) := by
  rw [exec, execVnotm, minimalComplement, if_pos hd]
  rfl

theorem exec_vnotm_of_ne_zero {s : State} {d : VReg} (hd : s.V d ≠ 0) :
    exec (.vnotm d) s =
      .next ((s.setV d (s.V d ^^^ (2 ^ (leadingBit (s.V d) + 1) - 1)) (operandsSet (.vnotm d) s)).complete .plain false
        false) := by
  rw [exec, execVnotm, minimalComplement, if_neg hd]
  rfl

/-- Settles O48: the complement is below the leading bit's weight, which is at most the value, so it is in range. -/
theorem vnotmComplementsBelowTheLeadingBit : Obligations.VnotmComplementsBelowTheLeadingBit := by
  intro s d hs
  refine ⟨decode_assemble_encodeFields (.vnotm d) rfl, fun hd => ?_,
    fun hd => ⟨_, exec_vnotm_of_zero hd, setV_complete_plain (Nat.two_pow_pos s.M) d _⟩⟩
  have hlead := isLeadingBit_leadingBit hd
  have hbelow := hlead.xor_mask_lt
  have hx := hbelow.trans_le ((two_pow_leadingBit_le hd).trans (hs.V_lt d).le)
  obtain ⟨hsets, hdone⟩ := setV_complete_plain hx d (operandsSet (.vnotm d) s)
  exact ⟨_, _, exec_vnotm_of_ne_zero hd, hlead, hsets, hsets.1.symm ▸ hbelow, hdone⟩

end Sys2Proof.Machine
end

section
/-! SUPPORT. Multiplication (44_multiply.md): the product of two V registers always fits the pair of registers VMULD writes. -/

namespace Sys2Proof.Machine

/-! ### The pair of registers (R132) -/

/-- The two registers of a pair differ, the numbers of the V registers taken modulo 8. -/
theorem VReg.ne_add_one : ∀ d : VReg, d ≠ d + 1 := by decide

/-- A command that writes a value, which the register cuts to its width, to each of two V registers and completes. -/
theorem setV_setV_complete_mod (s : State) {d c : VReg} (hdc : d ≠ c) (x y : Nat) (known : Bool) (cls : CommandClass)
    (st zf : Bool) :
    SetsV (((s.setV d x known).setV c y known).complete cls st zf) d (x % 2 ^ s.M) known ∧
      SetsV (((s.setV d x known).setV c y known).complete cls st zf) c (y % 2 ^ s.M) known ∧
      Completed s (((s.setV d x known).setV c y known).complete cls st zf) cls st zf ∧
      Frame s (((s.setV d x known).setV c y known).complete cls st zf) [d, c] [] :=
  ⟨setsV_complete ((setsV_setV s d x known).setV_ne hdc y known) cls st zf,
    setsV_complete (setsV_setV (s.setV d x known) c y known) cls st zf,
    completed_complete (s := s) (u := (s.setV d x known).setV c y known) rfl cls st zf,
    frame_setV_setV_complete s d c x y known cls st zf⟩

/-! ### VMULD by case -/

theorem exec_vmuld_odd {d : VReg} (hd : d.val % 2 = 1) (s : State) (a b : VReg) (g : MulAlg) :
    exec (.vmuld d a b g) s = .next (s.takeFault .illegalCommand) :=
  if_pos hd

theorem exec_vmuld_even {d : VReg} (hd : d.val % 2 = 0) (s : State) (a b : VReg) (g : MulAlg) :
    exec (.vmuld d a b g) s =
      .next (((s.setV d (s.V a * s.V b) (operandsSet (.vmuld d a b g) s)).setV (d + 1) (s.V a * s.V b / 2 ^ s.M)
        (operandsSet (.vmuld d a b g) s)).complete .plain false false) :=
  if_neg (by omega)

theorem vmuld_wellFormed {d : VReg} (hd : d.val % 2 = 0) (a b : VReg) (g : MulAlg) : (Instr.vmuld d a b g).wellFormed :=
  if_neg (by omega)

/-- `ALG = 0b11` is refused for its select, before any operand constraint (30_encoding.md R67 (d)). -/
theorem decode_vmuld_reserved_alg (d a b : VReg) :
    decode (assemble 0x29 d a b 0 0 0 3) = .error .algorithmSelect :=
  decode_assemble 0x29 d a b 0 0 0 3

/-! ### The product fits (R131) -/

section
variable {s : State} (hs : s.wf) (a b : VReg)
include hs

theorem State.wf.mul_le : s.V a * s.V b ≤ (2 ^ s.M - 1) ^ 2 := by
  rw [Nat.pow_two]
  exact Nat.mul_le_mul (Nat.le_sub_one_of_lt (hs.V_lt a)) (Nat.le_sub_one_of_lt (hs.V_lt b))

theorem State.wf.mul_lt : s.V a * s.V b < 2 ^ (2 * s.M) := by
  rw [Nat.two_mul, Nat.pow_add]
  exact Nat.mul_lt_mul'' (hs.V_lt a) (hs.V_lt b)

/-- The high half of the product is in the range of a V register. -/
theorem State.wf.mul_div_lt : s.V a * s.V b / 2 ^ s.M < 2 ^ s.M :=
  mulWords_high_lt (hs.V_lt a) (hs.V_lt b)

end

/-- Settles O50: the register `d` cuts the product to its low half, the high half fits `d + 1`, and the halves of a number put
together are the number. -/
theorem vmuldWritesTheExactProductToThePair : Obligations.VmuldWritesTheExactProductToThePair := by
  intro s d a b g hs
  refine ⟨fun hd => ⟨decode_assemble_encodeFields (.vmuld d a b g) (vmuld_wellFormed hd a b g), _,
    exec_vmuld_even hd s a b g, ?_⟩, fun hd => ⟨_, exec_vmuld_odd hd s a b g, faulted_takeFault s _⟩, hs.mul_le a b,
    hs.mul_lt a b, _, decode_vmuld_reserved_alg d a b⟩
  obtain ⟨hlow, hhigh, hdone⟩ := setV_setV_complete_mod s (VReg.ne_add_one d) (s.V a * s.V b)
    (s.V a * s.V b / 2 ^ s.M) (operandsSet (.vmuld d a b g) s) .plain false false
  rw [Nat.mod_eq_of_lt (hs.mul_div_lt a b)] at hhigh
  refine ⟨hlow, hhigh, ?_, hdone⟩
  rw [hlow.1, hhigh.1, Nat.mod_add_div']

end Sys2Proof.Machine
end

section
/-! SUPPORT. Division (45_divide.md): the quotient and the remainder of two V registers are never above the dividend, so both
fit a register; that they are the only pair is the library's `Nat.div_mod_unique`. -/

namespace Sys2Proof.Machine

/-! ### VDIVW and VDIV by case -/

theorem exec_vdivw_of_zero {s : State} {b : SReg} (hb : s.S b = 0) (d : VReg) (c : SReg) :
    exec (.vdivw d b c) s = .next (s.takeFault .divByZero) :=
  if_pos hb

theorem exec_vdiv_same (s : State) (d b : VReg) (g : DivAlg) :
    exec (.vdiv d b d g) s = .next (s.takeFault .illegalCommand) :=
  if_pos rfl

section
variable {s : State} {d c : VReg} (hdc : d ≠ c) {b : VReg}
include hdc

theorem exec_vdiv_of_zero (hb : s.V b = 0) (g : DivAlg) :
    exec (.vdiv d b c g) s = .next (s.takeFault .divByZero) := by
  rw [exec, execVdiv, if_neg hdc, if_pos hb]

theorem exec_vdiv_of_ne_zero (hb : s.V b ≠ 0) (g : DivAlg) :
    exec (.vdiv d b c g) s =
      .next (((s.setV d (s.V d / s.V b) (operandsSet (.vdiv d b c g) s)).setV c (s.V d % s.V b)
        (operandsSet (.vdiv d b c g) s)).complete .plain false false) := by
  rw [exec, execVdiv, if_neg hdc, if_neg hb]
  rfl

end

/-- `ALG = 0b11` is refused for its select, whether or not the two destinations differ (30_encoding.md R67 (d)). -/
theorem decode_vdiv_reserved_alg (d b c : VReg) : decode (assemble 0x31 d 0 b c 0 0 3) = .error .algorithmSelect :=
  decode_assemble 0x31 d 0 b c 0 0 3

/-! ### The quotient and the remainder fit (R142) -/

section
variable {s : State} (hs : s.wf) (d b : VReg)
include hs

theorem State.wf.div_lt : s.V d / s.V b < 2 ^ s.M :=
  (Nat.div_le_self _ _).trans_lt (hs.V_lt d)

theorem State.wf.mod_lt : s.V d % s.V b < 2 ^ s.M :=
  (Nat.mod_le _ _).trans_lt (hs.V_lt d)

end

/-- Settles O56: the registers hold the quotient and the remainder uncut, and Euclidean division is unique; each other clause is
a branch of the command or of the decoder. -/
theorem vdivGivesQuotientAndRemainder : Obligations.VdivGivesQuotientAndRemainder := by
  intro s d b c g hs
  refine ⟨fun hdc => decode_assemble_encodeFields (.vdiv d b c g) (if_neg hdc),
    fun hdc hb => ⟨_, exec_vdiv_of_ne_zero hdc hb g, ?_⟩,
    fun hdc hb => ⟨_, exec_vdiv_of_zero hdc hb g, faulted_takeFault s _⟩, ?_,
    fun k q hk => ⟨_, exec_vdivw_of_zero hk d q, faulted_takeFault s _⟩, _, decode_vdiv_reserved_alg d b c⟩
  · have hpos : 0 < s.V b := Nat.pos_of_ne_zero hb
    obtain ⟨hquot, hrem, hdone⟩ := setV_setV_complete_mod s hdc (s.V d / s.V b) (s.V d % s.V b)
      (operandsSet (.vdiv d b c g) s) .plain false false
    rw [Nat.mod_eq_of_lt (hs.div_lt d b)] at hquot
    rw [Nat.mod_eq_of_lt (hs.mod_lt d b)] at hrem
    refine ⟨hquot, hrem, ?_, ?_, fun q r hqr hr => ?_, hdone⟩
    · rw [hquot.1, hrem.1, Nat.div_add_mod']
    · exact hrem.1.symm ▸ Nat.mod_lt _ hpos
    · have hsum : r + s.V b * q = s.V d := by rw [hqr, Nat.add_comm, Nat.mul_comm]
      obtain ⟨hq, hr'⟩ := (Nat.div_mod_unique hpos).2 ⟨hsum, hr⟩
      exact ⟨hq.symm.trans hquot.1.symm, hr'.symm.trans hrem.1.symm⟩
  · rintro rfl
    exact ⟨_, exec_vdiv_same s d b g, faulted_takeFault s _⟩

end Sys2Proof.Machine
end

section
/-! SUPPORT. Exceptions (60_exceptions.md): a fault's code in ERR shows that the command ended in a fault, not in a
completion or CLRST. -/

namespace Sys2Proof.Machine

/-- A command that leaves a fault's code in ERR ended in that fault: CLRST clears ERR, and a completion leaves no fault's
code. -/
theorem Ends.faulted {i : Instr} {s t : State} (h : Ends i s t) (hfault : t.status.err.isFault = true) :
    Faulted s t t.status.err := by
  cases h with
  | fault _ => exact faulted_takeFault s _
  | clear _ => exact absurd hfault (by decide : ¬ ErrCode.none.isFault = true)
  | done cls st zf _ _ => exact absurd hfault (Bool.eq_false_iff.mp (isFault_completionErr cls st))

/-- Settles O20: each command ends in one of three ways and only a fault leaves a fault's code; a word that does not decode
is a fault, and any other runs as the command it decodes to. -/
theorem faultWritesNoRegister : Obligations.FaultWritesNoRegister := by
  refine ⟨fun i s t hexec => (ends_of_exec hexec).faulted, fun x s t hrun hfault => ?_⟩
  obtain ⟨-, rfl⟩ | ⟨i, -, hexec⟩ := runCommand_cases hrun
  · exact faulted_takeFault s .illegalCommand
  · exact (ends_of_exec hexec).faulted hfault

end Sys2Proof.Machine
end

section
/-! SUPPORT. A host write while `BUSY = 1` (70_reset_and_hazards.md R174): it is discarded and sets OVR, which stays set until
CLRST completes or the host asserts reset. -/

namespace Sys2Proof.Machine

/-! ### The write is discarded -/

theorem State.busy_eq_true {s : State} {x : Nat} (h : s.inFlight = some x) : s.busy = true := by
  rw [busy, h]
  rfl

/-- While `BUSY = 1` a write to CMD or to an S register is discarded. -/
theorem State.hostWrite_discarded {s : State} (hb : s.busy = true) {a : Nat} (ha : a = 0 ∨ 8 ≤ a ∧ a < 16) (x : Nat) :
    s.hostWrite a x = s.discardWrite := by
  obtain rfl | ⟨h8, h16⟩ := ha
  · rw [hostWrite_cmd, if_pos hb]
  · obtain ⟨k, rfl, -⟩ := portReg_of_sreg_range h8 h16
    rw [hostWrite_sreg, if_pos hb]

/-! ### What keeps OVR set -/

/-- However a command other than CLRST ends, it leaves OVR as it was (10_state.md R25). -/
theorem Ends.ovr_kept {i : Instr} {s t : State} (h : Ends i s t) (hi : i ≠ .clrst) : t.status.ovr = s.status.ovr := by
  cases h with
  | fault _ => exact (faulted_takeFault ..).ovrKept
  | clear hclrst => exact absurd hclrst hi
  | done cls st zf hw _ =>
    obtain ⟨-, hstatus, -⟩ := hw.rest_kept
    exact (completed_complete hstatus cls st zf).ovrKept

/-- A command word that does not decode to CLRST leaves OVR as it was. -/
theorem runCommand_ovr {x : Nat} {s t : State} (h : runCommand x s = .next t)
    (hx : decodeCommand s.params.width x ≠ .ok .clrst) : t.status.ovr = s.status.ovr := by
  obtain ⟨-, rfl⟩ | ⟨i, hi, hexec⟩ := runCommand_cases h
  · exact (faulted_takeFault ..).ovrKept
  · refine (ends_of_exec hexec).ovr_kept ?_
    rintro rfl
    exact hx hi

/-- A write leaves STATUS as it was, or it is discarded and sets OVR. -/
theorem State.hostWrite_status (s : State) (a x : Nat) :
    (s.hostWrite a x).status = s.status ∨ (s.hostWrite a x).status = { s.status with ovr := true } := by
  unfold State.hostWrite
  cases portReg a with
  | cmd | sreg _ =>
    cases s.busy
    · exact .inl rfl
    · exact .inr rfl
  | status | config | reserved => exact .inl rfl

/-- No transaction but reset clears OVR. -/
theorem State.hostTurn_keeps_ovr {s : State} {op : PortOp} (hop : op ≠ .reset) (h : s.status.ovr = true) :
    (s.hostTurn op).status.ovr = true := by
  cases op with
  | read _ => exact h
  | write a x =>
    rw [hostTurn]
    obtain e | e := s.hostWrite_status a x
    · exact e ▸ h
    · rw [e]
  | reset => exact absurd rfl hop

/-- A step keeps OVR set unless the host asserts reset in it or CLRST completes in it. -/
theorem step_keeps_ovr {s t : State} (h : step s = .next t) (hovr : s.status.ovr = true) (hreset : ¬ ResetNext s)
    (hclrst : ¬ CompletesNext s .clrst) : t.status.ovr = true := by
  obtain ⟨-, -, rfl⟩ | ⟨x, hx, hengine, hrun⟩ | ⟨op, rest, hturns, rfl⟩ := step_cases h
  · exact hovr
  · exact (runCommand_ovr hrun fun hdecode => hclrst ⟨hengine, x, hx, hdecode⟩).trans hovr
  · refine State.hostTurn_keeps_ovr ?_ hovr
    rintro rfl
    exact hreset ⟨rest, hturns⟩

/-- Settles O10: the command in flight makes the block busy, so the write is discarded; and a step that clears OVR is one of
the two that `step_keeps_ovr` excepts. -/
theorem hostWriteWhileBusyIsDiscarded : Obligations.HostWriteWhileBusyIsDiscarded := by
  refine ⟨fun s a x y rest hturns hf ha => ?_, fun s t hstep hset hclear => ?_⟩
  · have hb : (s.withTurns rest).busy = true := State.busy_eq_true hf
    exact (step_host hturns).trans (congrArg _ (State.hostWrite_discarded hb ha x))
  · by_contra hneither
    obtain ⟨hreset, hclrst⟩ := not_or.mp hneither
    exact absurd (step_keeps_ovr hstep hset hreset hclrst) (Bool.eq_false_iff.mp hclear)

end Sys2Proof.Machine
end

section
/-! SUPPORT. The invariant of the state (10_state.md R20 to R22): reset meets it, and every step keeps it. -/

namespace Sys2Proof.Machine

theorem Ends.wf {i : Instr} {s t : State} (h : Ends i s t) (hs : s.wf) : t.wf := by
  cases h with
  | fault _ => exact State.takeFault_wf hs _
  | clear _ => exact State.clearStatus_wf hs
  | done cls st zf hw _ => exact State.complete_wf (hw.wf hs) cls st zf

theorem runCommand_wf {x : Nat} {s t : State} (h : runCommand x s = .next t) (hs : s.wf) : t.wf := by
  obtain ⟨-, rfl⟩ | ⟨_, -, hexec⟩ := runCommand_cases h
  · exact State.takeFault_wf hs _
  · exact (ends_of_exec hexec).wf hs

theorem State.withTurns_wf {s : State} (hs : s.wf) (ts : List Turn) : (s.withTurns ts).wf := hs

theorem State.hostWrite_wf {s : State} (hs : s.wf) (a x : Nat) : (s.hostWrite a x).wf := by
  unfold State.hostWrite
  cases portReg a with
  | cmd =>
    cases s.busy
    · exact issue_wf hs x
    · exact discardWrite_wf hs
  | sreg k =>
    cases s.busy
    · exact setS_wf true hs k x
    · exact discardWrite_wf hs
  | status | config | reserved => exact hs

theorem State.hostTurn_wf {s : State} (hs : s.wf) (op : PortOp) : (s.hostTurn op).wf := by
  cases op with
  | read a => exact hostRead_wf hs a
  | write a x => exact hostWrite_wf hs a x
  | reset => exact hostReset_wf hs

/-- Settles O18: a step passes a turn, ends a command or takes a host transaction, and each of them keeps the invariant. -/
theorem stepKeepsRegistersInRange : Obligations.StepKeepsRegistersInRange := by
  intro s t hs hstep
  obtain ⟨-, -, rfl⟩ | ⟨_, -, -, hrun⟩ | ⟨op, rest, -, rfl⟩ := step_cases hstep
  · exact State.withTurns_wf hs _
  · exact runCommand_wf hrun (State.withTurns_wf hs _)
  · exact State.hostTurn_wf (State.withTurns_wf hs rest) op

theorem State.resetOf_wf {p : Params} (hp : p.legal) : (State.resetOf p).wf := by
  refine ⟨hp, fun r => ?_, fun r => ?_, fun r => ?_, fun x hx => absurd hx (Option.not_mem_none x)⟩
  · simp [State.resetOf, State.V]
  · simp [State.resetOf, State.S]
  · simp [State.resetOf, State.N, Params.N]

/-- Settles O19: 0 is in every range, each V register has one mark a word, and the parameters of `State.reset` are legal. -/
theorem resetStateIsInRange : Obligations.ResetStateIsInRange :=
  ⟨fun _ => State.resetOf_wf, State.resetOf_wf (by decide)⟩

end Sys2Proof.Machine
end

section
/-! SUPPORT. Unset values never show (10_state.md R22, 70_reset_and_hazards.md R172): two states that agree give a command
with set operands the same operands, and each update keeps the agreement when it writes the same value to both. -/

namespace Sys2Proof.Machine

theorem State.word_setV_of_ne (s : State) {q r : VReg} (hqr : q ≠ r) (x : Nat) (known : Bool) (j : Nat) :
    (s.setV r x known).word q j = s.word q j :=
  word_congr (s := s) (t := s.setV r x known) rfl (by simp [hqr]) j

theorem State.word_setWord_of_ne (s : State) {q r : VReg} (hqr : q ≠ r) (i x : Nat) (known : Bool) (j : Nat) :
    (s.setWord r i x known).word q j = s.word q j :=
  word_congr (s := s) (t := s.setWord r i x known) rfl (by simp [hqr]) j

namespace Agree

variable {s t : State} (h : Agree s t)
include h

/-! ### What agreeing states share -/

theorem M_eq : t.M = s.M := congrArg Params.M h.params

theorem W_eq : t.W = s.W := congrArg Params.W h.params

theorem N_eq : t.N = s.N := congrArg Params.N h.params

theorem busy_eq : t.busy = s.busy := congrArg Option.isSome h.inFlight

theorem carryIn_eq (ci : CarryIn) : t.carryIn ci = s.carryIn ci := by
  cases ci with
  | zero | one => rfl
  | status => exact congrArg Status.st h.status

theorem wordIsSet_eq (r : VReg) (j : Nat) : t.wordIsSet r j = s.wordIsSet r j := by
  rw [State.wordIsSet, h.vmarks, State.wordIsSet]

theorem sIsSet_eq (r : SReg) : t.sIsSet r = s.sIsSet r := by
  rw [State.sIsSet, h.smarks, State.sIsSet]

theorem vIsSet_eq (r : VReg) : t.vIsSet r = s.vIsSet r := by
  simp only [State.vIsSet, h.N_eq, h.wordIsSet_eq]

theorem allSet_eq (vs : List VReg) (ss : List SReg) : t.allSet vs ss = s.allSet vs ss := by
  rw [State.allSet, State.allSet, funext h.vIsSet_eq, funext h.sIsSet_eq]

/-- A V register with every word set holds one value in both states. -/
theorem V_eq (hs : s.wf) (ht : t.wf) {r : VReg} (hr : s.vIsSet r = true) : t.V r = s.V r := by
  have hrange := ht.V_lt r
  rw [h.M_eq, s.M_eq] at hrange
  refine eq_of_words hrange (s.M_eq ▸ hs.V_lt r) fun j hj => ?_
  have hword := h.words r j (List.all_eq_true.1 hr j (List.mem_range.2 hj))
  rwa [State.word, State.word, h.W_eq] at hword

/-! ### Updates keep the agreement -/

theorem withTurns (ts : List Turn) : Agree (s.withTurns ts) (t.withTurns ts) := { h with turns := rfl }

theorem complete (cls : CommandClass) (st zf : Bool) : Agree (s.complete cls st zf) (t.complete cls st zf) :=
  { h with status := congrArg (Status.completed · cls st zf) h.status, inFlight := rfl }

theorem takeFault (code : ErrCode) : Agree (s.takeFault code) (t.takeFault code) :=
  { h with status := congrArg (Status.faulted · code) h.status, inFlight := rfl }

theorem clearStatus : Agree s.clearStatus t.clearStatus := { h with status := rfl, inFlight := rfl }

theorem discardWrite : Agree s.discardWrite t.discardWrite :=
  { h with status := congrArg (fun x : Status => { x with ovr := true }) h.status }

theorem issue (x : Nat) : Agree (s.issue x) (t.issue x) :=
  { h with
    inFlight := by rw [State.issue_inFlight, State.issue_inFlight, h.W_eq]
    draws := congrArg (· + 1) h.draws }

theorem hostRead {a : Nat} (hv : t.portValue a = s.portValue a) : Agree (s.hostRead a) (t.hostRead a) :=
  { h with reads := by rw [State.hostRead_reads, State.hostRead_reads, hv, h.reads] }

theorem setS (r : SReg) (x : Nat) (known : Bool) : Agree (s.setS r x known) (t.setS r x known) :=
  { h with
    smarks := congrArg (Regs8.set · r known) h.smarks
    sregs := fun q hq => by
      rw [State.sIsSet_setS] at hq
      rw [State.S_setS, State.S_setS, h.W_eq]
      split
      · rfl
      · next hqr => exact h.sregs q (by rwa [if_neg hqr] at hq) }

theorem setV (r : VReg) (x : Nat) (known : Bool) : Agree (s.setV r x known) (t.setV r x known) :=
  { h with
    vmarks := by rw [State.setV_vmarks, State.setV_vmarks, h.vmarks, h.N_eq]
    words := fun q j hq => by
      rw [State.wordIsSet_setV] at hq
      by_cases hqr : q = r
      · exact State.word_congr (s := s.setV r x known) (t := t.setV r x known) h.params (by simp [hqr, h.M_eq]) j
      · rw [if_neg hqr] at hq
        rw [State.word_setV_of_ne _ hqr, State.word_setV_of_ne _ hqr]
        exact h.words q j hq }

/-- A word written with the same value in both states agrees, and so do the words it leaves. -/
theorem setWord (hs : s.wf) (ht : t.wf) (r : VReg) {i : Nat} (hi : i < s.N) (x : Nat) (known : Bool) :
    Agree (s.setWord r i x known) (t.setWord r i x known) :=
  { h with
    vmarks := by rw [State.setWord_vmarks, State.setWord_vmarks, h.vmarks]
    words := fun q j hq => by
      have hit : i < t.N := h.N_eq ▸ hi
      by_cases hqr : q = r
      · subst hqr
        by_cases hji : j = i
        · subst hji
          rw [State.word_setWord_same _ _ _ _ _ (ht.V_lt q) hit, State.word_setWord_same _ _ _ _ _ (hs.V_lt q) hi, h.W_eq]
        · rw [State.wordIsSet_setWord_ne _ _ hji] at hq
          rw [State.word_setWord_ne _ _ _ _ (ht.V_lt q) hit hji, State.word_setWord_ne _ _ _ _ (hs.V_lt q) hi hji]
          exact h.words q j hq
      · rw [State.wordIsSet_setWord, if_neg fun hh => hqr hh.1] at hq
        rw [State.word_setWord_of_ne _ hqr, State.word_setWord_of_ne _ hqr]
        exact h.words q j hq }

theorem hostReset : Agree s.hostReset t.hostReset where
  params := h.params
  vmarks := by rw [State.hostReset_vmarks, State.hostReset_vmarks, h.N_eq]
  smarks := rfl
  status := rfl
  inFlight := rfl
  turns := h.turns
  reads := h.reads
  draws := congrArg (· + 1) h.draws
  words := fun r j _ => State.word_congr (s := s.hostReset) (t := t.hostReset) h.params (by simp [State.V, h.draws, h.M_eq]) j
  sregs := fun r _ => by simp [State.S, h.draws, h.W_eq]

/-! ### Host transactions -/

/-- A read that keeps the contract returns one value in both states. -/
theorem portValue_eq {a : Nat} (hop : (PortOp.read a).inContract s = true) : t.portValue a = s.portValue a := by
  refine State.portValue_congr h.params h.draws h.inFlight (fun _ => h.status) ?_
  rintro k rfl
  rw [PortOp.inContract, portReg_sreg] at hop
  exact h.sregs k (Bool.and_eq_true_iff.1 hop).2

theorem hostWrite (a x : Nat) : Agree (s.hostWrite a x) (t.hostWrite a x) := by
  unfold State.hostWrite
  rw [h.busy_eq]
  cases portReg a with
  | cmd =>
    cases s.busy
    · exact h.issue x
    · exact h.discardWrite
  | sreg k =>
    cases s.busy
    · exact h.setS k x true
    · exact h.discardWrite
  | status | config | reserved => exact h

theorem hostTurn {op : PortOp} (hop : op.inContract s = true) : Agree (s.hostTurn op) (t.hostTurn op) := by
  cases op with
  | read a => exact h.hostRead (h.portValue_eq hop)
  | write a x => exact h.hostWrite a x
  | reset => exact h.hostReset

end Agree

/-! ### Commands -/

/-- Both answers are next states, and `R` holds of them. -/
def BothNext (R : State → State → Prop) (r r' : Result) : Prop := ∃ s t, r = .next s ∧ r' = .next t ∧ R s t

/-- Both states take the same branch of a check. -/
theorem BothNext.ite {R : State → State → Prop} {c : Prop} [Decidable c] {r₁ r₂ r₁' r₂' : Result}
    (h₁ : BothNext R r₁ r₁') (h₂ : BothNext R r₂ r₂') :
    BothNext R (if c then r₁ else r₂) (if c then r₁' else r₂') := by
  split
  · exact h₁
  · exact h₂

theorem Agree.next {s t : State} (h : Agree s t) : BothNext Agree (.next s) (.next t) := ⟨s, t, rfl, rfl, h⟩

theorem Agree.fault {s t : State} (h : Agree s t) {code : ErrCode} :
    BothNext Agree (.next (s.takeFault code)) (.next (t.takeFault code)) :=
  (h.takeFault code).next

/-- A command whose operands are all set reads the same operands in agreeing states, so it takes the same branch and writes the
same values. -/
theorem Agree.exec {s t : State} (h : Agree s t) (hs : s.wf) (ht : t.wf) {i : Instr} (hset : operandsSet i s = true) :
    BothNext Agree (exec i s) (exec i t) := by
  obtain ⟨hv, hr⟩ := Bool.and_eq_true_iff.1 hset
  have hV : ∀ r ∈ i.vReads, t.V r = s.V r := fun r hr => h.V_eq hs ht (List.all_eq_true.1 hv r hr)
  have hS : ∀ r ∈ i.sReads, t.S r = s.S r := fun r hq => h.sregs r (List.all_eq_true.1 hr r hq)
  cases i with
  | clrst => exact h.clearStatus.next
  | vset | vmov | vadd | vsub | vshl | vshr | vand | vor | vxor | vnot | vnotm | vmulw | vmul =>
    simp only [Instr.vReads, Instr.sReads, List.forall_mem_cons] at hV hS
    simp only [Machine.exec, execVset, execVmov, execVadd, execVsub, execVshl, execVshr, execVand, execVor, execVxor,
      execVnot, execVnotm, execVmulw, execVmul, State.finishAdd_eq, State.finishSub_eq, State.finishLogic_eq,
      State.finishNarrow_eq, hV, hS, h.allSet_eq, h.carryIn_eq, h.M_eq]
    exact ((h.setV _ _ _).complete _ _ _).next
  | wadd | wsub =>
    simp only [Instr.sReads, List.forall_mem_cons] at hS
    simp only [Machine.exec, execWadd, execWsub, hS, h.allSet_eq, h.carryIn_eq, h.W_eq]
    exact ((h.setS _ _ _).complete _ _ _).next
  | vldw =>
    simp only [Instr.sReads, List.forall_mem_cons] at hS
    simp only [Machine.exec, execVldw, State.wordIndexBad, hS, h.allSet_eq, h.N_eq, decide_eq_true_iff]
    split_ifs with hb
    · exact h.fault
    · exact ((h.setWord hs ht _ (Nat.not_le.1 hb) _ _).complete _ _ _).next
  | vaddo | vsubo | vsetb =>
    simp only [Instr.vReads, Instr.sReads, List.forall_mem_cons] at hV hS
    simp only [Machine.exec, execVaddo, execVsubo, execVsetb, State.wordIndexBad, State.bitIndexBad, State.finishAdd_eq,
      State.finishSub_eq, hV, hS, h.allSet_eq, h.W_eq, h.N_eq, h.M_eq]
    exact .ite h.fault ((h.setV _ _ _).complete _ _ _).next
  | vstw =>
    simp only [Instr.vReads, Instr.sReads, List.forall_mem_cons] at hV hS
    simp only [Machine.exec, execVstw, State.wordIndexBad, State.word, hV, hS, h.allSet_eq, h.W_eq, h.N_eq]
    exact .ite h.fault ((h.setS _ _ _).complete _ _ _).next
  | vgetb =>
    simp only [Instr.vReads, Instr.sReads, List.forall_mem_cons] at hV hS
    simp only [Machine.exec, execVgetb, State.bitIndexBad, hV, hS, h.M_eq]
    exact .ite h.fault (h.complete _ _ _).next
  | wmul =>
    simp only [Instr.sReads, List.forall_mem_cons] at hS
    simp only [Machine.exec, execWmul, hS, h.allSet_eq, h.W_eq]
    exact .ite h.fault (((h.setS _ _ _).setS _ _ _).complete _ _ _).next
  | wdiv =>
    simp only [Instr.sReads, List.forall_mem_cons] at hS
    simp only [Machine.exec, execWdiv, hS, h.allSet_eq, h.W_eq]
    exact .ite h.fault (.ite h.fault (.ite h.fault (((h.setS _ _ _).setS _ _ _).complete _ _ _).next))
  | vflb | vftb =>
    simp only [Instr.vReads, List.forall_mem_cons] at hV
    simp only [Machine.exec, execVflb, execVftb, State.finishScan_eq, hV, h.allSet_eq, h.W_eq, h.M_eq]
    exact .ite h.fault (.ite (h.complete _ _ _).next (((h.setS _ _ _).setS _ _ _).complete _ _ _).next)
  | vnorm =>
    simp only [Instr.vReads, List.forall_mem_cons] at hV
    simp only [Machine.exec, execVnorm, hV, h.allSet_eq, h.M_eq]
    exact .ite ((h.setS _ _ _).complete _ _ _).next (((h.setV _ _ _).setS _ _ _).complete _ _ _).next
  | vmuld =>
    simp only [Instr.vReads, List.forall_mem_cons] at hV
    simp only [Machine.exec, execVmuld, hV, h.allSet_eq, h.M_eq]
    exact .ite h.fault (((h.setV _ _ _).setV _ _ _).complete _ _ _).next
  | vdivw =>
    simp only [Instr.vReads, Instr.sReads, List.forall_mem_cons] at hV hS
    simp only [Machine.exec, execVdivw, hV, hS, h.allSet_eq]
    exact .ite h.fault (((h.setV _ _ _).setS _ _ _).complete _ _ _).next
  | vdiv =>
    simp only [Instr.vReads, List.forall_mem_cons] at hV
    simp only [Machine.exec, execVdiv, hV, h.allSet_eq]
    exact .ite h.fault (.ite h.fault (((h.setV _ _ _).setV _ _ _).complete _ _ _).next)

theorem engineInContract_decoded {s : State} {x : Nat} {i : Instr} (hx : s.inFlight = some x)
    (hi : decodeCommand s.params.width x = .ok i) : engineInContract s = operandsSet i s := by
  simp only [engineInContract, hx, hi]

/-- The engine's turn, when it reads no unset register, keeps the agreement. -/
theorem Agree.engineTurn {s t : State} (h : Agree s t) (hs : s.wf) (ht : t.wf) (hc : engineInContract s = true) :
    BothNext Agree (engineTurn s) (engineTurn t) := by
  unfold Machine.engineTurn runCommand
  rw [h.inFlight, h.params]
  cases hx : s.inFlight with
  | none => exact h.next
  | some x =>
    cases hi : decodeCommand s.params.width x with
    | error _ => simpa [hi] using h.fault
    | ok i => simpa [hi] using h.exec hs ht ((engineInContract_decoded hx hi).symm.trans hc)

/-- Settles O26: the engine's turn and each transaction keep the agreement of the two states, whose turns are the same. -/
theorem unsetValuesNeverShowInAContractStep : Obligations.UnsetValuesNeverShowInAContractStep := by
  intro s t hs ht h hc
  unfold stepInContract at hc
  have hturns := h.turns
  cases hts : s.turns with
  | nil =>
    rw [hts] at hc hturns
    rw [step, step, hts, hturns]
    exact h.engineTurn hs ht hc
  | cons turn rest =>
    rw [hts] at hc hturns
    cases turn with
    | engine =>
      rw [step_engine hts, step_engine hturns]
      exact (h.withTurns rest).engineTurn (State.withTurns_wf hs rest) (State.withTurns_wf ht rest) hc
    | host op => exact ⟨_, _, step_host hts, step_host hturns, (h.withTurns rest).hostTurn hc⟩

end Sys2Proof.Machine
end

section
/-! SUPPORT. Each command word has one meaning (30_encoding.md sections 1 to 3): what the decoder builds is encoded to the
fields it was built from, and the match and mask columns of R68 test a word field by field. -/

namespace Sys2Proof

/-! ### Decode and encode -/

theorem decodeCarryIn_eq_ok_iff (x : Fin 4) (ci : CarryIn) : decodeCarryIn x = .ok ci ↔ encodeCarryIn ci = x := by
  fin_cases x <;> cases ci <;> decide

theorem decodeMulAlg_eq_ok_iff (x : Fin 4) (g : MulAlg) : decodeMulAlg x = .ok g ↔ encodeMulAlg g = x := by
  fin_cases x <;> cases g <;> decide

theorem decodeDivAlg_eq_ok_iff (x : Fin 4) (g : DivAlg) : decodeDivAlg x = .ok g ↔ encodeDivAlg g = x := by
  fin_cases x <;> cases g <;> decide

/-- The fields with RSV and those outside `used` zero. -/
def Fields.restrict (f : Fields) (used : List Field) : Fields :=
  { op := f.op
    d := if .d ∈ used then f.d else 0
    a := if .a ∈ used then f.a else 0
    b := if .b ∈ used then f.b else 0
    c := if .c ∈ used then f.c else 0
    e := if .e ∈ used then f.e else 0
    ci := if .i ∈ used then f.ci else 0
    alg := if .g ∈ used then f.alg else 0
    rsv := 0 }

theorem Fields.restrict_of_cleanOutside {f : Fields} {used : List Field} (h : f.cleanOutside used = true) :
    f.restrict used = f := by
  obtain ⟨hzero, hrsv⟩ := Fields.cleanOutside_iff.1 h
  have keep {n : Nat} [NeZero n] {k : Field} {x : Fin n} (hx : x.val = f.value k) : (if k ∈ used then x else 0) = x := by
    split
    · rfl
    · next hk => exact Fin.ext (hx.trans (hzero k hk)).symm
  rw [restrict, keep rfl, keep rfl, keep rfl, keep rfl, keep rfl, keep rfl, keep rfl, ← hrsv]

/-- The command built from the fields of a row is encoded to the fields its row uses. -/
theorem encodeFields_of_buildInstr {f : Fields} {used : List Field} (hrow : usedFields f.op = some used) {i : Instr}
    (hbuild : buildInstr f = .ok i) : encodeFields i = f.restrict used := by
  obtain ⟨⟨op, hlt⟩, d, a, b, c, e, ci, alg, rsv⟩ := f
  dsimp only at hrow
  unfold usedFields at hrow
  split at hrow
  case h_31 => cases hrow
  case h_6 | h_7 | h_10 | h_11 | h_14 | h_15 =>
    cases hrow
    obtain ⟨x, hx, rfl⟩ := (map_eq_ok_iff ..).1 hbuild
    obtain rfl : encodeCarryIn x = ci := (decodeCarryIn_eq_ok_iff ..).1 hx
    rfl
  case h_27 | h_28 =>
    cases hrow
    obtain ⟨x, hx, rfl⟩ := (map_eq_ok_iff ..).1 hbuild
    obtain rfl : encodeMulAlg x = alg := (decodeMulAlg_eq_ok_iff ..).1 hx
    rfl
  case h_30 =>
    cases hrow
    obtain ⟨x, hx, rfl⟩ := (map_eq_ok_iff ..).1 hbuild
    obtain rfl : encodeDivAlg x = alg := (decodeDivAlg_eq_ok_iff ..).1 hx
    rfl
  all_goals
    cases hrow
    cases hbuild
    rfl

/-- What the decoder accepts: fields in a row, from which a command is built that is well formed. -/
theorem decodeFields_eq_ok {f : Fields} {i : Instr} (h : decodeFields f = .ok i) :
    ∃ used, usedFields f.op = some used ∧ f.cleanOutside used = true ∧ buildInstr f = .ok i ∧ i.wellFormed := by
  unfold decodeFields at h
  cases hrow : usedFields f.op with
  | none => simp [hrow] at h
  | some used =>
    cases hclean : f.cleanOutside used with
    | false => simp [hrow, hclean] at h
    | true =>
      cases hbuild : buildInstr f with
      | error why => simp [hrow, hclean, hbuild, Except.bind] at h
      | ok j =>
        simp only [hrow, hclean, hbuild, Except.bind, if_true] at h
        obtain ⟨rfl, hj⟩ := checkInstr_eq_ok.1 h
        exact ⟨used, rfl, hclean, rfl, hj⟩

/-- Settles O3: the fields of the word lie in the row of the command built from them, so they are the command's own, and a
word is its fields. -/
theorem decodedWordIsTheCommandsOwn : Obligations.DecodedWordIsTheCommandsOwn := by
  intro x i h
  obtain ⟨used, hrow, hclean, hbuild, hwf⟩ := decodeFields_eq_ok h
  refine ⟨?_, hwf⟩
  rw [encode, encodeFields_of_buildInstr hrow hbuild, Fields.restrict_of_cleanOutside hclean, Fields.toNat_ofNat x.isLt,
    BitVec.ofNat_toNat, BitVec.setWidth_eq]

/-- Settles O1: the decoder computes. -/
theorem writtenOutWordsDecode : Obligations.WrittenOutWordsDecode := by
  unfold Obligations.WrittenOutWordsDecode
  decide

/-! ### The match and mask columns (R68) -/

/-- The conjunction of two words, field by field. -/
def Fields.and (f g : Fields) : Fields :=
  { op := f.op &&& g.op, d := f.d &&& g.d, a := f.a &&& g.a, b := f.b &&& g.b, c := f.c &&& g.c, e := f.e &&& g.e
    ci := f.ci &&& g.ci, alg := f.alg &&& g.alg, rsv := f.rsv &&& g.rsv }

theorem bitField_and {n k : Nat} [NeZero n] (hn : n = 2 ^ k) (x y lo : Nat) :
    bitField n (x &&& y) lo = bitField n x lo &&& bitField n y lo := by
  subst hn
  refine Fin.ext ?_
  rw [Fin.and_val, bitField, bitField, bitField, Fin.val_ofNat, Fin.val_ofNat, Fin.val_ofNat, Nat.and_div_two_pow,
    Nat.and_mod_two_pow]

theorem Fields.ofNat_and (x y : Nat) : Fields.ofNat (x &&& y) = (Fields.ofNat x).and (Fields.ofNat y) := by
  have h8 := bitField_and (n := 8) (k := 3) rfl x y
  have h4 := bitField_and (n := 4) (k := 2) rfl x y
  simp only [Fields.ofNat, Fields.and, h8, h4, bitField_and (n := 64) (k := 6) rfl x y,
    bitField_and (n := 128) (k := 7) rfl x y]

theorem Fields.ofNat_toNat_inj {x y : BitVec 32} : Fields.ofNat x.toNat = Fields.ofNat y.toNat ↔ x = y := by
  refine ⟨fun h => BitVec.eq_of_toNat_eq ?_, fun h => h ▸ rfl⟩
  rw [← Fields.toNat_ofNat x.isLt, h, Fields.toNat_ofNat y.isLt]

/-- The fields that the mask of a row tests: the opcode, RSV and every field the row does not use. -/
def Fields.rowMask (used : List Field) : Fields :=
  { op := 63
    d := if .d ∈ used then 0 else 7
    a := if .a ∈ used then 0 else 7
    b := if .b ∈ used then 0 else 7
    c := if .c ∈ used then 0 else 7
    e := if .e ∈ used then 0 else 7
    ci := if .i ∈ used then 0 else 3
    alg := if .g ∈ used then 0 else 3
    rsv := 127 }

theorem Field.forall_iff {P : Field → Prop} : (∀ k, P k) ↔ P .d ∧ P .a ∧ P .b ∧ P .c ∧ P .e ∧ P .i ∧ P .g :=
  ⟨fun h => ⟨h _, h _, h _, h _, h _, h _, h _⟩, fun ⟨hd, ha, hb, hc, he, hi, hg⟩ k => by cases k <;> assumption⟩

/-- A word under a row's mask shows its opcode alone exactly when it is clean outside the fields the row uses. -/
theorem Fields.and_rowMask_eq_blank_iff (f : Fields) (used : List Field) (op : Fin 64) :
    f.and (Fields.rowMask used) = Fields.blank op ↔ f.op = op ∧ f.cleanOutside used = true := by
  have hop : f.op &&& 63 = f.op :=
    Fin.ext ((Fin.and_val ..).trans (Nat.and_two_pow_sub_one_of_lt_two_pow (n := 6) f.op.isLt))
  have hrsv : f.rsv &&& 127 = f.rsv :=
    Fin.ext ((Fin.and_val ..).trans (Nat.and_two_pow_sub_one_of_lt_two_pow (n := 7) f.rsv.isLt))
  have h8 (p : Prop) [Decidable p] : ∀ x : Fin 8, x &&& (if p then 0 else 7) = 0 ↔ (¬ p → x.val = 0) := by
    by_cases hp : p
    · simp only [hp]; decide
    · simp only [hp]; decide
  have h4 (p : Prop) [Decidable p] : ∀ x : Fin 4, x &&& (if p then 0 else 3) = 0 ↔ (¬ p → x.val = 0) := by
    by_cases hp : p
    · simp only [hp]; decide
    · simp only [hp]; decide
  rw [Fields.cleanOutside_iff, Field.forall_iff]
  simp only [Fields.and, Fields.rowMask, Fields.blank, Fields.mk.injEq, hop, hrsv, h8, h4, Fields.value, and_assoc]

theorem opcodeTable_columns : ∀ row ∈ opcodeTable,
    (usedFields row.op).map Fields.rowMask = some (Fields.ofNat row.mask.toNat) ∧
      Fields.ofNat row.pattern.toNat = Fields.blank (Fin.ofNat 64 row.op) ∧ row.op < 64 := by
  decide

theorem opcodeTable_op_inj : ∀ r ∈ opcodeTable, ∀ q ∈ opcodeTable, r.op = q.op → r = q := by
  decide

/-- A word matches a row of R68 exactly when it has the row's opcode and is clean outside the fields the row uses. -/
theorem matches_row_iff {row : OpcodeRow} (hrow : row ∈ opcodeTable) (x : BitVec 32) :
    x &&& row.mask = row.pattern ↔
      (Fields.ofNat x.toNat).op.val = row.op ∧
        ∃ used, usedFields row.op = some used ∧ (Fields.ofNat x.toNat).cleanOutside used = true := by
  obtain ⟨hmask, hpattern, hop⟩ := opcodeTable_columns row hrow
  obtain ⟨used, hused, hmask⟩ := Option.map_eq_some_iff.1 hmask
  rw [← Fields.ofNat_toNat_inj, BitVec.toNat_and, Fields.ofNat_and, ← hmask, hpattern, Fields.and_rowMask_eq_blank_iff,
    Fin.ext_iff, Fin.val_ofNat, Nat.mod_eq_of_lt hop, hused]
  simp only [Option.some.injEq, exists_eq_left']

/-- Some row of R68 matches a word exactly when its fields lie in the row of its opcode. -/
theorem matches_some_row_iff (x : BitVec 32) :
    (∃ row ∈ opcodeTable, x &&& row.mask = row.pattern) ↔
      ∃ used, usedFields (Fields.ofNat x.toNat).op = some used ∧ (Fields.ofNat x.toNat).cleanOutside used = true := by
  constructor
  · rintro ⟨row, hrow, hx⟩
    obtain ⟨hop, hused⟩ := (matches_row_iff hrow x).1 hx
    rwa [hop]
  · rintro ⟨used, hused, hclean⟩
    have hsome : ¬ ∀ row ∈ opcodeTable, row.op ≠ (Fields.ofNat x.toNat).op := fun h => by
      rw [(usedFields_eq_none_iff _).2 h] at hused
      cases hused
    push Not at hsome
    obtain ⟨row, hrow, hop⟩ := hsome
    exact ⟨row, hrow, (matches_row_iff hrow x).2 ⟨hop.symm, used, hop ▸ hused, hclean⟩⟩

/-! ### The decoder's reasons -/

theorem map_eq_error_iff {ε α β : Type} (g : α → β) (r : Except ε α) (why : ε) :
    r.map g = .error why ↔ r = .error why := by
  cases r <;> simp [Except.map]

theorem decodeCarryIn_error {x : Fin 4} {why : IllegalWord} (h : decodeCarryIn x = .error why) : why = .carryInSelect := by
  fin_cases x <;> cases h
  rfl

theorem decodeMulAlg_error {x : Fin 4} {why : IllegalWord} (h : decodeMulAlg x = .error why) : why = .algorithmSelect := by
  fin_cases x <;> cases h
  rfl

theorem decodeDivAlg_error {x : Fin 4} {why : IllegalWord} (h : decodeDivAlg x = .error why) : why = .algorithmSelect := by
  fin_cases x <;> cases h
  rfl

/-- In a row of R68 no command is built only for a select. -/
theorem buildInstr_error {f : Fields} {used : List Field} (hrow : usedFields f.op = some used) {why : IllegalWord}
    (h : buildInstr f = .error why) : why = .carryInSelect ∨ why = .algorithmSelect := by
  obtain ⟨⟨op, hlt⟩, d, a, b, c, e, ci, alg, rsv⟩ := f
  dsimp only at hrow
  unfold usedFields at hrow
  split at hrow
  case h_31 => cases hrow
  case h_6 | h_7 | h_10 | h_11 | h_14 | h_15 => exact .inl (decodeCarryIn_error ((map_eq_error_iff ..).1 h))
  case h_27 | h_28 => exact .inr (decodeMulAlg_error ((map_eq_error_iff ..).1 h))
  case h_30 => exact .inr (decodeDivAlg_error ((map_eq_error_iff ..).1 h))
  all_goals cases h

theorem checkInstr_error {i : Instr} {why : IllegalWord} (h : checkInstr i = .error why) : ∃ flaw, why = .illFormed flaw := by
  unfold checkInstr at h
  split at h
  · cases h
  · next flaw _ =>
    cases h
    exact ⟨flaw, rfl⟩

/-- Fields that lie in a row are refused for a select or for an operand constraint, if at all. -/
theorem decodeFields_error_of_row {f : Fields} {used : List Field} (hrow : usedFields f.op = some used)
    (hclean : f.cleanOutside used = true) {why : IllegalWord} (h : decodeFields f = .error why) :
    why = .carryInSelect ∨ why = .algorithmSelect ∨ ∃ flaw, why = .illFormed flaw := by
  rw [decodeFields_of_row hrow hclean] at h
  cases hbuild : buildInstr f with
  | error why' =>
    rw [hbuild] at h
    cases h
    exact (buildInstr_error hrow hbuild).imp_right .inl
  | ok i =>
    rw [hbuild] at h
    exact .inr (.inr (checkInstr_error h))

theorem decodeFields_in_row_iff (f : Fields) :
    (∃ used, usedFields f.op = some used ∧ f.cleanOutside used = true) ↔
      decodeFields f ≠ .error .reservedOpcode ∧ decodeFields f ≠ .error .unusedFieldNonZero := by
  constructor
  · rintro ⟨used, hrow, hclean⟩
    constructor
    · intro h
      simpa using decodeFields_error_of_row hrow hclean h
    · intro h
      simpa using decodeFields_error_of_row hrow hclean h
  · rintro ⟨hop, hfield⟩
    cases hrow : usedFields f.op with
    | none => exact absurd (by rw [decodeFields, hrow]) hop
    | some used =>
      refine ⟨used, rfl, ?_⟩
      by_contra hclean
      exact hfield (by rw [decodeFields, hrow]; exact if_neg hclean)

/-- Settles O5: a row's mask tests the opcode, the unused fields and RSV, which is what puts a word's fields in the row; two
rows that match have the word's opcode. -/
theorem opcodeTableDecidesDecoding : Obligations.OpcodeTableDecidesDecoding := by
  intro x
  refine ⟨(matches_some_row_iff x).trans (decodeFields_in_row_iff _), fun r hr q hq hxr hxq => ?_⟩
  exact opcodeTable_op_inj r hr q hq (((matches_row_iff hr x).1 hxr).1.symm.trans ((matches_row_iff hq x).1 hxq).1)

end Sys2Proof
end

section
/-! SUPPORT. How a command ends (60_exceptions.md R150 to R154): its fault or its completion with the flags, and what it
changes; from that what a step changes. -/

namespace Sys2Proof.Machine

/-! ### The frame of a command -/

/-- What changes nothing outside fewer registers changes nothing outside more. -/
theorem Frame.mono {s t : State} {vs vs' : List VReg} {ss ss' : List SReg} (h : Frame s t vs ss) (hv : vs ⊆ vs')
    (hs : ss ⊆ ss') : Frame s t vs' ss' :=
  { h with
    vKept := fun r hr => h.vKept r fun hm => hr (hv hm)
    wordKept := fun r i hr => h.wordKept r i fun hm => hr (hv hm)
    vMarkKept := fun r hr => h.vMarkKept r fun hm => hr (hv hm)
    sKept := fun r hr => h.sKept r fun hm => hr (hs hm)
    sMarkKept := fun r hr => h.sMarkKept r fun hm => hr (hs hm) }

theorem Writes.frame_complete {s u : State} {vs : List VReg} {ss : List SReg} {known : Bool}
    (h : Writes s vs ss known u) (cls : CommandClass) (st zf : Bool) : Frame s (u.complete cls st zf) vs ss := by
  obtain ⟨hparams, -, -, hturns, hreads, hdraws⟩ := h.rest_kept
  exact {
    params := hparams
    vKept := fun r hr => (h.v_kept hr).1
    wordKept := fun r i hr => State.word_congr (t := u.complete cls st zf) hparams (h.v_kept hr).1 i
    vMarkKept := fun r hr => (h.v_kept hr).2
    sKept := fun r hr => (h.s_kept hr).1
    sMarkKept := fun r hr => (h.s_kept hr).2
    turns := hturns
    reads := hreads
    draws := hdraws
    idle := rfl }

theorem Ends.frame {i : Instr} {s t : State} (h : Ends i s t) : Frame s t i.vWrites i.sWrites := by
  cases h with
  | fault _ => exact (faulted_takeFault s _).frame.mono (List.nil_subset _) (List.nil_subset _)
  | clear _ => exact (frame_clearStatus s).mono (List.nil_subset _) (List.nil_subset _)
  | done cls st zf hw _ => exact hw.frame_complete cls st zf

/-- Settles O24: a command faults, clears STATUS or writes its destinations and completes. -/
theorem commandChangesOnlyItsDestinations : Obligations.CommandChangesOnlyItsDestinations := fun _ _ _ hexec =>
  ⟨(ends_of_exec hexec).frame, (ends_of_exec hexec).ovr_kept⟩

/-- Settles O32: CLRST clears every field of STATUS, writes no register and leaves `BUSY = 0`. -/
theorem clrstClearsStatus : Obligations.ClrstClearsStatus :=
  ⟨by decide, fun s => ⟨s.clearStatus, rfl, rfl, frame_clearStatus s⟩⟩

/-! ### Faults and flags (10_state.md R25, R26, R29; 60_exceptions.md R151, R153) -/

/-- The fault a command ends in, in the priority of the checks (60_exceptions.md R153). -/
def faultCode (s : State) : Instr → Option ErrCode
  | .vldw _ _ b | .vstw _ _ b | .vaddo _ _ b | .vsubo _ _ b => if s.N ≤ s.S b then some .improperArgument else none
  | .vgetb _ b | .vsetb _ b => if s.M ≤ s.S b then some .improperArgument else none
  | .wmul d c _ _ | .vflb d c _ | .vftb d c _ => if d = c then some .illegalCommand else none
  | .vmuld d _ _ _ => if d.val % 2 = 1 then some .illegalCommand else none
  | .wdiv d c a _ e =>
    if d = c then some .illegalCommand else if s.S e = 0 then some .divByZero
    else if s.S e ≤ s.S a then some .divideFault else none
  | .vdivw _ b _ => if s.S b = 0 then some .divByZero else none
  | .vdiv d b c _ => if d = c then some .illegalCommand else if s.V b = 0 then some .divByZero else none
  | _ => none

/-- The command is a scan or a normalisation of zero. -/
def zeroScan (s : State) : Instr → Bool
  | .vflb _ _ a | .vftb _ _ a => decide (s.V a = 0)
  | .vnorm d _ => decide (s.V d = 0)
  | _ => false

/-- The class of a command (10_state.md R29). -/
def commandClass (i : Instr) : CommandClass := if i.isArithmetic then .arithmetic else .plain

/-- Either a command ends in its fault, or it has none, and its ERR follows from its class and ST and its ZF from whether it
scanned zero. -/
theorem exec_flags (i : Instr) (s : State) :
    (∃ code, faultCode s i = some code ∧ exec i s = .next (s.takeFault code)) ∨
      faultCode s i = none ∧ ∃ t, exec i s = .next t ∧ t.status.err = completionErr (commandClass i) t.status.st ∧
        t.status.zf = zeroScan s i := by
  cases i with
  | vset | vmov | clrst | wadd | wsub | vadd | vsub | vshl | vshr | vand | vor | vxor | vnot | vnotm | vmulw | vmul =>
    exact .inr ⟨rfl, _, rfl, rfl, rfl⟩
  | vldw | vstw | vaddo | vsubo | vgetb | vsetb =>
    simp only [exec, execVldw, execVstw, execVaddo, execVsubo, execVgetb, execVsetb, State.wordIndexBad,
      State.bitIndexBad, decide_eq_true_eq, faultCode]
    split_ifs
    · exact .inl ⟨_, rfl, rfl⟩
    · exact .inr ⟨rfl, _, rfl, rfl, rfl⟩
  | wmul | vmuld | vdivw =>
    simp only [exec, execWmul, execVmuld, execVdivw, faultCode]
    split_ifs
    · exact .inl ⟨_, rfl, rfl⟩
    · exact .inr ⟨rfl, _, rfl, rfl, rfl⟩
  | vdiv =>
    simp only [exec, execVdiv, faultCode]
    split_ifs
    · exact .inl ⟨_, rfl, rfl⟩
    · exact .inl ⟨_, rfl, rfl⟩
    · exact .inr ⟨rfl, _, rfl, rfl, rfl⟩
  | wdiv =>
    simp only [exec, execWdiv, faultCode]
    split_ifs
    · exact .inl ⟨_, rfl, rfl⟩
    · exact .inl ⟨_, rfl, rfl⟩
    · exact .inl ⟨_, rfl, rfl⟩
    · exact .inr ⟨rfl, _, rfl, rfl, rfl⟩
  | vflb | vftb =>
    simp only [exec, execVflb, execVftb, faultCode]
    split_ifs with _ ha
    · exact .inl ⟨_, rfl, rfl⟩
    · exact .inr ⟨rfl, _, rfl, rfl, (decide_eq_true ha).symm⟩
    · exact .inr ⟨rfl, _, rfl, rfl, (decide_eq_false ha).symm⟩
  | vnorm d =>
    simp only [exec, execVnorm]
    split_ifs with hd
    · exact .inr ⟨rfl, _, rfl, rfl, (decide_eq_true hd).symm⟩
    · exact .inr ⟨rfl, _, rfl, rfl, (decide_eq_false hd).symm⟩

theorem isFault_of_faultCode {i : Instr} {s : State} {code : ErrCode} (h : faultCode s i = some code) :
    code.isFault = true := by
  cases i with
  | vldw | vstw | vaddo | vsubo | vgetb | vsetb | wmul | vmuld | vflb | vftb | vdivw =>
    obtain ⟨-, hcode⟩ := Option.ite_none_right_eq_some.1 h
    cases hcode
    rfl
  | wdiv | vdiv =>
    simp only [faultCode] at h
    split_ifs at h <;> cases h <;> rfl
  | _ => cases h

section
variable {i : Instr} {s t : State} (h : exec i s = .next t)
include h

/-- ERR shows a fault's code exactly when the command ends in that fault. -/
theorem err_eq_iff_faultCode {code : ErrCode} (hcode : code.isFault = true) :
    t.status.err = code ↔ faultCode s i = some code := by
  obtain ⟨code', hsome, hexec⟩ | ⟨hnone, t', hexec, herr, -⟩ := exec_flags i s
  · cases h.symm.trans hexec
    simp [hsome, Status.faulted]
  · cases h.symm.trans hexec
    have hno := isFault_completionErr (commandClass i) t.status.st
    simp only [hnone, reduceCtorEq, iff_false]
    rintro rfl
    rw [herr, hno] at hcode
    cases hcode

theorem err_eq_overflow_iff :
    t.status.err = .overflow ↔ i.isArithmetic = true ∧ t.status.err.isFault = false ∧ t.status.st = true := by
  obtain ⟨code, hsome, hexec⟩ | ⟨-, t', hexec, herr, -⟩ := exec_flags i s
  · cases h.symm.trans hexec
    have hfault := isFault_of_faultCode hsome
    refine iff_of_false ?_ fun hright => ?_
    · rintro rfl
      cases hfault
    · exact absurd (hfault.symm.trans hright.2.1) (by decide)
  · cases h.symm.trans hexec
    rw [herr, isFault_completionErr, commandClass]
    cases i.isArithmetic <;> cases t.status.st <;> decide

theorem zf_iff_zeroScan : t.status.zf = true ↔ faultCode s i = none ∧ zeroScan s i = true := by
  obtain ⟨code, hsome, hexec⟩ | ⟨hnone, t', hexec, -, hzf⟩ := exec_flags i s
  · cases h.symm.trans hexec
    simp [hsome, Status.faulted]
  · cases h.symm.trans hexec
    simp [hnone, hzf]

end

theorem faultCode_eq_illegalCommand_iff (s : State) (i : Instr) :
    faultCode s i = some .illegalCommand ↔ ¬ i.wellFormed := by
  cases i with
  | wdiv | vdiv =>
    simp only [faultCode, Instr.wellFormed, Instr.flaw]
    split_ifs <;> simp
  | _ => simp [faultCode, Instr.wellFormed, Instr.flaw]

theorem faultCode_eq_improperArgument_iff (s : State) (i : Instr) :
    faultCode s i = some .improperArgument ↔
      (∃ d a b, (i = .vldw d a b ∨ i = .vstw d a b ∨ i = .vaddo d a b ∨ i = .vsubo d a b) ∧ s.N ≤ s.S b) ∨
      ∃ d b, (i = .vgetb d b ∨ i = .vsetb d b) ∧ s.M ≤ s.S b := by
  cases i with
  | wdiv | vdiv =>
    simp only [faultCode]
    split_ifs <;> simp
  | _ => simp [faultCode]

theorem faultCode_eq_divByZero_iff (s : State) (i : Instr) :
    faultCode s i = some .divByZero ↔ i.wellFormed ∧
      ((∃ d b c, i = .vdivw d b c ∧ s.S b = 0) ∨ (∃ d b c g, i = .vdiv d b c g ∧ s.V b = 0) ∨
        ∃ d c a b e, i = .wdiv d c a b e ∧ s.S e = 0) := by
  cases i with
  | wdiv | vdiv =>
    simp only [faultCode, Instr.wellFormed, Instr.flaw]
    split_ifs <;> simp [*]
  | _ => simp [faultCode, Instr.wellFormed, Instr.flaw]

theorem faultCode_eq_divideFault_iff (s : State) (i : Instr) :
    faultCode s i = some .divideFault ↔
      i.wellFormed ∧ ∃ d c a b e, i = .wdiv d c a b e ∧ 0 < s.S e ∧ s.S e ≤ s.S a := by
  cases i with
  | wdiv | vdiv =>
    simp only [faultCode, Instr.wellFormed, Instr.flaw]
    split_ifs <;> simp [*, Nat.pos_iff_ne_zero]
  | _ => simp [faultCode, Instr.wellFormed, Instr.flaw]

/-- Settles O21: the fault's code names its check, and without a fault ERR follows from the command's class and ST. -/
theorem conditionsAreReportedWithTheirCodes : Obligations.ConditionsAreReportedWithTheirCodes := fun i s _ h =>
  ⟨(err_eq_iff_faultCode h rfl).trans (faultCode_eq_illegalCommand_iff s i),
    (err_eq_iff_faultCode h rfl).trans (faultCode_eq_improperArgument_iff s i),
    (err_eq_iff_faultCode h rfl).trans (faultCode_eq_divByZero_iff s i),
    (err_eq_iff_faultCode h rfl).trans (faultCode_eq_divideFault_iff s i), err_eq_overflow_iff h⟩

theorem zeroScan_iff (s : State) (i : Instr) :
    faultCode s i = none ∧ zeroScan s i = true ↔ i.wellFormed ∧
      ((∃ d c a, (i = .vflb d c a ∨ i = .vftb d c a) ∧ s.V a = 0) ∨ ∃ d c, i = .vnorm d c ∧ s.V d = 0) := by
  cases i <;> simp [faultCode, zeroScan, Instr.wellFormed, Instr.flaw]

/-- Settles O23: a command without a fault leaves in ZF whether it scanned zero, and a fault clears ZF. -/
theorem zfOnlyMarksAZeroScan : Obligations.ZfOnlyMarksAZeroScan := fun i s _ h =>
  (zf_iff_zeroScan h).trans (zeroScan_iff s i)

/-! ### Nothing stops the block (60_exceptions.md R150, R154) -/

theorem engineTurn_next (s : State) : ∃ t, engineTurn s = .next t := by
  obtain ⟨t, h, -⟩ := engineTurn_completes s
  exact ⟨t, h⟩

theorem step_next (s : State) : ∃ t, step s = .next t := by
  unfold step
  cases s.turns with
  | nil => exact engineTurn_next s
  | cons turn rest =>
    cases turn with
    | engine => exact engineTurn_next _
    | host op => exact ⟨_, rfl⟩

/-- Settles O17: each way a command ends leaves `BUSY = 0`, and each turn is a command's end, a pass or a transaction. -/
theorem everyStepAnswersANextState : Obligations.EveryStepAnswersANextState := by
  refine ⟨fun i s => ?_, step_next⟩
  obtain ⟨t, hexec, hends⟩ := exec_ends i s
  exact ⟨t, hexec, State.busy_eq_false hends.idle⟩

/-! ### What clears STICKY -/

theorem Ends.keeps_sticky {i : Instr} {s t : State} (h : Ends i s t) (hi : i ≠ .clrst)
    (hsticky : s.status.sticky = true) : t.status.sticky = true := by
  cases h with
  | fault _ => exact (faulted_takeFault ..).stickyIs
  | clear hclrst => exact absurd hclrst hi
  | done cls st zf hw _ =>
    obtain ⟨-, hstatus, -⟩ := hw.rest_kept
    rw [(completed_complete hstatus cls st zf).stickyIs, hsticky, Bool.true_or]

theorem runCommand_keeps_sticky {x : Nat} {s t : State} (h : runCommand x s = .next t)
    (hx : decodeCommand s.params.width x ≠ .ok .clrst) (hsticky : s.status.sticky = true) : t.status.sticky = true := by
  obtain ⟨-, rfl⟩ | ⟨i, hi, hexec⟩ := runCommand_cases h
  · exact (faulted_takeFault ..).stickyIs
  · refine (ends_of_exec hexec).keeps_sticky ?_ hsticky
    rintro rfl
    exact hx hi

theorem State.hostTurn_keeps_sticky {s : State} {op : PortOp} (hop : op ≠ .reset) (h : s.status.sticky = true) :
    (s.hostTurn op).status.sticky = true := by
  cases op with
  | read _ => exact h
  | write a x =>
    rw [hostTurn]
    obtain e | e := s.hostWrite_status a x
    · exact e ▸ h
    · exact e ▸ h
  | reset => exact absurd rfl hop

/-- A step keeps STICKY set unless the host asserts reset in it or CLRST completes in it. -/
theorem step_keeps_sticky {s t : State} (h : step s = .next t) (hsticky : s.status.sticky = true)
    (hreset : ¬ ResetNext s) (hclrst : ¬ CompletesNext s .clrst) : t.status.sticky = true := by
  obtain ⟨-, -, rfl⟩ | ⟨x, hx, hengine, hrun⟩ | ⟨op, rest, hturns, rfl⟩ := step_cases h
  · exact hsticky
  · exact runCommand_keeps_sticky hrun (fun hdecode => hclrst ⟨hengine, x, hx, hdecode⟩) hsticky
  · refine State.hostTurn_keeps_sticky ?_ hsticky
    rintro rfl
    exact hreset ⟨rest, hturns⟩

/-- Settles O22: every other step keeps STICKY and OVR set. -/
theorem onlyClrstAndResetClearTheRecord : Obligations.OnlyClrstAndResetClearTheRecord := by
  intro s t hstep hcleared
  by_contra hneither
  obtain ⟨hreset, hclrst⟩ := not_or.mp hneither
  obtain ⟨hset, hclear⟩ | ⟨hset, hclear⟩ := hcleared
  · exact absurd (step_keeps_sticky hstep hset hreset hclrst) (Bool.eq_false_iff.mp hclear)
  · exact absurd (step_keeps_ovr hstep hset hreset hclrst) (Bool.eq_false_iff.mp hclear)

end Sys2Proof.Machine
end

section
/-! SUPPORT. The port, the engine's turn and reset (20_memory.md, 10_state.md, 70_reset_and_hazards.md): what a step does to the
registers, which turn runs the command in flight, and that its completion depends neither on the turns nor on the host's record. -/

namespace Sys2Proof.Machine

/-! ### The engine's turn -/

@[simp] theorem State.withTurns_self (s : State) : s.withTurns s.turns = s := rfl

theorem step_of_engineNext {s : State} (h : EngineNext s) : step s = engineTurn (s.withTurns s.turns.tail) := by
  obtain hnil | ⟨rest, hturns⟩ := h
  · have htail : s.turns.tail = s.turns := by rw [hnil]; rfl
    rw [htail, State.withTurns_self, step, hnil]
  · rw [step_engine hturns, hturns, List.tail_cons]

theorem engineTurn_of_idle {s : State} (h : s.inFlight = none) : engineTurn s = .next s := by
  rw [engineTurn, h]

theorem engineTurn_of_inFlight {s : State} {x : Nat} (h : s.inFlight = some x) : engineTurn s = runCommand x s := by
  rw [engineTurn, h]

theorem runCommand_of_ok {s : State} {x : Nat} {i : Instr} (h : decodeCommand s.params.width x = .ok i) :
    runCommand x s = exec i s := by
  rw [runCommand, h]

theorem runCommand_of_illegal {s : State} {x : Nat} (h : IllegalCommandWord s.params.width x) :
    runCommand x s = .next (s.takeFault .illegalCommand) := by
  obtain ⟨why, hwhy⟩ := (decodeCommand_refuses_iff s.params.width x).2 h
  rw [runCommand, hwhy]

theorem engineTurn_of_decoded {s : State} {x : Nat} {i : Instr} (hx : s.inFlight = some x)
    (hi : decodeCommand s.params.width x = .ok i) : engineTurn s = exec i s :=
  (engineTurn_of_inFlight hx).trans (runCommand_of_ok hi)

theorem decodeCommand_of_lt (width : WordWidth) {w : Nat} (hw : w < 2 ^ 32) :
    decodeCommand width w = decode (BitVec.ofNat 32 w) := by
  rw [decodeCommand, if_neg fun h => h.2 (Nat.div_eq_of_lt hw)]

/-- Settles O7: the engine's turn runs what the value in flight decodes to; `withFetchWord` puts that turn next and its word in
flight. -/
theorem stepRunsDecodedCommand : Obligations.StepRunsDecodedCommand := by
  refine ⟨fun s x i hx hi => ⟨fun hturns => ?_, fun rest hturns => ?_⟩, fun s x hx hnext hillegal => ?_,
    fun s w i hw hi => ?_⟩
  · rw [step, hturns]
    exact engineTurn_of_decoded hx hi
  · exact (step_engine hturns).trans (engineTurn_of_decoded hx hi)
  · refine ⟨_, ?_, faulted_takeFault _ .illegalCommand⟩
    exact (step_of_engineNext hnext).trans
      ((engineTurn_of_inFlight (s := s.withTurns s.turns.tail) hx).trans (runCommand_of_illegal hillegal))
  · have hmod : w % 2 ^ 32 = w := Nat.mod_eq_of_lt hw
    rw [State.withFetchWord, hmod, step_engine rfl]
    exact engineTurn_of_decoded rfl ((decodeCommand_of_lt _ hw).trans hi)

/-- Settles O8: without a command in flight the engine's turn keeps the state. -/
theorem idleBlockKeepsEveryRegister : Obligations.IdleBlockKeepsEveryRegister := by
  intro s hidle hnext
  exact ⟨State.busy_eq_false hidle,
    (step_of_engineNext hnext).trans (engineTurn_of_idle (s := s.withTurns s.turns.tail) hidle)⟩

/-! ### What changes a register (10_state.md R20 to R22, 20_memory.md R52) -/

/-- Every register and every set-mark is as it was. -/
structure SameRegisters (s t : State) : Prop where
  vregs : t.vregs = s.vregs
  sregs : t.sregs = s.sregs
  vmarks : t.vmarks = s.vmarks
  smarks : t.smarks = s.smarks

/-- The host writes S register `k` in this step, and the block takes the write. -/
def WritesNext (s : State) (k : SReg) : Prop := s.busy = false ∧ ∃ x rest, s.turns = .host (.write (8 + k.val) x) :: rest

theorem State.hostWrite_registers (s : State) (a x : Nat) :
    SameRegisters s (s.hostWrite a x) ∨
      ∃ k : SReg, a = 8 + k.val ∧ s.busy = false ∧ s.hostWrite a x = s.setS k x true := by
  obtain rfl | rfl | rfl | ⟨k, rfl⟩ | ⟨h2, ha⟩ := portAddr_cases a
  · rw [hostWrite_cmd]
    split
    · exact .inl ⟨rfl, rfl, rfl, rfl⟩
    · exact .inl ⟨rfl, rfl, rfl, rfl⟩
  · exact .inl ⟨rfl, rfl, rfl, rfl⟩
  · exact .inl ⟨rfl, rfl, rfl, rfl⟩
  · cases hb : s.busy with
    | true => exact .inl (by simpa [hb] using ⟨rfl, rfl, rfl, rfl⟩)
    | false => exact .inr ⟨k, rfl, rfl, by simp [hb]⟩
  · rw [s.hostWrite_ignored x (by omega) ha]
    exact .inl ⟨rfl, rfl, rfl, rfl⟩

theorem State.wordIsSet_hostReset (s : State) (r : VReg) (j : Nat) : s.hostReset.wordIsSet r j = false := by
  rw [wordIsSet, hostReset_vmarks, Regs8.get_const, List.getD_eq_getElem?_getD,
    List.getElem?_getD_replicate_default_eq]

theorem State.sIsSet_hostReset (s : State) (r : SReg) : s.hostReset.sIsSet r = false := by
  rw [sIsSet, hostReset_smarks, Regs8.get_const]

/-- What a step can do to the registers: nothing, reset them, take a host's write of one, or end a command. -/
theorem step_registers {s t : State} (h : step s = .next t) :
    SameRegisters s t ∨ (ResetNext s ∧ t = (s.withTurns s.turns.tail).hostReset) ∨
      (∃ k x, WritesNext s k ∧ t = (s.withTurns s.turns.tail).setS k x true) ∨
      ∃ i, CompletesNext s i ∧ Ends i (s.withTurns s.turns.tail) t := by
  obtain ⟨-, -, rfl⟩ | ⟨x, hx, hnext, hrun⟩ | ⟨op, rest, hturns, rfl⟩ := step_cases h
  · exact .inl ⟨rfl, rfl, rfl, rfl⟩
  · obtain ⟨-, rfl⟩ | ⟨i, hi, hexec⟩ := runCommand_cases hrun
    · exact .inl ⟨rfl, rfl, rfl, rfl⟩
    · exact .inr (.inr (.inr ⟨i, ⟨hnext, x, hx, hi⟩, ends_of_exec hexec⟩))
  · rw [hturns]
    cases op with
    | read a => exact .inl ⟨rfl, rfl, rfl, rfl⟩
    | reset => exact .inr (.inl ⟨⟨rest, hturns⟩, rfl⟩)
    | write a x =>
      obtain ⟨hv, hs, hvm, hsm⟩ | ⟨k, rfl, hb, hw⟩ := (s.withTurns rest).hostWrite_registers a x
      · exact .inl ⟨hv, hs, hvm, hsm⟩
      · exact .inr (.inr (.inl ⟨k, x, ⟨hb, x, rest, hturns⟩, hw⟩))

namespace Ends

variable {i : Instr} {s t : State} (h : Ends i s t)
include h

theorem word_set {r : VReg} {j : Nat} (hs : s.wordIsSet r j = false) (ht : t.wordIsSet r j = true) :
    r ∈ i.vWrites ∧ operandsSet i s = true := by
  cases h with
  | fault _ | clear _ => exact absurd ht (Bool.eq_false_iff.1 hs)
  | done cls st zf hw _ =>
    obtain hset | ⟨hknown, hr⟩ := hw.word_set ht
    · exact absurd hset (Bool.eq_false_iff.1 hs)
    · exact ⟨hr, hknown⟩

theorem sreg_set {r : SReg} (hs : s.sIsSet r = false) (ht : t.sIsSet r = true) :
    r ∈ i.sWrites ∧ operandsSet i s = true := by
  cases h with
  | fault _ | clear _ => exact absurd ht (Bool.eq_false_iff.1 hs)
  | done cls st zf hw _ =>
    obtain hset | ⟨hknown, hr⟩ := hw.sreg_set ht
    · exact absurd hset (Bool.eq_false_iff.1 hs)
    · exact ⟨hr, hknown⟩

/-- What a command with an unset operand changed is not set after it (log entry 23). -/
theorem changed_unset (hs : s.wf) (hunset : operandsSet i s = false) :
    (∀ r j, t.word r j ≠ s.word r j → t.wordIsSet r j = false) ∧ ∀ r, t.S r ≠ s.S r → t.sIsSet r = false := by
  cases h with
  | fault _ | clear _ => exact ⟨fun _ _ hne => absurd rfl hne, fun _ hne => absurd rfl hne⟩
  | done cls st zf hw _ =>
    rw [hunset] at hw
    exact ⟨fun _ _ hne => hw.word_changed hs hne, fun _ hne => hw.sreg_changed hne⟩

end Ends

/-- Settles O25: a step does one of four things to the registers; the value of a register outside a command's destinations is
kept, and a reset sets nothing. -/
theorem registersChangeOnlyByCommandHostWriteOrReset : Obligations.RegistersChangeOnlyByCommandHostWriteOrReset := by
  intro s t hstep
  refine ⟨fun r hne => ?_, fun r hne => ?_, fun r j hs ht => ?_, fun r hs ht => ?_, fun i hs hnext hunset => ?_⟩
  · obtain hsame | ⟨hreset, -⟩ | ⟨k, x, -, rfl⟩ | ⟨i, hnext, hends⟩ := step_registers hstep
    · exact absurd (congrArg (·.get r) hsame.vregs) hne
    · exact .inl hreset
    · exact absurd rfl hne
    · exact .inr ⟨i, hnext, by_contra fun hr => hne (hends.frame.vKept r hr)⟩
  · obtain hsame | ⟨hreset, -⟩ | ⟨k, x, hwrite, rfl⟩ | ⟨i, hnext, hends⟩ := step_registers hstep
    · exact absurd (congrArg (·.get r) hsame.sregs) hne
    · exact .inl hreset
    · obtain rfl : r = k := by_contra fun hrk => hne ((State.S_setS ..).trans (if_neg hrk))
      exact .inr (.inr hwrite)
    · exact .inr (.inl ⟨i, hnext, by_contra fun hr => hne (hends.frame.sKept r hr)⟩)
  · obtain hsame | ⟨-, rfl⟩ | ⟨k, x, -, rfl⟩ | ⟨i, hnext, hends⟩ := step_registers hstep
    · rw [State.wordIsSet, hsame.vmarks] at ht
      exact absurd ht (Bool.eq_false_iff.1 hs)
    · rw [State.wordIsSet_hostReset] at ht
      cases ht
    · exact absurd ht (Bool.eq_false_iff.1 hs)
    · exact ⟨i, hnext, hends.word_set hs ht⟩
  · obtain hsame | ⟨-, rfl⟩ | ⟨k, x, hwrite, rfl⟩ | ⟨i, hnext, hends⟩ := step_registers hstep
    · rw [State.sIsSet, hsame.smarks] at ht
      exact absurd ht (Bool.eq_false_iff.1 hs)
    · rw [State.sIsSet_hostReset] at ht
      cases ht
    · by_cases hrk : r = k
      · exact .inr (hrk ▸ hwrite)
      · rw [State.sIsSet_setS, if_neg hrk] at ht
        exact absurd ht (Bool.eq_false_iff.1 hs)
    · exact .inl ⟨i, hnext, hends.sreg_set hs ht⟩
  · obtain ⟨hengine, x, hx, hi⟩ := hnext
    have hexec : exec i (s.withTurns s.turns.tail) = .next t :=
      (engineTurn_of_decoded (s := s.withTurns s.turns.tail) hx hi).symm.trans ((step_of_engineNext hengine).symm.trans hstep)
    exact (ends_of_exec hexec).changed_unset (State.withTurns_wf hs _) hunset

/-! ### Host transactions while `BUSY = 0` (20_memory.md R44, R45, R48) -/

/-- Settles O9: the transaction is a write at an address of the port map, which issues, sets an S register or is ignored. -/
theorem hostWriteWhileIdle : Obligations.HostWriteWhileIdle := by
  intro s addr x rest hturns
  refine ⟨fun hidle => ⟨_, step_host hturns, ?_, fun k hk => ?_⟩, fun h0 haddr => ?_⟩
  · rintro rfl
    rw [State.hostTurn, State.hostWrite_cmd, State.busy_withTurns, State.busy_eq_false hidle]
    exact ⟨rfl, rfl⟩
  · subst hk
    rw [State.hostTurn, State.hostWrite_sreg, State.busy_withTurns, State.busy_eq_false hidle]
    refine ⟨setsS_setS .., fun q hq => ?_, rfl⟩
    exact ⟨(State.S_setS ..).trans (if_neg hq), (State.sIsSet_setS ..).trans (if_neg hq)⟩
  · rw [step_host hturns, State.hostTurn, State.hostWrite_ignored _ x h0 haddr]
    rfl

/-- Settles O11: the value read is what the port map puts at the address. -/
theorem hostReadWhileIdle : Obligations.HostReadWhileIdle := by
  intro s addr rest hturns hidle
  have hb : (s.withTurns rest).busy = false := State.busy_eq_false hidle
  refine ⟨_, step_host hturns, ?_, ?_, ?_, fun k hk => ?_, fun h2 haddr => State.portValue_reserved _ h2 haddr⟩
  · rintro rfl
    rfl
  · rintro rfl
    rw [State.portValue, portReg_status, hb]
    rfl
  · rintro rfl
    exact State.portValue_config _
  · rw [hk, State.portValue_sreg, hb]
    rfl

/-- BUSY and OVR of STATUS as read while `BUSY = 1`. -/
theorem Status.busyWord_fields (x : Status) (free : Nat) :
    x.busyWord free / 128 = 1 ∧ x.busyWord free / 64 % 2 = x.ovr.toNat := by
  have hovr : x.ovr.toNat ≤ 1 := Bool.toNat_le x.ovr
  rw [busyWord]
  omega

/-- Settles O12: what is exact does not depend on the free value, and an S register reads as a free value cut to `W` bits. -/
theorem hostReadWhileBusy : Obligations.HostReadWhileBusy := by
  intro s addr y rest hturns hf
  have hb : (s.withTurns rest).busy = true := State.busy_eq_true hf
  refine ⟨_, step_host hturns, ?_, ?_, ?_, fun h8 h16 => ?_, fun h2 haddr => State.portValue_reserved _ h2 haddr⟩
  · rintro rfl
    rfl
  · rintro rfl
    rw [State.portValue, portReg_status, hb]
    exact Status.busyWord_fields ..
  · rintro rfl
    exact State.portValue_config _
  · obtain ⟨k, rfl, -⟩ := portReg_of_sreg_range h8 h16
    rw [State.portValue_sreg, hb]
    exact Nat.mod_lt _ (Nat.two_pow_pos _)

/-- Settles O16: the fields of STATUS do not overlap. -/
theorem statusWordHoldsItsFields : Obligations.StatusWordHoldsItsFields := by
  intro x busy
  have hst := Bool.toNat_le x.st
  have hzf := Bool.toNat_le x.zf
  have hsticky := Bool.toNat_le x.sticky
  have hovr := Bool.toNat_le x.ovr
  have herr : x.err.code ≤ 5 := by cases x.err <;> decide
  rw [Status.word]
  omega

/-! ### Reset (10_state.md R30, 70_reset_and_hazards.md R170, R171) -/

/-- Settles O13: a reset gives each register a free value cut to its width and no register a mark. -/
theorem hostResetClearsTheBlock : Obligations.HostResetClearsTheBlock := fun s rest hturns =>
  ⟨(s.withTurns rest).hostReset, step_host hturns, rfl, rfl, rfl, State.wordIsSet_hostReset _, State.sIsSet_hostReset _,
    fun r => by simp [State.V, Nat.mod_lt], fun r => by simp [State.S, Nat.mod_lt], rfl, rfl⟩

theorem State.wordIsSet_resetOf (p : Params) (r : VReg) (j : Nat) : (State.resetOf p).wordIsSet r j = false := by
  rw [wordIsSet, resetOf, Regs8.get_const, List.getD_eq_getElem?_getD, List.getElem?_getD_replicate_default_eq]

/-- Settles O14: every field of STATUS is 0, every register file the same everywhere. -/
theorem resetStateHoldsTheStatedValues : Obligations.ResetStateHoldsTheStatedValues :=
  ⟨fun p => ⟨rfl, rfl, State.wordIsSet_resetOf p, Regs8.get_const _, Regs8.get_const _, Regs8.get_const _⟩, rfl⟩

/-! ### Completion (70_reset_and_hazards.md R173, R176) -/

/-- From every state the block is idle within one step more than there are turns left: a turn of the engine's completes the
command in flight, and each turn of the host's is one turn less. -/
theorem run_to_idle (ts : List Turn) : ∀ s : State, s.turns = ts →
    ∃ k t, k ≤ ts.length + 1 ∧ core.run k s = .next t ∧ t.busy = false := by
  induction ts with
  | nil =>
    intro s hturns
    obtain ⟨t, ht, hidle, -⟩ := engineTurn_completes s
    have hstep : step s = .next t := by rw [step, hturns]; exact ht
    exact ⟨1, t, le_rfl, run_succ hstep 0, State.busy_eq_false hidle⟩
  | cons turn rest ih =>
    intro s hturns
    cases turn with
    | engine =>
      obtain ⟨t, ht, hidle, -⟩ := engineTurn_completes (s.withTurns rest)
      exact ⟨1, t, Nat.le_add_left .., run_succ ((step_engine hturns).trans ht) 0, State.busy_eq_false hidle⟩
    | host op =>
      obtain ⟨k, t, hk, hrun, hidle⟩ := ih ((s.withTurns rest).hostTurn op) (State.turns_hostTurn ..)
      exact ⟨k + 1, t, Nat.succ_le_succ hk, (run_succ (step_host hturns) k).trans hrun, hidle⟩

/-- Settles O27: `run_to_idle` at the turns of the state. -/
theorem everyIssuedCommandEnds : Obligations.EveryIssuedCommandEnds := fun s _ _ => run_to_idle s.turns s rfl

/-- The state with another record of the host's reads. -/
def State.withReads (s : State) (rs : List PortRead) : State := { s with reads := rs }

/-- Two answers that differ in the record of the host's reads alone, which is `rs` in the second. -/
abbrev SameButReads (rs : List PortRead) : Result → Result → Prop := BothNext fun t t' => t' = t.withReads rs

/-- No command reads the host's record of its reads. -/
theorem exec_withReads (i : Instr) (s : State) (rs : List PortRead) :
    SameButReads rs (exec i s) (exec i (s.withReads rs)) := by
  cases i with
  | vset | vmov | clrst | wadd | wsub | vadd | vsub | vshl | vshr | vand | vor | vxor | vnot | vnotm | vmulw | vmul =>
    exact ⟨_, _, rfl, rfl, rfl⟩
  | vldw | vstw | vaddo | vsubo | vgetb | vsetb | wmul | vmuld | vdivw | vnorm =>
    exact .ite ⟨_, _, rfl, rfl, rfl⟩ ⟨_, _, rfl, rfl, rfl⟩
  | vdiv | vflb | vftb =>
    exact .ite ⟨_, _, rfl, rfl, rfl⟩ (.ite ⟨_, _, rfl, rfl, rfl⟩ ⟨_, _, rfl, rfl, rfl⟩)
  | wdiv =>
    exact .ite ⟨_, _, rfl, rfl, rfl⟩
      (.ite ⟨_, _, rfl, rfl, rfl⟩ (.ite ⟨_, _, rfl, rfl, rfl⟩ ⟨_, _, rfl, rfl, rfl⟩))

theorem runCommand_withReads (x : Nat) (s : State) (rs : List PortRead) :
    SameButReads rs (runCommand x s) (runCommand x (s.withReads rs)) := by
  have hparams : (s.withReads rs).params = s.params := rfl
  unfold runCommand
  rw [hparams]
  cases decodeCommand s.params.width x with
  | error _ => exact ⟨_, _, rfl, rfl, rfl⟩
  | ok i => exact exec_withReads i s rs

/-- Host reads add to the host's record, and the run goes on from the state with their turns taken. -/
theorem run_hostReads (addrs : List Nat) (ts : List Turn) (k : Nat) : ∀ s : State,
    s.turns = addrs.map (fun a => .host (.read a)) ++ ts →
    ∃ rs, rs.length = s.reads.length + addrs.length ∧
      core.run (addrs.length + k) s = core.run k ((s.withTurns ts).withReads rs) := by
  induction addrs with
  | nil =>
    intro s hturns
    cases (hturns : s.turns = ts)
    exact ⟨s.reads, rfl, by rw [List.length_nil, Nat.zero_add]; rfl⟩
  | cons a addrs ih =>
    intro s hturns
    obtain ⟨rs, hlength, hrun⟩ := ih ((s.withTurns (addrs.map (fun a => .host (.read a)) ++ ts)).hostRead a) rfl
    refine ⟨rs, ?_, ?_⟩
    · rw [hlength, State.hostRead_reads, List.length_cons, List.length_cons]
      exact Nat.add_right_comm ..
    · rw [List.length_cons, Nat.add_right_comm]
      exact (run_succ (step_host hturns) _).trans hrun

/-- Settles O28: the reads change the host's record alone, and the completion does not depend on it. -/
theorem readsBetweenIssueAndCompletionChangeNothing : Obligations.ReadsBetweenIssueAndCompletionChangeNothing := by
  intro s x addrs rest hf hturns
  obtain ⟨rs, hlength, hrun⟩ := run_hostReads addrs (.engine :: rest) 1 s hturns
  obtain ⟨t', t, ht', ht, rfl⟩ := runCommand_withReads x (s.withTurns rest) rs
  have hlast : step ((s.withTurns (.engine :: rest)).withReads rs) = .next (t'.withReads rs) :=
    (step_engine rfl).trans ((engineTurn_of_inFlight (s := (s.withTurns rest).withReads rs) hf).trans ht)
  have halone : step (s.withTurns (.engine :: rest)) = .next t' :=
    (step_engine rfl).trans ((engineTurn_of_inFlight (s := s.withTurns rest) hf).trans ht')
  exact ⟨t'.withReads rs, t', hrun.trans (run_succ hlast 0), halone, rfl, hlength⟩

end Sys2Proof.Machine
end

section
/-! SUPPORT. The multiply algorithms (44_multiply.md R130, R135 to R137): a value is the sum of its words in their places, the
word-serial form, schoolbook and Karatsuba are each exact, and VMULW and VMUL narrow the product. -/

namespace Sys2Proof.Machine

/-! ### VMULW and VMUL (R130, R133) -/

/-- A product has a carry out exactly when its part above the register is non-zero. -/
theorem carryOut_eq_decide_div (k p : Nat) : carryOut k p = decide (p / 2 ^ k ≠ 0) := by
  have h : 2 ^ k ≤ p ↔ p / 2 ^ k ≠ 0 := by simp [Nat.div_eq_zero_iff]
  simp only [carryOut, h]

/-- Settles O49: the register cuts the product to `M` bits, and the carry out says whether that lost anything. -/
theorem vmulwAndVmulNarrowTheProduct : Obligations.VmulwAndVmulNarrowTheProduct := by
  refine fun s => ⟨fun d b => ⟨decode_assemble_encodeFields (.vmulw d b) rfl, _, rfl, ?_⟩,
    fun d b g => ⟨decode_assemble_encodeFields (.vmul d b g) rfl, _, rfl, ?_⟩⟩
  · rw [← carryOut_eq_decide_div]
    exact setV_complete_mod ..
  · rw [← carryOut_eq_decide_div]
    exact setV_complete_mod ..

/-! ### One word at a time (R130) -/

theorem addWords_low_lt (W a b : Nat) (c : Bool) : (addWords W a b c).1 < 2 ^ W := Nat.mod_lt _ (Nat.two_pow_pos W)

/-- One step of MulSingleWord: the word it leaves and the carry word it passes on are the product of two words with the
carry word that came in, which two words hold. -/
theorem mulWord_step_exact {W a b c : Nat} (ha : a < 2 ^ W) (hb : b < 2 ^ W) (hc : c < 2 ^ W) :
    ((mulWords W a b).1 + (addWords W (mulWords W a b).2 c false).2.toNat) * 2 ^ W
        + (addWords W (mulWords W a b).2 c false).1 = a * b + c ∧
      (mulWords W a b).1 + (addWords W (mulWords W a b).2 c false).2.toNat < 2 ^ W := by
  have hadd := addWords_exact W (a := (mulWords W a b).2) (b := c) false (Nat.mod_lt _ (Nat.two_pow_pos W)) hc
  have hmul := mulWords_exact W a b
  rw [Bool.toNat_false, Nat.add_zero] at hadd
  have hsum : ((mulWords W a b).1 + (addWords W (mulWords W a b).2 c false).2.toNat) * 2 ^ W
      + (addWords W (mulWords W a b).2 c false).1 = a * b + c := by
    rw [Nat.add_mul]
    omega
  refine ⟨hsum, ?_⟩
  have hbound : a * b + c < 2 ^ W * 2 ^ W := by
    calc a * b + c < a * 2 ^ W + 2 ^ W := Nat.add_lt_add_of_le_of_lt (Nat.mul_le_mul_left a hb.le) hc
      _ = (a + 1) * 2 ^ W := (Nat.succ_mul ..).symm
      _ ≤ 2 ^ W * 2 ^ W := Nat.mul_le_mul_right _ ha
  rw [← hsum] at hbound
  exact Nat.lt_of_mul_lt_mul_right (Nat.lt_of_le_of_lt (Nat.le_add_right ..) hbound)

/-- MulSingleWord over the words from `k` up to `k + count` is exact, and its words stand between those places. -/
theorem mulWordSerial_exact {W b : Nat} (hb : b < 2 ^ W) (x count k c : Nat) (hc : c < 2 ^ W) :
    (mulWordSerial W x b count k c).1 + (mulWordSerial W x b count k c).2 * 2 ^ (W * (k + count))
        + x % 2 ^ (W * k) * b = x % 2 ^ (W * (k + count)) * b + c * 2 ^ (W * k) ∧
      (mulWordSerial W x b count k c).1 + 2 ^ (W * k) ≤ 2 ^ (W * (k + count)) := by
  induction count generalizing k c with
  | zero => simp [mulWordSerial, Nat.add_comm]
  | succ count ih =>
    obtain ⟨hstep, hcarry⟩ := mulWord_step_exact (wordAt_lt W x k) hb hc
    obtain ⟨hrest, hrange⟩ := ih (k + 1) _ hcarry
    have hlow := word_placed_add_le (addWords_low_lt W (mulWords W (wordAt W x k) b).2 c false) k
    have hplace : k + 1 + count = k + (count + 1) := by omega
    rw [hplace, mod_pow_succ W x k] at hrest
    rw [hplace] at hrange
    simp only [mulWordSerial]
    constructor
    · zify at hrest hstep ⊢
      linear_combination hrest + 2 ^ (W * k) * hstep
    · omega

/-- MulSingleWord over all words gives the product in `N` words and the carry word above them. -/
theorem mulWordSerial_eq {W N x b : Nat} (hx : x < 2 ^ (W * N)) (hb : b < 2 ^ W) :
    mulWordSerial W x b N 0 0 = (x * b % 2 ^ (W * N), x * b / 2 ^ (W * N)) := by
  obtain ⟨hexact, hrange⟩ := mulWordSerial_exact hb x N 0 0 (Nat.two_pow_pos W)
  rw [Nat.zero_add, Nat.mod_eq_of_lt hx, Nat.mul_zero, Nat.pow_zero, Nat.mod_one, Nat.zero_mul, Nat.zero_mul,
    Nat.mul_comm _ (2 ^ (W * N))] at hexact
  rw [Nat.zero_add, Nat.mul_zero, Nat.pow_zero] at hrange
  obtain ⟨hdiv, hmod⟩ := (Nat.div_mod_unique (Nat.two_pow_pos (W * N))).2 ⟨hexact, hrange⟩
  exact Prod.ext hmod.symm hdiv.symm

/-- A division digit by digit: what is left of a first digit goes on into the next with the digits below. -/
theorem div_mod_append {d : Nat} (hd : 0 < d) (n P lo : Nat) :
    n / d * P + (n % d * P + lo) / d = (n * P + lo) / d ∧ (n % d * P + lo) % d = (n * P + lo) % d := by
  have hsplit : n * P + lo = n % d * P + lo + d * (n / d * P) := by
    conv_lhs => rw [← Nat.div_add_mod n d]
    ring
  rw [hsplit, Nat.add_mul_div_left _ _ hd, Nat.add_mul_mod_self_left]
  exact ⟨Nat.add_comm .., rfl⟩

/-- DivSingleWord of a running remainder and the words below `count` gives quotient and remainder of the value they form. -/
theorem divWordSerial_eq {W d r : Nat} (hr : r < d) (x count : Nat) :
    divWordSerial W x d count r =
      ((r * 2 ^ (W * count) + x % 2 ^ (W * count)) / d, (r * 2 ^ (W * count) + x % 2 ^ (W * count)) % d) := by
  have hd : 0 < d := Nat.zero_lt_of_lt hr
  induction count generalizing r with
  | zero => simp [divWordSerial, Nat.mod_one, Nat.div_eq_of_lt hr, Nat.mod_eq_of_lt hr]
  | succ count ih =>
    obtain ⟨hdiv, hmod⟩ := div_mod_append hd (r * 2 ^ W + wordAt W x count) (2 ^ (W * count)) (x % 2 ^ (W * count))
    have hform : r * 2 ^ (W * (count + 1)) + x % 2 ^ (W * (count + 1)) =
        (r * 2 ^ W + wordAt W x count) * 2 ^ (W * count) + x % 2 ^ (W * count) := by
      rw [mod_pow_succ]
      ring
    rw [divWordSerial, divDoubleWord, ih (Nat.mod_lt _ hd), hform]
    exact Prod.ext hdiv hmod

/-- Settles O52: each word operation is exact, by induction over the words; the multiplier goes upward with its carry word, the
divider downward with its remainder. -/
theorem wordSerialMultiplyAndDivideAreExact : Obligations.WordSerialMultiplyAndDivideAreExact := by
  refine fun W N x b hx hb => ⟨mulWordSerial_eq hx hb, fun hpos => ?_⟩
  rw [divWordSerial_eq hpos, Nat.zero_mul, Nat.zero_add, Nat.mod_eq_of_lt hx]

/-! ### The significant span (00_scope.md R14) -/

/-- The value of word `i` in its place. -/
def placedWord (W a i : Nat) : Nat := wordAt W a i * 2 ^ (W * i)

theorem sum_placedWord_range (W a n : Nat) : ∑ i ∈ Finset.range n, placedWord W a i = a % 2 ^ (W * n) := by
  induction n with
  | zero => simp [Nat.mod_one]
  | succ n ih => rw [Finset.sum_range_succ, ih, mod_pow_succ, placedWord, Nat.add_comm]

/-- The first index from the top that meets a test is not below any that does. -/
theorem le_of_find?_reverse_range {n high i : Nat} {p : Nat → Bool} (h : (List.range n).reverse.find? p = some high)
    (hi : i < n) (hp : p i = true) : i ≤ high := by
  obtain ⟨-, above, below, hsplit, habove⟩ := List.find?_eq_some_iff_append.1 h
  have hrange : List.range n = below.reverse ++ high :: above.reverse := by
    rw [← List.reverse_reverse (List.range n), hsplit]
    simp
  have hmem : i ∈ below.reverse ++ high :: above.reverse := hrange ▸ List.mem_range.2 hi
  have hsorted : (below.reverse ++ high :: above.reverse).Pairwise (· < ·) := hrange ▸ List.pairwise_lt_range
  obtain hlow | hrest := List.mem_append.1 hmem
  · exact ((List.pairwise_append.1 hsorted).2.2 i hlow high List.mem_cons_self).le
  · obtain rfl | hup := List.mem_cons.1 hrest
    · exact le_rfl
    · have hno := habove i (List.mem_reverse.1 hup)
      simp [hp] at hno

theorem mem_significantSpan {W n a i : Nat} (hi : i < n) (hword : wordAt W a i ≠ 0) : i ∈ significantSpan W n a := by
  have hp : (wordAt W a i != 0) = true := bne_iff_ne.2 hword
  unfold significantSpan
  cases hlow : (List.range n).find? fun i => wordAt W a i != 0 with
  | none => exact absurd hp (List.find?_eq_none.1 hlow i (List.mem_range.2 hi))
  | some low =>
    cases hhigh : (List.range n).reverse.find? fun i => wordAt W a i != 0 with
    | none => exact absurd hp (List.find?_eq_none.1 hhigh i (List.mem_reverse.2 (List.mem_range.2 hi)))
    | some high =>
      have hbelow : low ≤ i := by
        by_contra hlt
        have hno := (List.find?_range_eq_some.1 hlow).2.2 i (Nat.not_le.1 hlt)
        simp [hp] at hno
      have habove := le_of_find?_reverse_range hhigh hi hp
      exact List.mem_range'_1.2 ⟨hbelow, by omega⟩

theorem nodup_significantSpan (W n a : Nat) : (significantSpan W n a).Nodup := by
  unfold significantSpan
  split
  · exact List.nodup_range'
  · exact List.nodup_nil

theorem lt_of_mem_significantSpan {W n a i : Nat} (h : i ∈ significantSpan W n a) : i < n := by
  unfold significantSpan at h
  split at h
  · next low high hlow hhigh =>
    have hn : high < n := List.mem_range.1 (List.mem_reverse.1 (List.mem_of_find?_eq_some hhigh))
    have hi := List.mem_range'_1.1 h
    omega
  · cases h

/-- The words of its significant span are the whole of a value. -/
theorem sum_significantSpan {W n a : Nat} (ha : a < 2 ^ (W * n)) :
    ((significantSpan W n a).map (placedWord W a)).sum = a := by
  rw [← List.sum_toFinset _ (nodup_significantSpan W n a)]
  conv_rhs => rw [← Nat.mod_eq_of_lt ha, ← sum_placedWord_range]
  refine Finset.sum_subset (fun i hi => ?_) fun i hi hout => ?_
  · exact Finset.mem_range.2 (lt_of_mem_significantSpan (List.mem_toFinset.1 hi))
  · have hzero : wordAt W a i = 0 := by
      by_contra hword
      exact hout (List.mem_toFinset.2 (mem_significantSpan (Finset.mem_range.1 hi) hword))
    rw [placedWord, hzero, Nat.zero_mul]

/-! ### Schoolbook multiplication (R135) -/

/-- A fold that adds a term for each element adds their sum. -/
theorem foldl_eq_add_sum {α : Type} {step : Nat → α → Nat} {term : α → Nat} (h : ∀ r x, step r x = r + term x)
    (l : List α) (r : Nat) : l.foldl step r = r + (l.map term).sum := by
  induction l generalizing r with
  | nil => rfl
  | cons x l ih => rw [List.foldl_cons, ih, h, List.map_cons, List.sum_cons, Nat.add_assoc]

/-- The two words of a partial product, added at their offsets, are the product of the two words in their places. -/
theorem partialProduct_eq (W a b i j : Nat) :
    (mulWords W (wordAt W a i) (wordAt W b j)).2 * 2 ^ (W * (i + j))
        + (mulWords W (wordAt W a i) (wordAt W b j)).1 * 2 ^ (W * (i + j + 1)) =
      placedWord W a i * placedWord W b j := by
  have hmul := mulWords_exact W (wordAt W a i) (wordAt W b j)
  calc _ = ((mulWords W (wordAt W a i) (wordAt W b j)).1 * 2 ^ W + (mulWords W (wordAt W a i) (wordAt W b j)).2)
        * 2 ^ (W * (i + j)) := by ring
    _ = placedWord W a i * placedWord W b j := by rw [hmul, placedWord, placedWord]; ring

theorem schoolbook_eq {W n a b : Nat} (ha : a < 2 ^ (W * n)) (hb : b < 2 ^ (W * n)) : schoolbook W n a b = a * b := by
  have hrow (i r : Nat) : (significantSpan W n b).foldl (init := r) (fun r j =>
      r + (mulWords W (wordAt W a i) (wordAt W b j)).2 * 2 ^ (W * (i + j))
        + (mulWords W (wordAt W a i) (wordAt W b j)).1 * 2 ^ (W * (i + j + 1))) = r + placedWord W a i * b := by
    rw [foldl_eq_add_sum (term := fun j => placedWord W a i * placedWord W b j)
      (fun r j => by rw [Nat.add_assoc, partialProduct_eq]), List.sum_map_mul_left, sum_significantSpan hb]
  unfold schoolbook
  rw [foldl_eq_add_sum (term := fun i => placedWord W a i * b) (fun r i => hrow i r), List.sum_map_mul_right,
    sum_significantSpan ha, Nat.zero_add]

/-- Settles O53: each operand is the sum of the words of its span, and the partial products are the terms of the product of
the two sums. -/
theorem schoolbookIsTheProduct : Obligations.SchoolbookIsTheProduct := fun _ _ _ _ _ ha hb => schoolbook_eq ha hb

/-! ### Karatsuba multiplication (R136, R137) -/

/-- The product of the sums of the halves, from the sums' carry bits and what they leave of `K`. -/
theorem mul_of_carries (x y K : Nat) :
    x % K * (y % K) + (x / K * (y % K) + y / K * (x % K)) * K + x / K * (y / K) * (K * K) = x * y := by
  conv_rhs => rw [← Nat.mod_add_div x K, ← Nat.mod_add_div y K]
  ring

/-- The product from the products of the halves and of their sums. -/
theorem mul_of_halves (a₀ a₁ b₀ b₁ P : Nat) :
    a₁ * b₁ * (P * P) + ((a₀ + a₁) * (b₀ + b₁) - a₁ * b₁ - a₀ * b₀) * P + a₀ * b₀ = (a₁ * P + a₀) * (b₁ * P + b₀) := by
  have hmiddle : (a₀ + a₁) * (b₀ + b₁) - a₁ * b₁ - a₀ * b₀ = a₁ * b₀ + a₀ * b₁ := by
    have hsum : (a₀ + a₁) * (b₀ + b₁) = a₁ * b₀ + a₀ * b₁ + a₀ * b₀ + a₁ * b₁ := by ring
    omega
  rw [hmiddle]
  ring

theorem karatsuba_eq {W kt : Nat} (fuel n a b : Nat) (ha : a < 2 ^ (W * n)) (hb : b < 2 ^ (W * n)) :
    karatsuba W kt fuel n a b = a * b := by
  induction fuel generalizing n a b with
  | zero => exact schoolbook_eq ha hb
  | succ fuel ih =>
    rw [karatsuba]
    split
    · exact schoolbook_eq ha hb
    · have low (x : Nat) : x % 2 ^ (W * (n / 2)) < 2 ^ (W * (n / 2)) := Nat.mod_lt _ (Nat.two_pow_pos _)
      have high {x : Nat} (hx : x < 2 ^ (W * n)) : x / 2 ^ (W * (n / 2)) < 2 ^ (W * (n - n / 2)) := by
        refine Nat.div_lt_of_lt_mul ?_
        rwa [← Nat.pow_add, ← Nat.mul_add, Nat.add_sub_of_le (Nat.div_le_self n 2)]
      have rem (x : Nat) : x % 2 ^ (W * (n - n / 2)) < 2 ^ (W * (n - n / 2)) := Nat.mod_lt _ (Nat.two_pow_pos _)
      have hdouble (k : Nat) : 2 ^ (W * (2 * k)) = 2 ^ (W * k) * 2 ^ (W * k) := by rw [← Nat.pow_add]; congr 1; ring
      simp only [ih _ _ _ (low a) (low b), ih _ _ _ (high ha) (high hb), ih _ _ _ (rem _) (rem _), hdouble,
        mul_of_carries, mul_of_halves, Nat.div_add_mod']

/-- Settles O54: both algorithms are exact at every length, so the choice between them changes nothing. -/
theorem everyMultiplyAlgorithmGivesTheProduct : Obligations.EveryMultiplyAlgorithmGivesTheProduct := by
  refine ⟨fun W kt n a b _ _ ha hb => karatsuba_eq n n a b ha hb, fun p g a b _ ha hb => ?_⟩
  rw [Params.M, Nat.mul_comm] at ha hb
  cases g with
  | schoolbook => exact schoolbook_eq ha hb
  | auto | karatsuba =>
    simp only [mulByAlg, karatsuba_eq _ _ _ _ ha hb, schoolbook_eq ha hb, ite_self]

end Sys2Proof.Machine
end

section
/-! SUPPORT. The division algorithms (45_divide.md R140, R144 to R146): restoring, alignment and Knuth's Algorithm D each give the
exact quotient and remainder, and so does VDIVW. -/

namespace Sys2Proof.Machine

/-! ### VDIVW (R140) -/

theorem exec_vdivw_of_ne_zero {s : State} {b : SReg} (hb : s.S b ≠ 0) (d : VReg) (c : SReg) :
    exec (.vdivw d b c) s =
      .next (((s.setV d (s.V d / s.S b) (operandsSet (.vdivw d b c) s)).setS c (s.V d % s.S b)
        (operandsSet (.vdivw d b c) s)).complete .plain false false) := by
  rw [exec, execVdivw, if_neg hb]
  rfl

/-- Settles O55: the quotient is at most the dividend and the remainder below a divisor that is a word, so both registers take
them uncut. -/
theorem vdivwDividesByAWord : Obligations.VdivwDividesByAWord := by
  intro s d b c hs
  refine ⟨decode_assemble_encodeFields (.vdivw d b c) rfl, fun hb => ⟨_, exec_vdivw_of_ne_zero hb d c, ?_⟩,
    fun hb => ⟨_, exec_vdivw_of_zero hb d c, faulted_takeFault s _⟩⟩
  have hquot : s.V d / s.S b < 2 ^ s.M := (Nat.div_le_self _ _).trans_lt (hs.V_lt d)
  have hrem : s.V d % s.S b < 2 ^ s.W := (Nat.mod_lt _ (Nat.pos_of_ne_zero hb)).trans (hs.S_lt b)
  exact setV_setS_complete_plain hquot hrem d c _

/-! ### Restoring division (R144) -/

/-- Restoring division of a remainder and the bits below `count` adds the quotient of the value they form to `q`. -/
theorem restoringFrom_eq {d r : Nat} (hr : r < d) (x count q : Nat) :
    restoringFrom x d count q r =
      (q + (r * 2 ^ count + x % 2 ^ count) / d, (r * 2 ^ count + x % 2 ^ count) % d) := by
  have hd : 0 < d := Nat.zero_lt_of_lt hr
  induction count generalizing q r with
  | zero => simp [restoringFrom, Nat.mod_one, Nat.div_eq_of_lt hr, Nat.mod_eq_of_lt hr]
  | succ j ih =>
    have hbit := Bool.toNat_le (x.testBit j)
    have hform : r * 2 ^ (j + 1) + x % 2 ^ (j + 1) = (2 * r + (x.testBit j).toNat) * 2 ^ j + x % 2 ^ j := by
      rw [Nat.mod_pow_succ, Nat.toNat_testBit]
      ring
    obtain ⟨hdiv, hmod⟩ := div_mod_append hd (2 * r + (x.testBit j).toNat) (2 ^ j) (x % 2 ^ j)
    rw [restoringFrom, hform, ← hdiv, ← hmod]
    split
    · next hle =>
      have hlt : 2 * r + (x.testBit j).toNat - d < d := by omega
      have hone : (2 * r + (x.testBit j).toNat) / d = 1 := by
        rw [Nat.div_eq_sub_div hd hle, Nat.div_eq_of_lt hlt]
      have hsub : (2 * r + (x.testBit j).toNat) % d = 2 * r + (x.testBit j).toNat - d := by
        rw [Nat.mod_eq_sub_mod hle, Nat.mod_eq_of_lt hlt]
      rw [ih hlt, hone, hsub, Nat.one_mul, Nat.add_assoc]
    · next hgt =>
      have hlt : 2 * r + (x.testBit j).toNat < d := Nat.not_le.1 hgt
      rw [ih hlt, Nat.div_eq_of_lt hlt, Nat.mod_eq_of_lt hlt, Nat.zero_mul, Nat.zero_add]

/-! ### Leading-bit alignment (R145) -/

/-- How far the divisor moves up: its leading bit under the remainder's, or one place lower where that is too much. -/
def alignShift (d r : Nat) : Nat :=
  if r < d * 2 ^ (leadingBit r - leadingBit d) then leadingBit r - leadingBit d - 1 else leadingBit r - leadingBit d

/-- The aligned divisor is not above the remainder, and taking it away clears the remainder's leading bit. -/
theorem alignShift_spec {d r : Nat} (hd : 0 < d) (hdr : d ≤ r) :
    d * 2 ^ alignShift d r ≤ r ∧ r - d * 2 ^ alignShift d r < 2 ^ leadingBit r := by
  have hd1 := two_pow_leadingBit_le hd.ne'
  have hd2 := lt_two_pow_leadingBit_succ d
  have hr1 := two_pow_leadingBit_le (hd.trans_le hdr).ne'
  have hr2 := lt_two_pow_leadingBit_succ r
  have hle : leadingBit d ≤ leadingBit r := by
    have := (Nat.pow_lt_pow_iff_right Nat.one_lt_two).1 (hd1.trans_lt (hdr.trans_lt hr2))
    omega
  have hlow : 2 ^ leadingBit r ≤ d * 2 ^ (leadingBit r - leadingBit d) := by
    calc 2 ^ leadingBit r = 2 ^ leadingBit d * 2 ^ (leadingBit r - leadingBit d) := by
          rw [← Nat.pow_add, Nat.add_sub_of_le hle]
      _ ≤ _ := Nat.mul_le_mul_right _ hd1
  have hhigh : d * 2 ^ (leadingBit r - leadingBit d) < 2 ^ (leadingBit r + 1) := by
    calc _ < 2 ^ (leadingBit d + 1) * 2 ^ (leadingBit r - leadingBit d) := Nat.mul_lt_mul_of_pos_right hd2 (Nat.two_pow_pos _)
      _ = 2 ^ (leadingBit r + 1) := by rw [← Nat.pow_add]; congr 1; omega
  rw [Nat.pow_succ] at hr2 hhigh
  unfold alignShift
  split
  · next habove =>
    obtain ⟨k, hk⟩ : ∃ k, leadingBit r - leadingBit d = k + 1 :=
      Nat.exists_eq_succ_of_ne_zero fun h0 => by rw [h0] at habove; omega
    rw [hk, Nat.pow_succ, ← Nat.mul_assoc] at hhigh hlow habove
    rw [hk, Nat.add_sub_cancel]
    omega
  · next hunder => omega

/-- A multiple of the divisor moves from the remainder to the quotient. -/
theorem add_sub_mul_div_mod {d r k : Nat} (hd : 0 < d) (h : d * k ≤ r) (q : Nat) :
    q + k + (r - d * k) / d = q + r / d ∧ (r - d * k) % d = r % d := by
  obtain ⟨m, rfl⟩ := Nat.exists_eq_add_of_le h
  rw [Nat.add_sub_cancel_left, Nat.add_comm (d * k), Nat.add_mul_div_left _ _ hd, Nat.add_mul_mod_self_left]
  exact ⟨by omega, rfl⟩

theorem alignFrom_eq {d : Nat} (hd : 0 < d) (fuel q r : Nat) (hr : r < 2 ^ fuel) :
    alignFrom d fuel q r = (q + r / d, r % d) := by
  induction fuel generalizing q r with
  | zero =>
    obtain rfl : r = 0 := by simpa using hr
    simp [alignFrom]
  | succ fuel ih =>
    rw [alignFrom]
    split
    · next hrd => rw [Nat.div_eq_of_lt hrd, Nat.mod_eq_of_lt hrd, Nat.add_zero]
    · next hdr =>
      have hdr : d ≤ r := Nat.not_lt.1 hdr
      obtain ⟨hle, hlt⟩ := alignShift_spec hd hdr
      have hlead : leadingBit r ≤ fuel := Nat.le_of_lt_succ (leadingBit_lt (hd.trans_le hdr).ne' hr)
      have hnext : r - d * 2 ^ alignShift d r < 2 ^ fuel := hlt.trans_le (Nat.pow_le_pow_right Nat.two_pos hlead)
      obtain ⟨hquot, hrem⟩ := add_sub_mul_div_mod hd hle q
      calc _ = alignFrom d fuel (q + 2 ^ alignShift d r) (r - d * 2 ^ alignShift d r) := rfl
        _ = _ := by rw [ih _ _ hnext, hquot, hrem]

/-- Settles O57: each round of either algorithm keeps the quotient and remainder of what is left. -/
theorem restoringAndAlignmentDivisionAreExact : Obligations.RestoringAndAlignmentDivisionAreExact := by
  intro M x d hx hd
  constructor
  · rw [restoringFrom_eq hd, Nat.zero_mul, Nat.zero_add, Nat.zero_add, Nat.mod_eq_of_lt hx]
  · rw [alignFrom_eq hd M 0 x hx, Nat.zero_add]

end Sys2Proof.Machine
end

section
/-! SUPPORT. Knuth's Algorithm D (45_divide.md R146): the estimate of a quotient word is not below it and at most two above it, so
two corrections are enough; and that every algorithm of VDIV agrees (R141, R143). -/

namespace Sys2Proof.Machine

theorem lt_div_add_one_mul (u : Nat) {D : Nat} (hD : 0 < D) : u < (u / D + 1) * D :=
  Nat.mul_comm D _ ▸ Nat.lt_mul_div_succ u hD

/-! ### The correction of a quotient word -/

/-- The trial difference of an estimate. -/
def trialDifference (u D estimate : Nat) : Int := (u : Int) - (estimate * D : Nat)

theorem knuthCorrect_of_exact (u D count : Nat) :
    knuthCorrect D count (trialDifference u D (u / D)) (u / D) = (((u % D : Nat) : Int), u / D) := by
  have hrem : trialDifference u D (u / D) = ((u % D : Nat) : Int) := by
    have hdivmod := Nat.div_add_mod' u D
    rw [trialDifference]
    omega
  rw [hrem]
  cases count with
  | zero => rfl
  | succ count => exact if_neg (Int.natCast_nonneg _).not_gt

/-- Corrections take an estimate that is not below the quotient down to it, and leave the remainder. -/
theorem knuthCorrect_eq {D : Nat} (hD : 0 < D) (u count estimate : Nat) (hlow : u / D ≤ estimate)
    (hhigh : estimate ≤ u / D + count) :
    knuthCorrect D count (trialDifference u D estimate) estimate = (((u % D : Nat) : Int), u / D) := by
  induction count generalizing estimate with
  | zero =>
    obtain rfl : estimate = u / D := Nat.le_antisymm hhigh hlow
    exact knuthCorrect_of_exact ..
  | succ count ih =>
    obtain rfl | hlt := hlow.eq_or_lt
    · exact knuthCorrect_of_exact ..
    · obtain ⟨e, rfl⟩ : ∃ e, estimate = e + 1 := Nat.exists_eq_succ_of_ne_zero (Nat.ne_zero_of_lt hlt)
      have hover : u < (e + 1) * D := (Nat.div_lt_iff_lt_mul hD).1 hlt
      have hneg : trialDifference u D (e + 1) < 0 := by rw [trialDifference]; omega
      have hback : trialDifference u D (e + 1) + D = trialDifference u D e := by
        rw [trialDifference, trialDifference]
        push_cast
        ring
      rw [knuthCorrect, if_pos hneg, hback, Nat.add_sub_cancel]
      exact ih e (Nat.le_of_lt_succ hlt) (by omega)

/-! ### The estimate of a quotient word -/

/-- The estimate is the quotient of the top two words by the divisor's top word, or `2 ^ W - 1` where that is no word. -/
theorem knuthEstimate_eq_min {W lo top : Nat} (hlo : lo < 2 ^ W) (htop : 0 < top) (hi : Nat) :
    knuthEstimate W hi lo top = min ((hi * 2 ^ W + lo) / top) (2 ^ W - 1) := by
  have hfits : (hi * 2 ^ W + lo) / top < 2 ^ W ↔ hi < top := divDoubleWord_quotient_lt_iff hlo htop
  rw [knuthEstimate]
  split
  · next h => exact (Nat.min_eq_left (Nat.le_sub_one_of_lt (hfits.2 h))).symm
  · next h =>
    have hbig : 2 ^ W ≤ (hi * 2 ^ W + lo) / top := Nat.not_lt.1 fun hlt => h (hfits.1 hlt)
    exact (Nat.min_eq_right (Nat.le_trans (Nat.sub_le ..) hbig)).symm

/-- With `E` the weight of the last word of both, the top two words `hi`, `lo` of the dividend and a normalised top word of the
divisor give an estimate that is not below the quotient word and at most two above it. -/
theorem knuthEstimate_bounds {W hi lo top u D E : Nat} (hW : 0 < W) (hlo : lo < 2 ^ W) (hnorm : 2 ^ (W - 1) ≤ top)
    (hu : (hi * 2 ^ W + lo) * E ≤ u) (hu' : u < (hi * 2 ^ W + lo + 1) * E) (hD : top * E ≤ D) (hD' : D < (top + 1) * E)
    (hquot : u < D * 2 ^ W) :
    u / D ≤ knuthEstimate W hi lo top ∧ knuthEstimate W hi lo top ≤ u / D + 2 := by
  have hpow : 2 ^ W = 2 * 2 ^ (W - 1) := by rw [← Nat.pow_succ', Nat.succ_eq_add_one, Nat.sub_add_cancel hW]
  have htop : 0 < top := (Nat.two_pow_pos _).trans_le hnorm
  have hDpos : 0 < D := Nat.pos_of_ne_zero fun h => by simp [h] at hquot
  have hq : u / D < 2 ^ W := (Nat.div_lt_iff_lt_mul hDpos).2 (by rwa [Nat.mul_comm])
  rw [knuthEstimate_eq_min hlo htop]
  constructor
  · have hqtop : u / D * top ≤ hi * 2 ^ W + lo := by
      refine Nat.le_of_lt_succ (Nat.lt_of_mul_lt_mul_right (a := E) ?_)
      calc u / D * top * E ≤ u / D * D := by rw [Nat.mul_assoc]; exact Nat.mul_le_mul_left _ hD
        _ ≤ u := Nat.div_mul_le_self u D
        _ < (hi * 2 ^ W + lo + 1) * E := hu'
    exact le_min ((Nat.le_div_iff_mul_le htop).2 hqtop) (Nat.le_sub_one_of_lt hq)
  · by_contra hfar
    have hfar : u / D + 3 ≤ (hi * 2 ^ W + lo) / top := Nat.le_trans (Nat.not_le.1 hfar) (Nat.min_le_left ..)
    have hcross : (u / D + 3) * top < (u / D + 1) * (top + 1) := by
      refine Nat.lt_of_mul_lt_mul_right (a := E) ?_
      calc (u / D + 3) * top * E ≤ (hi * 2 ^ W + lo) * E := Nat.mul_le_mul_right _ ((Nat.le_div_iff_mul_le htop).1 hfar)
        _ ≤ u := hu
        _ < (u / D + 1) * D := lt_div_add_one_mul u hDpos
        _ ≤ (u / D + 1) * (top + 1) * E := by rw [Nat.mul_assoc]; exact Nat.mul_le_mul_left _ hD'.le
    have hsmall : 2 * top < u / D + 1 := by nlinarith
    omega

/-! ### Algorithm D -/

/-- The top word of a value is all that stands above the words below it. -/
theorem wordAt_top {W v i : Nat} (hv : v < 2 ^ (W * (i + 1))) : wordAt W v i = v / 2 ^ (W * i) := by
  refine Nat.mod_eq_of_lt (Nat.div_lt_of_lt_mul ?_)
  rwa [← Nat.pow_add, ← Nat.mul_succ]

/-- The top two words of a value are all that stands above the words below them. -/
theorem top_two_words {W v i : Nat} (hv : v < 2 ^ (W * (i + 2))) :
    wordAt W v (i + 1) * 2 ^ W + wordAt W v i = v / 2 ^ (W * i) := by
  rw [wordAt_top (i := i + 1) hv, wordAt, Nat.mul_succ, Nat.pow_add, ← Nat.div_div_eq_div_mul]
  exact Nat.div_add_mod' ..

section
variable {W m v : Nat} (hW : 0 < W) (hv : v < 2 ^ (W * (m + 1))) (hnorm : 2 ^ (W * (m + 1) - 1) ≤ v)
include hW hv hnorm

/-- In each place, the estimate for a divisor of `m + 1` words is within two of the quotient word. -/
theorem knuthEstimate_of_place {j u : Nat} (hu : u < v * 2 ^ (W * (j + 1))) :
    u / (v * 2 ^ (W * j)) ≤ knuthEstimate W (wordAt W u (j + (m + 1))) (wordAt W u (j + (m + 1) - 1)) (wordAt W v m) ∧
      knuthEstimate W (wordAt W u (j + (m + 1))) (wordAt W u (j + (m + 1) - 1)) (wordAt W v m)
        ≤ u / (v * 2 ^ (W * j)) + 2 := by
  have hE : 2 ^ (W * (j + m)) = 2 ^ (W * m) * 2 ^ (W * j) := by rw [← Nat.pow_add]; congr 1; ring
  have hEpos : 0 < 2 ^ (W * m) := Nat.two_pow_pos _
  have hu2 : u < 2 ^ (W * (j + m + 2)) := by
    calc u < v * 2 ^ (W * (j + 1)) := hu
      _ ≤ 2 ^ (W * (m + 1)) * 2 ^ (W * (j + 1)) := Nat.mul_le_mul_right _ hv.le
      _ = 2 ^ (W * (j + m + 2)) := by rw [← Nat.pow_add]; congr 1; ring
  have hwords := top_two_words hu2
  have htop := wordAt_top hv
  have htopnorm : 2 ^ (W - 1) ≤ wordAt W v m := by
    rw [htop, Nat.le_div_iff_mul_le hEpos, ← Nat.pow_add]
    have hexp : W - 1 + W * m = W * (m + 1) - 1 := by rw [Nat.mul_succ]; omega
    rwa [hexp]
  refine knuthEstimate_bounds (E := 2 ^ (W * (j + m))) hW (wordAt_lt ..) htopnorm ?_ ?_ ?_ ?_ ?_
  · exact hwords ▸ Nat.div_mul_le_self ..
  · exact hwords ▸ lt_div_add_one_mul u (Nat.two_pow_pos _)
  · rw [hE, htop, ← Nat.mul_assoc]
    exact Nat.mul_le_mul_right _ (Nat.div_mul_le_self v _)
  · rw [hE, htop, ← Nat.mul_assoc]
    exact Nat.mul_lt_mul_of_pos_right (lt_div_add_one_mul v hEpos) (Nat.two_pow_pos _)
  · rwa [Nat.mul_assoc, ← Nat.pow_add, ← Nat.mul_succ]

/-- Algorithm D for the quotient words below `count` gives quotient and remainder of what is left of the dividend. -/
theorem knuthFrom_eq (count u : Nat) (hu : u < v * 2 ^ (W * count)) :
    knuthFrom W (m + 1) v count u = (u / v, u % v) := by
  have hvpos : 0 < v := (Nat.two_pow_pos _).trans_le hnorm
  induction count generalizing u with
  | zero =>
    have huv : u < v := by simpa using hu
    rw [knuthFrom, Nat.div_eq_of_lt huv, Nat.mod_eq_of_lt huv]
  | succ j ih =>
    have hDpos : 0 < v * 2 ^ (W * j) := Nat.mul_pos hvpos (Nat.two_pow_pos _)
    obtain ⟨hlow, hhigh⟩ := knuthEstimate_of_place hW hv hnorm hu
    have hfixed := knuthCorrect_eq hDpos u 2 _ hlow hhigh
    rw [trialDifference, ← Nat.mul_assoc] at hfixed
    have hquot : u / (v * 2 ^ (W * j)) * 2 ^ (W * j) + u % (v * 2 ^ (W * j)) / v = u / v := by
      calc _ = (u % (v * 2 ^ (W * j)) + u / (v * 2 ^ (W * j)) * 2 ^ (W * j) * v) / v := by
            rw [Nat.add_mul_div_right _ _ hvpos, Nat.add_comm]
        _ = u / v := by rw [Nat.mul_assoc, Nat.mul_comm (2 ^ (W * j)), Nat.mod_add_div']
    have hrem : u % (v * 2 ^ (W * j)) % v = u % v := Nat.mod_mul_right_mod ..
    simp only [knuthFrom, Nat.add_sub_cancel, hfixed, Int.toNat_natCast, ih _ (Nat.mod_lt _ hDpos), hquot, hrem]

end

/-- Normalisation moves the leading bit of the divisor to the top of its words. -/
theorem normalised_bounds {d k : Nat} (hd : d ≠ 0) :
    2 ^ (leadingBit d + k) ≤ d * 2 ^ k ∧ d * 2 ^ k < 2 ^ (leadingBit d + k + 1) := by
  rw [Nat.add_right_comm, Nat.pow_add, Nat.pow_add]
  exact ⟨Nat.mul_le_mul_right _ (two_pow_leadingBit_le hd),
    Nat.mul_lt_mul_of_pos_right (lt_two_pow_leadingBit_succ d) (Nat.two_pow_pos k)⟩

theorem knuth_eq {W N x d : Nat} (hW : 0 < W) (hx : x < 2 ^ (W * N)) (hd : 0 < d) (hdN : d < 2 ^ (W * N)) :
    knuth W N x d = (x / d, x % d) := by
  have hlow : W * (leadingBit d / W) ≤ leadingBit d := Nat.mul_div_le ..
  have hhigh : leadingBit d < W * (leadingBit d / W + 1) := Nat.lt_mul_div_succ _ hW
  have hN : leadingBit d / W < N := Nat.div_lt_of_lt_mul (leadingBit_lt hd.ne' hdN)
  obtain ⟨m, hm⟩ : ∃ m, leadingBit d / W = m := ⟨_, rfl⟩
  obtain ⟨shift, hshift⟩ : ∃ shift, W * (m + 1) - 1 - leadingBit d = shift := ⟨_, rfl⟩
  rw [hm] at hlow hhigh hN
  rw [Nat.mul_succ] at hhigh hshift
  have hplace : leadingBit d + shift = W * (m + 1) - 1 := by rw [Nat.mul_succ]; omega
  obtain ⟨hnorm, hv⟩ := normalised_bounds (k := shift) hd.ne'
  rw [hplace, Nat.sub_add_cancel (Nat.mul_pos hW (Nat.succ_pos m))] at hv
  rw [hplace] at hnorm
  have hu : x * 2 ^ shift < d * 2 ^ shift * 2 ^ (W * (N - (m + 1) + 1)) := by
    have hexp : W * N + shift ≤ W * (m + 1) - 1 + W * (N - (m + 1) + 1) := by
      obtain ⟨k, rfl⟩ : ∃ k, N = m + 1 + k := Nat.exists_eq_add_of_le hN
      rw [Nat.add_sub_cancel_left, Nat.mul_add, Nat.mul_succ, Nat.mul_succ]
      omega
    calc x * 2 ^ shift < 2 ^ (W * N) * 2 ^ shift := Nat.mul_lt_mul_of_pos_right hx (Nat.two_pow_pos _)
      _ = 2 ^ (W * N + shift) := (Nat.pow_add ..).symm
      _ ≤ 2 ^ (W * (m + 1) - 1 + W * (N - (m + 1) + 1)) := Nat.pow_le_pow_right Nat.two_pos hexp
      _ ≤ d * 2 ^ shift * 2 ^ (W * (N - (m + 1) + 1)) := by
        rw [Nat.pow_add]
        exact Nat.mul_le_mul_right _ hnorm
  have hpos := Nat.two_pow_pos shift
  have hrem : x * 2 ^ shift % (d * 2 ^ shift) < 2 ^ (W * (m + 1)) :=
    (Nat.mod_lt _ (Nat.mul_pos hd hpos)).trans hv
  rw [← Nat.mul_succ] at hshift
  simp only [knuth, hm, hshift]
  rw [knuthFrom_eq hW hv hnorm _ _ hu]
  dsimp only
  rw [Nat.mod_eq_of_lt hrem, Nat.mul_div_mul_right _ _ hpos, Nat.mul_mod_mul_right, Nat.mul_div_cancel _ hpos]

/-- Settles O58: the normalised division gives the quotient, and its remainder moved back. -/
theorem knuthDivisionIsExact : Obligations.KnuthDivisionIsExact := fun _ _ _ _ hW hx hbig hd =>
  knuth_eq hW hx ((Nat.two_pow_pos _).trans_le hbig) hd

/-! ### Every algorithm of VDIV (R141, R143) -/

/-- Settles O59: each pre-check gives the quotient and remainder of its case, and each algorithm is exact. -/
theorem everyDivisionAlgorithmAgrees : Obligations.EveryDivisionAlgorithmAgrees := by
  intro W N x d g hW hx hd
  obtain rfl | hpos := d.eq_zero_or_pos
  · rfl
  have hexact := restoringAndAlignmentDivisionAreExact (N * W) x d (Nat.mul_comm W N ▸ hx) hpos
  unfold divByAlg
  rw [if_neg hpos.ne', if_neg hpos.ne']
  split_ifs with hless hequal hword
  · rw [Nat.div_eq_of_lt hless, Nat.mod_eq_of_lt hless]
  · rw [hequal, Nat.div_self hpos, Nat.mod_self]
  · rw [divWordSerial_eq hpos, Nat.zero_mul, Nat.zero_add, Nat.mod_eq_of_lt hx]
  · cases g with
    | knuth => exact congrArg some (knuth_eq hW hx hpos hd)
    | restoring => exact congrArg some hexact.1
    | align => exact congrArg some hexact.2

end Sys2Proof.Machine
end
